-- ==== Sys2Proof/Word.lean ====
section
/-! DEFINITION. The words of the block and the names of its two arithmetic modes (00_scope.md). -/

namespace Sys2Proof

/-- One byte of the host's byte view of the buffer memory (R64, R65). -/
abbrev Byte := BitVec 8

/-- A 32-bit word: a command word, a data word, a buffer word, a register read through the window. -/
abbrev Word := BitVec 32

/-- The bit pattern of an IEEE 754 binary32 value (R14, R25). -/
abbrev F32 := BitVec 32

/-- A raw Q16.16 value: a signed 32-bit two's-complement integer, its real value is raw / 65536 (R22, R24). -/
abbrev Q16 := BitVec 32

/-- The parameter `DENORMAL_MODE` (R25): subnormals are kept (`ieee`), or read and written as zeros of
their sign (`ftz`). -/
inductive DenormalMode where
  | ieee
  | ftz
  deriving DecidableEq, Repr

end Sys2Proof
end

