-- ==== Sys2Proof/Syntax.lean ====
section
/-! DEFINITION. The instructions of the block: the four host commands and the twelve micro-operations of the
sequencer, one constructor for each row of spec/opcode_table.json (R3). -/

namespace Sys2Proof

/-- The operands are the ones R94 assembles: `NFR` and `IDX` are zero-extended, `value` is the data word
read as a signed integer. The micro-operations take no encoded operand (R102). -/
inductive Instr where
  /-- LOAD (R222). -/
  | load
  /-- PROC with its frame count `NFR` (R223). -/
  | proc (nfr : Nat)
  /-- SETP with its parameter index `IDX` and its Q1.31 value (R224). -/
  | setp (idx : Nat) (value : Int)
  /-- RESUME (R225). -/
  | resume
  /-- BLK_SETUP (R137). -/
  | blkSetup
  /-- IN_READ (R203). -/
  | inRead
  /-- LFO_STEP (R139). -/
  | lfoStep
  /-- SHAPE_PRE (R157). -/
  | shapePre
  /-- LOOKUP (R123). -/
  | lookup
  /-- COEF (R160). -/
  | coef
  /-- MIX (R172). -/
  | mix
  /-- STAGE (R174). -/
  | stage
  /-- LIMIT (R192). -/
  | limit
  /-- OUT_WRITE (R204). -/
  | outWrite
  /-- GAIN_STEP (R193). -/
  | gainStep
  /-- NEXT (R205). -/
  | next
  deriving DecidableEq, Repr

end Sys2Proof
end

