-- ==== Sys2Proof/WellFormed.lean ====
section
/-! DEFINITION. Which instructions a command word and a data word can carry (30_encoding.md R92 to R94, R103). -/

namespace Sys2Proof

/-- The ranges of the operand fields: `NFR` has 16 bits, `IDX` has 8, the value has 32 and is signed. -/
abbrev WellFormed : Instr → Prop
  | .proc nfr => nfr < 65536
  | .setp idx value => idx < 256 ∧ -2147483648 ≤ value ∧ value < 2147483648
  | .load | .resume | .blkSetup | .inRead | .lfoStep | .shapePre | .lookup | .coef | .mix | .stage
  | .limit | .outWrite | .gainStep | .next => True

end Sys2Proof
end

