-- ==== Sys2Proof/Decode.lean ====
section
/-! DEFINITION. The two formats, the decoder and the encoder (30_encoding.md R91 to R99). -/

namespace Sys2Proof

/-- What is decoded: a command transaction of two words, taken atomically, or the 4-bit code in `seq` (R91). -/
inductive Code where
  | cmd (cw dw : Word)
  | seq (code : BitVec 4)
  deriving DecidableEq, Repr

/-- Why a code is no instruction. -/
inductive Reject where
  /-- `OP` is 0x0 or 0x5..0xF (R96). -/
  | reservedOp
  /-- `RSV` is not 0 (R96). -/
  | reservedBits
  /-- A field the operation does not use is not 0 (R96). -/
  | unusedField
  /-- Sequencer code 0x0: `IDLE`, no micro-operation (R98, R100). -/
  | idle
  /-- Sequencer code 0xD..0xF (R98, R99). -/
  | reservedSeq
  deriving DecidableEq, Repr

/-- What decoding gives. -/
inductive Decoded where
  | instr (i : Instr)
  | reject (r : Reject)
  deriving DecidableEq, Repr

/-- `v[hi:lo]` read as an unsigned number (R15). -/
def field (v : Word) (hi lo : Nat) : Nat := v.toNat / 2 ^ lo % 2 ^ (hi + 1 - lo)

/-- The decode of a transaction (R95), its tests in the order R95 writes them. The data word never makes
a command illegal (R248). -/
def decodeCmd (cw dw : Word) : Decoded :=
  match field cw 3 0 with
  | 0x1 =>
    if field cw 7 4 ≠ 0 then .reject .reservedBits
    else if field cw 31 8 ≠ 0 then .reject .unusedField
    else .instr .load
  | 0x2 =>
    if field cw 7 4 ≠ 0 then .reject .reservedBits
    else if field cw 15 8 ≠ 0 then .reject .unusedField
    else .instr (.proc (field cw 31 16))
  | 0x3 =>
    if field cw 7 4 ≠ 0 then .reject .reservedBits
    else if field cw 31 16 ≠ 0 then .reject .unusedField
    else .instr (.setp (field cw 15 8) dw.toInt)
  | 0x4 =>
    if field cw 7 4 ≠ 0 then .reject .reservedBits
    else if field cw 31 8 ≠ 0 then .reject .unusedField
    else .instr .resume
  | _ => .reject .reservedOp

/-- The sequencer codes (R98). -/
def decodeSeq (code : BitVec 4) : Decoded :=
  match code.toNat with
  | 0x0 => .reject .idle
  | 0x1 => .instr .blkSetup
  | 0x2 => .instr .inRead
  | 0x3 => .instr .lfoStep
  | 0x4 => .instr .shapePre
  | 0x5 => .instr .lookup
  | 0x6 => .instr .coef
  | 0x7 => .instr .mix
  | 0x8 => .instr .stage
  | 0x9 => .instr .limit
  | 0xA => .instr .outWrite
  | 0xB => .instr .gainStep
  | 0xC => .instr .next
  | _ => .reject .reservedSeq

/-- The decoder, total on every code. -/
def decode : Code → Decoded
  | .cmd cw dw => decodeCmd cw dw
  | .seq code => decodeSeq code

/-- The command word of a command (R92, R103), 0 for a micro-operation. -/
def commandWord : Instr → Word
  | .load => 0x00000001
  | .proc nfr => BitVec.ofNat 32 (nfr * 2 ^ 16 + 0x2)
  | .setp idx _ => BitVec.ofNat 32 (idx * 2 ^ 8 + 0x3)
  | .resume => 0x00000004
  | .blkSetup | .inRead | .lfoStep | .shapePre | .lookup | .coef | .mix | .stage
  | .limit | .outWrite | .gainStep | .next => 0

/-- `IDLE`, the code of no micro-operation (R98, R100). -/
def idleCode : BitVec 4 := 0x0

/-- The sequencer code of a micro-operation (R98), `IDLE` for a command. -/
def seqCode : Instr → BitVec 4
  | .blkSetup => 0x1
  | .inRead => 0x2
  | .lfoStep => 0x3
  | .shapePre => 0x4
  | .lookup => 0x5
  | .coef => 0x6
  | .mix => 0x7
  | .stage => 0x8
  | .limit => 0x9
  | .outWrite => 0xA
  | .gainStep => 0xB
  | .next => 0xC
  | .load | .proc _ | .setp _ _ | .resume => idleCode

/-- The encoder: the words the assembler emits for a command, its data word 0 where it is ignored (R103),
and the code of a micro-operation (R98). -/
def encode (i : Instr) : Code :=
  match i with
  | .load | .proc _ | .resume => .cmd (commandWord i) 0
  | .setp _ value => .cmd (commandWord i) (BitVec.ofInt 32 value)
  | .blkSetup | .inRead | .lfoStep | .shapePre | .lookup | .coef | .mix | .stage
  | .limit | .outWrite | .gainStep | .next => .seq (seqCode i)

/-- Is this one of the four host commands, the instructions of the command port (R3)? -/
def isCommand : Instr → Bool
  | .load | .proc _ | .setp _ _ | .resume => true
  | .blkSetup | .inRead | .lfoStep | .shapePre | .lookup | .coef | .mix | .stage
  | .limit | .outWrite | .gainStep | .next => false

/-- The instruction in a row of spec/opcode_table.json whose bits are `w`. A row of at most a byte is a
sequencer code; a longer one is a transaction, the command word in bits 31..0 and the data word above it. -/
def decodeTableWord (nbits w : Nat) : Option Instr :=
  match (if nbits ≤ 8 then (if w < 16 then decode (.seq (BitVec.ofNat 4 w)) else .reject .reservedSeq)
      else decode (.cmd (BitVec.ofNat 32 w) (BitVec.ofNat 32 (w / 2 ^ 32)))) with
  | .instr i => some i
  | .reject _ => none

end Sys2Proof
end

