-- ==== Sys2Proof/Machine/Float.lean ====
section
/-! DEFINITION. The binary32 operations of R18, R25 and R29, on bit patterns.
Every finite binary32 value is an integer number of units of 2^-149, the smallest subnormal, so an
operation computes its exact result as a fraction of such units and rounds it once, to nearest even.
What IEEE 754 says where the spec only names it (signed zeros, infinities, invalid operations) is log entry 19. -/

namespace Sys2Proof.Binary32

/-- +infinity. -/
def infinity : F32 := 0x7F800000

/-- The one NaN that arithmetic returns (R29). -/
def canonicalNaN : F32 := 0x7FC00000

/-- 1.0f. -/
def one : F32 := 0x3F800000

/-- The sign bit. -/
def sign (x : F32) : Bool := x.msb

/-- The pattern without its sign bit. On values that are not NaN it grows with the magnitude. -/
def magnitude (x : F32) : Nat := x.toNat % 2 ^ 31

def isNaN (x : F32) : Bool := decide (0x7F800000 < magnitude x)

def isInf (x : F32) : Bool := decide (magnitude x = 0x7F800000)

/-- `finite(x)` of R18: neither an infinity nor a NaN. -/
def isFinite (x : F32) : Bool := decide (magnitude x < 0x7F800000)

def isZero (x : F32) : Bool := decide (magnitude x = 0)

/-- The pattern with a given sign and magnitude. -/
def withSign (neg : Bool) (mag : Nat) : F32 :=
  BitVec.ofNat 32 ((if neg then 2 ^ 31 else 0) + mag)

/-- The value of a finite magnitude pattern in units of 2^-149: the fraction alone when the exponent
field is 0, the fraction with its hidden bit scaled by the exponent otherwise. -/
def magUnits (mag : Nat) : Nat :=
  if mag / 2 ^ 23 = 0 then mag % 2 ^ 23
  else (2 ^ 23 + mag % 2 ^ 23) * 2 ^ (mag / 2 ^ 23 - 1)

/-- The exact value of a finite binary32, in units of 2^-149. -/
def units (x : F32) : Int :=
  if sign x then -(magUnits (magnitude x) : Int) else (magUnits (magnitude x) : Int)

/-- `num / den` rounded to the nearest integer, ties to the even one. -/
def nearestEven (num den : Nat) : Nat :=
  if den < 2 * (num % den) ∨ (2 * (num % den) = den ∧ num / den % 2 = 1) then num / den + 1
  else num / den

/-- The magnitude pattern nearest to `num / den` units of 2^-149, ties to even. Up to 2^24 units the
pattern counts units; above, one more exponent step for every doubling, so a carry out of the fraction
runs into the exponent by itself. Past the largest finite value the result is infinity. -/
def roundMag (num den : Nat) : Nat :=
  min ((Nat.log2 (num / den) - 23) * 2 ^ 23
      + nearestEven num (den * 2 ^ (Nat.log2 (num / den) - 23))) 0x7F800000

/-- The operand and result rule of `DENORMAL_MODE` (R25). The result test is on the rounded value
(log entry 11). -/
def flush (m : DenormalMode) (x : F32) : F32 :=
  match m with
  | .ieee => x
  | .ftz => if magnitude x < 2 ^ 23 then withSign (sign x) 0 else x

/-- The sum of two patterns, subnormals kept. -/
def addKept (a b : F32) : F32 :=
  if isNaN a || isNaN b then canonicalNaN
  else if isInf a then (if isInf b && (sign a != sign b) then canonicalNaN else a)
  else if isInf b then b
  else if units a + units b = 0 then withSign (sign a && sign b) 0
  else withSign (decide (units a + units b < 0)) (roundMag (units a + units b).natAbs 1)

/-- The product of two patterns, subnormals kept. -/
def mulKept (a b : F32) : F32 :=
  if isNaN a || isNaN b then canonicalNaN
  else if (isInf a && isZero b) || (isZero a && isInf b) then canonicalNaN
  else if isInf a || isInf b then withSign (sign a != sign b) 0x7F800000
  else withSign (sign a != sign b)
    (roundMag (magUnits (magnitude a) * magUnits (magnitude b)) (2 ^ 149))

/-- The quotient of two patterns, subnormals kept. -/
def divKept (a b : F32) : F32 :=
  if isNaN a || isNaN b then canonicalNaN
  else if (isInf a && isInf b) || (isZero a && isZero b) then canonicalNaN
  else if isInf a || isZero b then withSign (sign a != sign b) 0x7F800000
  else if isInf b then withSign (sign a != sign b) 0
  else withSign (sign a != sign b)
    (roundMag (magUnits (magnitude a) * 2 ^ 149) (magUnits (magnitude b)))

/-- The pattern with its sign bit turned over. -/
def negate (x : F32) : F32 := x ^^^ 0x80000000

/-- `a +f b` (R18). -/
def add (m : DenormalMode) (a b : F32) : F32 := flush m (addKept (flush m a) (flush m b))

/-- `a -f b` (R18): the sum with the negated second operand. -/
def sub (m : DenormalMode) (a b : F32) : F32 := add m a (negate b)

/-- `a *f b` (R18). -/
def mul (m : DenormalMode) (a b : F32) : F32 := flush m (mulKept (flush m a) (flush m b))

/-- `a /f b` (R18). No micro-operation divides; the limiter curve of an implementation may. -/
def div (m : DenormalMode) (a b : F32) : F32 := flush m (divKept (flush m a) (flush m b))

/-- `f32(n)` (R18): an integer rounded to the nearest binary32. -/
def ofInt (n : Int) : F32 := withSign (decide (n < 0)) (roundMag (n.natAbs * 2 ^ 149) 1)

/-- `trunc(x)` of a finite x (R18): the integer next to it toward zero. -/
def truncFinite (x : F32) : Int := Int.tdiv (units x) (2 ^ 149)

/-- The place of a value that is not NaN in the order of the binary32 values; both zeros are at 0. -/
def orderKey (x : F32) : Int := if sign x then -(magnitude x : Int) else (magnitude x : Int)

/-- `a < b` (R29): false when either is a NaN. Subnormal operands are operands too (R25, log entry 11). -/
def lt (m : DenormalMode) (a b : F32) : Bool :=
  !isNaN a && !isNaN b && decide (orderKey (flush m a) < orderKey (flush m b))

/-- `fabs(x)` (R18, R29): clears the sign bit and nothing else. -/
def fabs (x : F32) : F32 := x &&& 0x7FFFFFFF

/-- `copysign(m, s)` (R18, R29): `m` with the sign bit of `s`. -/
def copysign (m s : F32) : F32 := (m &&& 0x7FFFFFFF) ||| (s &&& 0x80000000)

/-- The limiter threshold `(LIM_KNEE -f 1.0f) +f LIM_C` (R191). -/
def limitThreshold (m : DenormalMode) (knee ceiling : F32) : F32 := add m (sub m knee one) ceiling

end Sys2Proof.Binary32
end

