-- ==== Sys2Proof/Config.lean ====
section
/-! DEFINITION. What an implementation of the block fixes and the spec leaves open (00_scope.md R12),
the constraints a configuration meets (70_reset_and_hazards.md R281), and the one configuration the machine
has, of which nothing is known but that it meets them (log entry 1). -/

namespace Sys2Proof

/-- The binary32 values in [0, 1] that a parameter register can hold: the patterns from +0.0 to 1.0 (R36 to R38). -/
abbrev InUnit (t : F32) : Prop := t.toNat ≤ 0x3F800000

/-- The parameters of R12, the initial contents of the buffer memory (R279) and, last, the model's three free
values. -/
structure Config where
  /-- `TIMER_RES`, the phase modulus of the LFO. -/
  timerRes : Nat
  /-- `SAMPLE_RATE`, read only inside `PERIOD_FN`. -/
  sampleRate : Nat
  /-- `PERIOD_FN`, of the sample rate and of `time` (R138). -/
  periodFn : Nat → F32 → Nat
  /-- `LFO_THRESHOLD`. -/
  lfoThreshold : Q16
  /-- `LFO_AUX0`, coded as a natural number (log entry 2). -/
  lfoAux0 : Nat
  /-- `LFO_SHAPE`, of the hidden state, the phase and the threshold (R140). -/
  lfoShape : Nat → Nat → Q16 → Nat × Q16 × Q16
  /-- `SAT_TABLE`; the entries 0 to 1024 are the table (R121). -/
  satTable : Nat → BitVec 16
  /-- `SH_SHIFT` (R159). -/
  shShift : Int
  /-- `LIM_C`. -/
  limC : F32
  /-- `LIM_KNEE`. -/
  limKnee : F32
  /-- `SOFTCLIP` (R190). -/
  softclip : F32 → F32
  /-- `MAX_FRAMES` less one, so that a region has at least one frame by its form. -/
  maxFramesLessOne : Nat
  /-- `DENORMAL_MODE` (R25). -/
  denormalMode : DenormalMode
  /-- The initial contents of the buffer memory, byte by byte: any value, the model's argument (R279, log entry 5). -/
  initialByte : Nat → Byte
  /-- FREE VALUE: what `trunc` gives on an infinity or a NaN, where R18 defines nothing (log entry 9). -/
  freeTrunc : F32 → Int
  /-- FREE VALUE: the increment, less one, for a `time` outside [0, 1] where the quotient of R137 has no value or is
  0 (log entry 10). -/
  freeIncLessOne : F32 → Word
  /-- FREE VALUE: what the 32 bits of the register window show of an increment of 2^32 (log entry 10). -/
  wideIncWord : Word

namespace Config

/-- `MAX_FRAMES`. -/
def maxFrames (c : Config) : Nat := c.maxFramesLessOne + 1

/-- `PERIOD_FN(time)` at the configuration's sample rate. -/
def period (c : Config) (time : F32) : Nat := c.periodFn c.sampleRate time

/-- The limiter threshold `th` of R191. -/
def limTh (c : Config) : F32 := Binary32.limitThreshold c.denormalMode c.limKnee c.limC

/-- The constraints of R281, one field for each, and last the bound of R39 on a free value. A configuration that
breaks one of R281 is refused before any step: no block is built from it. -/
structure Valid (c : Config) : Prop where
  timerRes_range : 2 ≤ c.timerRes ∧ c.timerRes ≤ 2 ^ 32
  period_range : ∀ t, InUnit t → 1 ≤ c.period t ∧ c.period t ≤ c.timerRes
  period_mono : ∀ t t', InUnit t' → t.toNat ≤ t'.toNat → c.period t ≤ c.period t'
  shape_range : ∀ aux phase thr, phase < c.timerRes →
    (c.lfoShape aux phase thr).2.1.toNat < 65536 ∧ (c.lfoShape aux phase thr).2.2.toNat < 65536
  table_first : c.satTable 0 = 0
  table_last : c.satTable 1024 = 16384
  table_mono : ∀ i, i < 1024 → (c.satTable i).toInt ≤ (c.satTable (i + 1)).toInt
  shift_range : -16 ≤ c.shShift ∧ c.shShift ≤ 15
  ceiling_range : Binary32.isFinite c.limC = true ∧ 0 ≤ Binary32.units c.limC ∧
    Binary32.units c.limC < Binary32.units Binary32.one
  knee_finite : Binary32.isFinite c.limKnee = true
  threshold_pos : 0 < Binary32.units c.limTh
  softclip_zero : c.softclip 0 = 0
  softclip_mono : ∀ e e', e'.toNat ≤ 0x7F800000 → e.toNat ≤ e'.toNat →
    Binary32.units (c.softclip e) ≤ Binary32.units (c.softclip e')
  softclip_odd : ∀ e, Binary32.isNaN e = false →
    Binary32.units (c.softclip (Binary32.negate e)) = -Binary32.units (c.softclip e)
  softclip_range : ∀ e, e.toNat ≤ 0x7F800000 → Binary32.isFinite (c.softclip e) = true ∧
    0 ≤ Binary32.units (c.softclip e) ∧
    Binary32.units (c.softclip e) ≤ Binary32.units c.limKnee - Binary32.units c.limTh
  maxFrames_range : 1 ≤ c.maxFrames ∧ c.maxFrames ≤ 65535
  wideIncWord_pos : 1 ≤ c.wideIncWord.toNat

/-- A configuration whose only use is to show that the constraints can be met together. -/
def sample : Config where
  timerRes := 2
  sampleRate := 0
  periodFn := fun _ _ => 1
  lfoThreshold := 0
  lfoAux0 := 0
  lfoShape := fun aux _ _ => (aux, 0, 0)
  satTable := fun i => if i < 1024 then 0 else 16384
  shShift := 0
  limC := 0
  limKnee := 0x40000000
  softclip := fun _ => 0
  maxFramesLessOne := 0
  denormalMode := .ieee
  initialByte := fun _ => 0
  freeTrunc := fun _ => 0
  freeIncLessOne := fun _ => 0
  wideIncWord := 1

/-- The constraints can be met together. -/
theorem sample_valid : sample.Valid where
  timerRes_range := by decide
  period_range := fun _ _ => ⟨Nat.le_refl 1, by show (1 : Nat) ≤ 2; decide⟩
  period_mono := fun _ _ _ _ => Nat.le_refl 1
  shape_range := fun _ _ _ _ => ⟨by show (0 : Nat) < 65536; decide, by show (0 : Nat) < 65536; decide⟩
  table_first := by decide
  table_last := by decide
  table_mono := fun i h => by
    have h0 : sample.satTable i = 0 := if_pos h
    by_cases h1 : i + 1 < 1024
    · have : sample.satTable (i + 1) = 0 := if_pos h1
      rw [h0, this]
    · have : sample.satTable (i + 1) = 16384 := if_neg h1
      rw [h0, this]
      decide
  shift_range := by decide
  ceiling_range := by decide
  knee_finite := by decide
  threshold_pos := by decide
  softclip_zero := rfl
  softclip_mono := fun _ _ _ _ => Int.le_refl _
  softclip_odd := fun _ _ => by show Binary32.units 0 = -Binary32.units 0; decide
  softclip_range := fun _ _ => by
    show Binary32.isFinite 0 = true ∧ 0 ≤ Binary32.units 0 ∧
      Binary32.units 0 ≤ Binary32.units sample.limKnee - Binary32.units sample.limTh
    decide
  maxFrames_range := by decide
  wideIncWord_pos := by decide

end Config

/-- A configuration together with the proof that it meets R281. -/
structure Implementation where
  params : Config := Config.sample
  valid : params.Valid := by exact Config.sample_valid
  deriving Inhabited

/-- The implementation the machine runs on. It has no body: a claim about the machine holds for every
configuration that meets R281 (log entry 1). -/
opaque implementation : Implementation

/-- The machine's configuration. -/
def Config.impl : Config := implementation.params

/-- All that is known of it. -/
theorem Config.impl_valid : Config.impl.Valid := implementation.valid

end Sys2Proof
end

