-- ==== Sys2Proof/Machine/Fixed.lean ====
section
/-! DEFINITION. The integer primitives of R17, the Q16.16 constants of the shaper, and the increment of the LFO. -/

namespace Sys2Proof.Machine

/-- `asr(v, k)`: floor(v / 2^k) (R17). -/
def asr (v : Int) (k : Nat) : Int := v / (2 : Int) ^ k

/-- `shl(v, k)`: v × 2^k (R17). -/
def shl (v : Int) (k : Nat) : Int := v * (2 : Int) ^ k

/-- `sat32(v)`: v held within the signed 32-bit range (R17). -/
def sat32 (v : Int) : Int := max (-2147483648) (min 2147483647 v)

/-- `SH_BIAS`, 0.02 in Q16.16 rounded to nearest (R11, R157). -/
def shBias : Int := 1311

/-- `SH_CENTER`, 0.25 in Q16.16 (R11, R157). -/
def shCenter : Int := 16384

/-- `LOOKUP_OFFSET`, 2.0 in Q16.16 (R11, R157). -/
def lookupOffset : Int := 0x20000

/-- `LOOKUP_SPAN`, the width of the lookup domain in sub-units (R10). -/
def lookupSpan : Int := 262144

/-- The increment of BLK_SETUP, LOAD and reset, `TIMER_RES div PERIOD_FN(time)` (R137, R222, R53), less one: the
form in which State holds it. For a `time` in [0, 1] the quotient is in 1..2^32. Outside it can be 0 or have no
value; the increment is then free (log entry 10). -/
def lfoIncrementLessOne (c : Config) (time : F32) : Word :=
  let quotient := c.timerRes / c.period time
  if quotient = 0 then c.freeIncLessOne time else BitVec.ofNat 32 (quotient - 1)

end Sys2Proof.Machine
end

