-- ==== Sys2Proof/Machine/State.lean ====
section
/-! DEFINITION. The state of the block (10_state.md R31), its buffer memory (20_memory.md R61), the host's
input, the ways a step can stop, and the state after reset (10_state.md R53). -/

namespace Sys2Proof.Machine

/-- The buffer memory as the byte array of R64: the bytes that differ from what they held at power-on, by rising
address. -/
abbrev Memory := List Host.Cell

/-- What a byte of buffer memory reads as that is not listed: its initial contents, an argument of the model
(R279, log entry 5). -/
def blankByte (c : Config) (a : Nat) : Byte := c.initialByte a

/-- The canonical form from an address on: addresses strictly rising, no byte listed that reads so unlisted. -/
def Memory.wfFrom (c : Config) (lo : Nat) : Memory → Bool
  | [] => true
  | (a, b) :: rest => decide (lo ≤ a) && decide (b ≠ blankByte c a) && Memory.wfFrom c (a + 1) rest

/-- The canonical form of a memory, for a given configuration. -/
def Memory.wfWith (c : Config) (m : Memory) : Bool := Memory.wfFrom c 0 m

/-- The canonical form of a memory. -/
abbrev Memory.wf (m : Memory) : Bool := Memory.wfWith Config.impl m

/-- The four regions of the buffer memory (R61). -/
inductive Region where
  | mainIn
  | mainOut
  | subIn
  | subOut
  deriving DecidableEq, Repr

/-- One thing that happens to the block: an action of the host or of the platform, or the sequencer's
turn between them (R28, R105, R297; log entry 3). -/
inductive HostAction where
  /-- The sequencer takes its turn before the next action. -/
  | sequencer
  /-- The host writes a transaction to the command port (R91, R221). -/
  | command (cw dw : Word)
  /-- The host writes word `k` of a buffer region (`HW` of R105). -/
  | bufferWrite (region : Region) (k : Nat) (v : Word)
  /-- The host writes to the register window, which ignores it (R50). -/
  | windowWrite (offset : Nat) (v : Word)
  /-- The platform asserts hardware reset (R276). -/
  | hardReset
  /-- The host polls STATUS until BUSY = 0 (`WAIT` of R105). -/
  | wait
  deriving DecidableEq, Repr

/-- Every register of 10_state.md, the buffer memory of 20_memory.md, and what the host does next. -/
structure State where
  /-- `z1[0..8]`, the delay memory of the cascade (R33). -/
  z1 : Vector F32 9
  /-- `out[0..8]`, the stage output cache (R34). -/
  out : Vector F32 9
  /-- `time` (R36). -/
  time : F32
  /-- `depth` (R37). -/
  depth : F32
  /-- `gain` (R38). -/
  gain : F32
  /-- `lfo_inc`, less one: 32 bits (R39) that hold every quotient of R137, 1 to 2^32. Its value is `State.lfoInc`
  (log entry 10). -/
  lfoIncLessOne : Word
  /-- `lfo_threshold` (R40). -/
  lfoThreshold : Q16
  /-- `lfo_phase`, unsigned (R41). -/
  lfoPhase : Word
  /-- `lfo_aux`, the waveform generator's hidden state, coded as a natural number (R42, log entry 2). -/
  lfoAux : Nat
  /-- `lfo_primary` (R43). -/
  lfoPrimary : Q16
  /-- `lfo_secondary` (R44). -/
  lfoSecondary : Q16
  /-- The latch `x_in` (R45). -/
  xIn : F32
  /-- The latch `u_q`, signed (R45). -/
  uQ : Word
  /-- The latch `L_q`, Q16.16 (R45). -/
  lQ : Q16
  /-- The latch `b0` (R45). -/
  b0 : F32
  /-- The latch `y` (R45). -/
  y : F32
  /-- `seq`, the code of the next micro-operation; also `STATUS.SEQ` (R46, R48). -/
  seq : BitVec 4
  /-- `n`, the index of the current frame (R47). -/
  n : BitVec 16
  /-- `nfr`, the frame count of the block (R47). -/
  nfr : BitVec 16
  /-- `k`, the index of the next STAGE (R47). -/
  k : BitVec 4
  /-- `STATUS.BUSY` (R48). -/
  busy : Bool
  /-- `STATUS.FAULTED` (R48). -/
  faulted : Bool
  /-- `STATUS.FCODE` (R48). -/
  fcode : BitVec 4
  /-- `FAULT_INFO` (R49). -/
  faultInfo : Word
  /-- The buffer memory (R61). -/
  mem : Memory
  /-- The model's own field: what happens next, oldest first (log entry 3). -/
  host : List HostAction
  deriving DecidableEq, Repr

/-- The ways a step stops. The block's own four faults are no such stops: they are entries into the halted
state, which the machine goes on from (R253, R254). -/
inductive Fault where
  /-- Raised by the sequencer's turn on a code 0xD..0xF in `seq`, which has no step ("stuck", R99, I14). Safe:
  no reachable state holds one. -/
  | reservedSeqCode
  /-- Raised by IN_READ, OUT_WRITE and a host write on a word index outside `0 .. 2 * MAX_FRAMES - 1`, where no
  word exists (R61, R68). Safe: the machine stops, and no reachable micro-operation does it (log entry 6). -/
  | noSuchWord
  /-- Raised by STAGE when `k` is not in 1..8, so that `z1[k]` or `out[k-1]` does not exist (R47, R174). Safe: the
  machine stops, and no reachable state does it (log entry 7). -/
  | noSuchCell
  deriving DecidableEq, Repr

/-- The refusals. -/
inductive Refusal where
  /-- Raised by an arm of `exec` for an instruction without a meaning; safe. No arm raises it. -/
  | notModelled (mnemonic : String)
  deriving DecidableEq, Repr

/-- What a step answers. -/
abbrev Result := Host.Outcome State Fault Refusal

/-- Every register at its reset value (R53) for a given configuration, the buffer memory as it was at
power-on, and nothing to come. -/
def State.resetWith (c : Config) : State where
  z1 := Vector.replicate 9 0
  out := Vector.replicate 9 0
  time := 0x3E800000
  depth := 0x3F000000
  gain := 0
  lfoIncLessOne := lfoIncrementLessOne c 0x3E800000
  lfoThreshold := c.lfoThreshold
  lfoPhase := 0
  lfoAux := c.lfoAux0
  lfoPrimary := 0
  lfoSecondary := 0
  xIn := 0
  uQ := 0
  lQ := 0
  b0 := 0
  y := 0
  seq := 0
  n := 0
  nfr := 0
  k := 0
  busy := false
  faulted := false
  fcode := 0
  faultInfo := 0
  mem := []
  host := []

/-- The machine right after hardware reset (R53, R276). -/
def State.reset : State := State.resetWith Config.impl

end Sys2Proof.Machine
end

