-- ==== Sys2Proof/Machine/Ops.lean ====
section
/-! DEFINITION. The named operations on registers and memory, raising one of the block's faults, and the
acceptance checks of the command port. -/

namespace Sys2Proof.Machine

/-! ## Registers -/

/-- `lfo_inc`, from the form in which State holds it: 1 to 2^32 (R39, log entry 10). -/
def State.lfoInc (s : State) : Nat := s.lfoIncLessOne.toNat + 1

/-! ## Memory -/

/-- The byte at an address, for a given configuration. -/
def Memory.readWith (c : Config) (m : Memory) (a : Nat) : Byte :=
  match m with
  | [] => blankByte c a
  | (a', b) :: rest => if a = a' then b else Memory.readWith c rest a

/-- The byte at an address. -/
abbrev Memory.read (m : Memory) (a : Nat) : Byte := Memory.readWith Config.impl m a

/-- Writes one byte, keeping the canonical form: a byte that reads so unlisted is not listed. -/
def Memory.writeWith (c : Config) (m : Memory) (a : Nat) (b : Byte) : Memory :=
  match m with
  | [] => if b = blankByte c a then [] else [(a, b)]
  | (a', b') :: rest =>
    if a < a' then (if b = blankByte c a then (a', b') :: rest else (a, b) :: (a', b') :: rest)
    else if a = a' then (if b = blankByte c a then rest else (a, b) :: rest)
    else (a', b') :: Memory.writeWith c rest a b

/-- The word at a byte address, least significant byte lowest (R65). -/
def Memory.readWord (c : Config) (m : Memory) (a : Nat) : Word :=
  Memory.readWith c m (a + 3) ++ Memory.readWith c m (a + 2) ++ Memory.readWith c m (a + 1) ++ Memory.readWith c m a

/-- Writes a word at a byte address, least significant byte lowest (R65). -/
def Memory.writeWord (c : Config) (m : Memory) (a : Nat) (v : Word) : Memory :=
  Memory.writeWith c
    (Memory.writeWith c
      (Memory.writeWith c
        (Memory.writeWith c m a (v.extractLsb' 0 8))
        (a + 1) (v.extractLsb' 8 8))
      (a + 2) (v.extractLsb' 16 8))
    (a + 3) (v.extractLsb' 24 8)

/-- The byte offset of a region (R64). -/
def regionBase (c : Config) : Region → Nat
  | .mainIn => 0
  | .mainOut => 8 * c.maxFrames
  | .subIn => 16 * c.maxFrames
  | .subOut => 24 * c.maxFrames

/-- The byte address of word `k` of a region (R64). -/
def wordAddr (c : Config) (r : Region) (k : Nat) : Nat := regionBase c r + 4 * k

/-- The word indices that exist in a region (R61). -/
abbrev WordExists (c : Config) (k : Nat) : Prop := k < 2 * c.maxFrames

/-- The word at an index of a region that exists (`MemRead`, R19). -/
def bufferWord (c : Config) (s : State) (r : Region) (k : Nat) : Word :=
  Memory.readWord c s.mem (wordAddr c r k)

/-- The memory with a word of a region written (`MemWrite`, R19). -/
def storeWord (c : Config) (m : Memory) (r : Region) (k : Nat) (v : Word) : Memory :=
  Memory.writeWord c m (wordAddr c r k) v

/-- What the host reads of a buffer word (`HR` of R105); none where there is no such word. -/
def hostReadWith (c : Config) (s : State) (r : Region) (k : Nat) : Option Word :=
  if WordExists c k then some (bufferWord c s r k) else none

/-- What the host reads of a buffer word. -/
def hostRead (s : State) (r : Region) (k : Nat) : Option Word := hostReadWith Config.impl s r k

/-- The host's byte view of the buffer memory (R64): `32 * MAX_FRAMES` bytes. -/
def hostReadByte (s : State) (a : Nat) : Option Byte :=
  if a < 32 * Config.impl.maxFrames then some (Memory.read s.mem a) else none

/-! ## The block's faults: taking one, and the one way out (60_exceptions.md) -/

/-- The four faults of R247. -/
inductive BlockFault where
  | illegalCmd
  | busyViolation
  | framesTooLarge
  | nonfiniteInput
  deriving DecidableEq, Repr

/-- `FCODE` of a fault (R247). -/
def faultCode : BlockFault → BitVec 4
  | .illegalCmd => 0x1
  | .busyViolation => 0x2
  | .framesTooLarge => 0x3
  | .nonfiniteInput => 0x4

/-- Fault entry (R253): the fault is recorded, the sequencer is idle, the block is not busy, and nothing
else changes. -/
def raiseFault (f : BlockFault) (info : Word) (s : State) : State :=
  { s with
    faulted := true
    fcode := faultCode f
    faultInfo := info
    seq := idleCode
    busy := false }

/-- Hardware reset (R276): every register to its reset value; the buffer memory is not changed. It is the
only return from a fault (R255). What the host does next is not the block's to reset. -/
def hardResetWith (c : Config) (s : State) : State :=
  { State.resetWith c with
    mem := s.mem
    host := s.host }

/-! ## Registers written together -/

/-- What LOAD writes (R222): every register but STATUS and FAULT_INFO, at its reset value. -/
def loadRegisters (c : Config) (s : State) : State :=
  { State.resetWith c with
    busy := s.busy
    faulted := s.faulted
    fcode := s.fcode
    faultInfo := s.faultInfo
    mem := s.mem
    host := s.host }

/-- What RESUME writes (R225): the cells and the gain. -/
def clearFilter (s : State) : State :=
  { s with
    z1 := Vector.replicate 9 0
    out := Vector.replicate 9 0
    gain := 0 }

/-- What an accepted PROC writes (R223). -/
def startBlock (nfr : Nat) (s : State) : State :=
  { s with
    nfr := BitVec.ofNat 16 nfr
    n := 0
    busy := true
    seq := seqCode .blkSetup }

/-- The end of a block (R101, R205): `seq <- IDLE; STATUS.BUSY <- 0`. -/
def endBlock (s : State) : State :=
  { s with
    seq := idleCode
    busy := false }

/-! ## The command port's checks (R252) -/

/-- A legal command's checks in the order of R252: ignored while the block is halted (R254); a busy
violation, with the command word as its information, while a block runs, for the commands that need an
idle block (R249); otherwise the command acts. -/
def acceptCommand (cw : Word) (needsIdle : Bool) (s : State) (act : State → State) : Result :=
  if s.faulted then .next s
  else if needsIdle && s.busy then .next (raiseFault .busyViolation cw s)
  else .next (act s)

end Sys2Proof.Machine
end

