-- ==== Sys2Proof/Machine/Operands.lean ====
section
/-! DEFINITION. How an operand is read: a table entry, a parameter register as a fixed-point number, the data word
of SETP as a float. -/

namespace Sys2Proof.Machine

/-- `TableRead(i)` for i in 0..1024: a signed 16-bit integer (R19, R69). -/
def tableRead (c : Config) (i : Nat) : Int := (c.satTable i).toInt

/-- `trunc(x)`: R18 defines it on finite values; on the others it is a free value (log entry 9). -/
def truncate (c : Config) (x : F32) : Int :=
  if Binary32.isFinite x then Binary32.truncFinite x else c.freeTrunc x

/-- `depth` in Q16.16: `trunc(depth *f 65536.0f)` (R158). -/
def depthFixed (c : Config) (depth : F32) : Int :=
  truncate c (Binary32.mul c.denormalMode depth 0x47800000)

/-- `q31_to_f32(value)`: `f32(value) *f 2^-31` (R226). -/
def q31ToF32 (m : DenormalMode) (value : Int) : F32 :=
  Binary32.mul m (Binary32.ofInt value) 0x30000000

/-- `clip01(v)` (R227). -/
def clip01 (m : DenormalMode) (v : F32) : F32 :=
  if Binary32.lt m v 0 then 0
  else if Binary32.lt m Binary32.one v then Binary32.one
  else v

/-- The value SETP stores (R224). -/
def paramValue (m : DenormalMode) (value : Int) : F32 := clip01 m (q31ToF32 m value)

/-- `PARAM_TIME` (R11). -/
def paramTime : Nat := 0

/-- `PARAM_DEPTH` (R11). -/
def paramDepth : Nat := 1

end Sys2Proof.Machine
end

