-- ==== Sys2Proof/Machine/Cascade.lean ====
section
/-! DEFINITION. The all-pass cascade: MIX and STAGE (44_allpass_cascade.md). -/

namespace Sys2Proof.Machine

/-- `wet = 0.75f *f depth` (R172). -/
def wetWeight (m : DenormalMode) (depth : F32) : F32 := Binary32.mul m 0x3F400000 depth

/-- `dry = 1.0f -f wet` (R172). -/
def dryWeight (m : DenormalMode) (depth : F32) : F32 :=
  Binary32.sub m Binary32.one (wetWeight m depth)

/-- `out[0]` (R172): `((x_in *f gain) *f dry) +f (out[8] *f wet)`. -/
def mixValue (m : DenormalMode) (x gain depth tap : F32) : F32 :=
  Binary32.add m
    (Binary32.mul m (Binary32.mul m x gain) (dryWeight m depth))
    (Binary32.mul m tap (wetWeight m depth))

/-- MIX (R172). -/
def mixWith (c : Config) (s : State) : Result :=
  .next { s with
    out := s.out.set 0 (mixValue c.denormalMode s.xIn s.gain s.depth s.out[8])
    k := 8
    seq := seqCode .stage }

/-- MIX on the machine's configuration. -/
def execMix (s : State) : Result := mixWith Config.impl s

/-- The intermediate value of a stage (R174): `w -f (b0 *f z)`. -/
def stageState (m : DenormalMode) (b0 w z : F32) : F32 := Binary32.sub m w (Binary32.mul m b0 z)

/-- The output of a stage (R174): `(b0 *f v) +f z`, with the old `z`. -/
def stageOut (m : DenormalMode) (b0 w z : F32) : F32 :=
  Binary32.add m (Binary32.mul m b0 (stageState m b0 w z)) z

/-- STAGE (R174): both cells of index `k` at once, then the next lower stage, or LIMIT after stage 1. -/
def stageWith (c : Config) (s : State) : Result :=
  if h : 1 ≤ s.k.toNat ∧ s.k.toNat ≤ 8 then
    .next { s with
      out := s.out.set s.k.toNat
        (stageOut c.denormalMode s.b0 s.out[s.k.toNat - 1] s.z1[s.k.toNat])
      z1 := s.z1.set s.k.toNat
        (stageState c.denormalMode s.b0 s.out[s.k.toNat - 1] s.z1[s.k.toNat])
      k := if 1 < s.k.toNat then s.k - 1 else s.k
      seq := if 1 < s.k.toNat then seqCode .stage else seqCode .limit }
  else .fault .noSuchCell

/-- STAGE on the machine's configuration. -/
def execStage (s : State) : Result := stageWith Config.impl s

end Sys2Proof.Machine
end

