-- ==== Sys2Proof/Machine/Commands.lean ====
section
/-! DEFINITION. The host commands: LOAD, PROC, SETP and RESUME (47_host_commands.md). Each is ignored while the
block is halted (R229, R254); all but SETP need an idle block (R221, R249). -/

namespace Sys2Proof.Machine

/-- LOAD (R222). -/
def loadWith (c : Config) (s : State) : Result :=
  acceptCommand (commandWord .load) true s (loadRegisters c)

/-- LOAD on the machine's configuration. -/
def execLoad (s : State) : Result := loadWith Config.impl s

/-- PROC (R223): a block of more than `MAX_FRAMES` frames is the fault FRAMES_TOO_LARGE (R250). -/
def procWith (c : Config) (nfr : Nat) (s : State) : Result :=
  acceptCommand (commandWord (.proc nfr)) true s fun s =>
    if c.maxFrames < nfr then raiseFault .framesTooLarge (commandWord (.proc nfr)) s
    else startBlock nfr s

/-- PROC on the machine's configuration. -/
def execProc (nfr : Nat) (s : State) : Result := procWith Config.impl nfr s

/-- What SETP writes (R224): `time` for index 0, `depth` for index 1, nothing for another (R228). -/
def setParam (c : Config) (idx : Nat) (value : Int) (s : State) : State :=
  if idx = paramTime then { s with time := paramValue c.denormalMode value }
  else if idx = paramDepth then { s with depth := paramValue c.denormalMode value }
  else s

/-- SETP (R224), accepted during a block too (R230). -/
def setpWith (c : Config) (idx : Nat) (value : Int) (s : State) : Result :=
  acceptCommand (commandWord (.setp idx value)) false s (setParam c idx value)

/-- SETP on the machine's configuration. -/
def execSetp (idx : Nat) (value : Int) (s : State) : Result := setpWith Config.impl idx value s

/-- RESUME (R225). -/
def execResume (s : State) : Result := acceptCommand (commandWord .resume) true s clearFilter

end Sys2Proof.Machine
end

