-- ==== Sys2Proof/Machine/Conditioner.lean ====
section
/-! DEFINITION. The output conditioner: LIMIT and GAIN_STEP (45_conditioner.md). -/

namespace Sys2Proof.Machine

/-- The soft limiter (R192): below the threshold the value itself, sign and all; from it on the threshold
plus the soft-clipped excess, with the sign of the value. -/
def limitValue (c : Config) (x : F32) : F32 :=
  if Binary32.lt c.denormalMode (Binary32.fabs x) c.limTh then x
  else
    Binary32.copysign
      (Binary32.add c.denormalMode c.limTh
        (c.softclip (Binary32.sub c.denormalMode (Binary32.fabs x) c.limTh)))
      x

/-- LIMIT (R192), on the audible tap `out[1]` (R176). -/
def limitWith (c : Config) (s : State) : Result :=
  .next { s with
    y := limitValue c s.out[1]
    seq := seqCode .outWrite }

/-- LIMIT on the machine's configuration. -/
def execLimit (s : State) : Result := limitWith Config.impl s

/-- `gain +f ((1.0f -f gain) *f 0.0625f)` (R193). -/
def rampedGain (m : DenormalMode) (gain : F32) : F32 :=
  Binary32.add m gain (Binary32.mul m (Binary32.sub m Binary32.one gain) 0x3D800000)

/-- The gain after one sample (R193): it snaps to 1.0 once it is strictly above 0.99998f. -/
def nextGain (m : DenormalMode) (gain : F32) : F32 :=
  if Binary32.lt m 0x3F7FFEB0 (rampedGain m gain) then Binary32.one else rampedGain m gain

/-- GAIN_STEP (R193). -/
def gainStepWith (c : Config) (s : State) : Result :=
  .next { s with
    gain := nextGain c.denormalMode s.gain
    seq := seqCode .next }

/-- GAIN_STEP on the machine's configuration. -/
def execGainStep (s : State) : Result := gainStepWith Config.impl s

end Sys2Proof.Machine
end

