-- ==== Sys2Proof/Machine/Lfo.lean ====
section
/-! DEFINITION. The LFO phase accumulator: BLK_SETUP and LFO_STEP (42_lfo.md). -/

namespace Sys2Proof.Machine

/-- BLK_SETUP (R137): the increment of the block, and its first frame if it has one. -/
def blkSetupWith (c : Config) (s : State) : Result :=
  if 0 < s.nfr.toNat then
    .next { s with
      lfoIncLessOne := lfoIncrementLessOne c s.time
      seq := seqCode .inRead }
  else .next (endBlock { s with lfoIncLessOne := lfoIncrementLessOne c s.time })

/-- BLK_SETUP on the machine's configuration. -/
def execBlkSetup (s : State) : Result := blkSetupWith Config.impl s

/-- The phase after one sample: the sum is exact, then reduced modulo `TIMER_RES` (R139). -/
def nextPhase (c : Config) (s : State) : Nat := (s.lfoPhase.toNat + s.lfoInc) % c.timerRes

/-- LFO_STEP (R139): the waveform generator sees the phase after the add. -/
def lfoStepWith (c : Config) (s : State) : Result :=
  .next { s with
    lfoPhase := BitVec.ofNat 32 (nextPhase c s)
    lfoAux := (c.lfoShape s.lfoAux (nextPhase c s) s.lfoThreshold).1
    lfoPrimary := (c.lfoShape s.lfoAux (nextPhase c s) s.lfoThreshold).2.1
    lfoSecondary := (c.lfoShape s.lfoAux (nextPhase c s) s.lfoThreshold).2.2
    seq := seqCode .shapePre }

/-- LFO_STEP on the machine's configuration. -/
def execLfoStep (s : State) : Result := lfoStepWith Config.impl s

end Sys2Proof.Machine
end

