-- ==== Sys2Proof/Machine/Pipeline.lean ====
section
/-! DEFINITION. The pipeline controller: IN_READ, OUT_WRITE and NEXT (46_pipeline.md). -/

namespace Sys2Proof.Machine

/-- What IN_READ does with its word (R203): a finite one is the input sample, another is the fault
NONFINITE_INPUT with the frame's index. -/
def takeSample (w : Word) (s : State) : State :=
  if Binary32.isFinite w then
    { s with
      xIn := w
      seq := seqCode .lfoStep }
  else raiseFault .nonfiniteInput (s.n.zeroExtend 32) s

/-- IN_READ (R203): the primary input word of frame `n`. -/
def inReadWith (c : Config) (s : State) : Result :=
  if WordExists c (2 * s.n.toNat) then .next (takeSample (bufferWord c s .mainIn (2 * s.n.toNat)) s)
  else .fault .noSuchWord

/-- IN_READ on the machine's configuration. -/
def execInRead (s : State) : Result := inReadWith Config.impl s

/-- The memory with one sample on all four output channels of a frame (R204). -/
def storeFrame (c : Config) (m : Memory) (frame : Nat) (v : F32) : Memory :=
  storeWord c
    (storeWord c
      (storeWord c
        (storeWord c m .mainOut (2 * frame) v)
        .mainOut (2 * frame + 1) v)
      .subOut (2 * frame) v)
    .subOut (2 * frame + 1) v

/-- OUT_WRITE (R204). -/
def outWriteWith (c : Config) (s : State) : Result :=
  if WordExists c (2 * s.n.toNat + 1) then
    .next { s with
      mem := storeFrame c s.mem s.n.toNat s.y
      seq := seqCode .gainStep }
  else .fault .noSuchWord

/-- OUT_WRITE on the machine's configuration. -/
def execOutWrite (s : State) : Result := outWriteWith Config.impl s

/-- NEXT (R205): the next frame, or the end of the block. -/
def execNext (s : State) : Result :=
  if s.n.toNat + 1 < s.nfr.toNat then
    .next { s with
      n := s.n + 1
      seq := seqCode .inRead }
  else .next (endBlock { s with n := s.n + 1 })

end Sys2Proof.Machine
end

