-- ==== Sys2Proof/Machine/Shaper.lean ====
section
/-! DEFINITION. The modulation shaper: SHAPE_PRE, LOOKUP and COEF (43_shaper.md, 41_saturation_lookup.md). -/

namespace Sys2Proof.Machine

/-- The shift by `SH_SHIFT` (R157, R159): left and saturating when it is not negative, `asr` when it is. -/
def shaperShift (c : Config) (m : Int) : Int :=
  if 0 ≤ c.shShift then sat32 (shl m c.shShift.toNat) else asr m (-c.shShift).toNat

/-- `u_q` (R157): the LFO value recentred, scaled by the depth, shifted, and moved into the lookup domain. -/
def shapeIndex (c : Config) (secondary : Q16) (depth : F32) : Int :=
  sat32 (shaperShift c (asr ((secondary.toInt - shBias - shCenter) * depthFixed c depth) 16)
    + lookupOffset)

/-- SHAPE_PRE (R157). -/
def shapePreWith (c : Config) (s : State) : Result :=
  .next { s with
    uQ := BitVec.ofInt 32 (shapeIndex c s.lfoSecondary s.depth)
    seq := seqCode .lookup }

/-- SHAPE_PRE on the machine's configuration. -/
def execShapePre (s : State) : Result := shapePreWith Config.impl s

/-- The interpolating lookup (R123): the ends of the table outside the domain, and between two entries
inside it, both widened to Q16.16 first. -/
def lookupValue (c : Config) (u : Int) : Int :=
  if u < 0 then shl (tableRead c 0) 2
  else if lookupSpan ≤ u then shl (tableRead c 1024) 2
  else
    shl (tableRead c (asr u 8).toNat) 2
      + asr ((shl (tableRead c ((asr u 8).toNat + 1)) 2 - shl (tableRead c (asr u 8).toNat) 2)
          * (u % 256)) 8

/-- LOOKUP (R123). -/
def lookupWith (c : Config) (s : State) : Result :=
  .next { s with
    lQ := BitVec.ofInt 32 (lookupValue c s.uQ.toInt)
    seq := seqCode .coef }

/-- LOOKUP on the machine's configuration. -/
def execLookup (s : State) : Result := lookupWith Config.impl s

/-- The all-pass coefficient of a lookup result (R160): `((Lf -f 0.5f) *f 1.89f) +f 0.025f` with
`Lf = f32(L_q) *f 2^-16`. -/
def coefficient (m : DenormalMode) (l : Q16) : F32 :=
  Binary32.add m
    (Binary32.mul m
      (Binary32.sub m (Binary32.mul m (Binary32.ofInt l.toInt) 0x37800000) 0x3F000000)
      0x3FF1EB85)
    0x3CCCCCCD

/-- COEF (R160). -/
def coefWith (c : Config) (s : State) : Result :=
  .next { s with
    b0 := coefficient c.denormalMode s.lQ
    seq := seqCode .mix }

/-- COEF on the machine's configuration. -/
def execCoef (s : State) : Result := coefWith Config.impl s

end Sys2Proof.Machine
end

