-- ==== Sys2Proof/Machine/Dispatch.lean ====
section
/-! DEFINITION. The meaning of every instruction. -/

namespace Sys2Proof.Machine

/-- One arm for each row of spec/opcode_table.json. -/
def exec (i : Instr) (s : State) : Host.Outcome State Fault Refusal :=
  match i with
  | .load => Sys2Proof.Machine.execLoad s
  | .proc nfr => Sys2Proof.Machine.execProc nfr s
  | .setp idx value => Sys2Proof.Machine.execSetp idx value s
  | .resume => Sys2Proof.Machine.execResume s
  | .blkSetup => Sys2Proof.Machine.execBlkSetup s
  | .inRead => Sys2Proof.Machine.execInRead s
  | .lfoStep => Sys2Proof.Machine.execLfoStep s
  | .shapePre => Sys2Proof.Machine.execShapePre s
  | .lookup => Sys2Proof.Machine.execLookup s
  | .coef => Sys2Proof.Machine.execCoef s
  | .mix => Sys2Proof.Machine.execMix s
  | .stage => Sys2Proof.Machine.execStage s
  | .limit => Sys2Proof.Machine.execLimit s
  | .outWrite => Sys2Proof.Machine.execOutWrite s
  | .gainStep => Sys2Proof.Machine.execGainStep s
  | .next => Sys2Proof.Machine.execNext s

end Sys2Proof.Machine
end

