-- ==== Sys2Proof/Machine/Agents.lean ====
section
/-! DEFINITION. What each agent does at its step: the sequencer, the command port, and what the host and the
platform do to the block (00_scope.md R28, 60_exceptions.md R252 to R254). -/

namespace Sys2Proof.Machine

/-- The sequencer's turn: the micro-operation `seq` names (R207, R211), nothing while the block is halted
(R254) or idle (R100, R210), and the stuck state on a reserved code (R99). -/
def sequencerTurn (s : State) : Result :=
  if s.faulted then .next s
  else
    match decode (.seq s.seq) with
    | .instr i => exec i s
    | .reject .idle => .next s
    | .reject _ => .fault .reservedSeqCode

/-- The command port's turn with one transaction: an illegal one is the fault ILLEGAL_CMD (R95, R248) unless the
block is halted and ignores it (R252, R254); a legal one is its command, which makes the other checks. -/
def portTurn (cw dw : Word) (s : State) : Result :=
  match decode (.cmd cw dw) with
  | .instr i => exec i s
  | .reject _ => if s.faulted then .next s else .next (raiseFault .illegalCmd cw s)

/-- A host write of a buffer word takes effect at its own step, whatever the block does (R73, R291). -/
def bufferWriteTurn (r : Region) (k : Nat) (v : Word) (s : State) : Result :=
  if WordExists Config.impl k then .next { s with mem := storeWord Config.impl s.mem r k v }
  else .fault .noSuchWord

/-- One action, taken off the list: `rest` is what comes after it. A host that waits stays in the list while
the block is busy, and the sequencer takes the turn. -/
def actionTurn (a : HostAction) (rest : List HostAction) (s : State) : Result :=
  match a with
  | .sequencer => sequencerTurn { s with host := rest }
  | .command cw dw => portTurn cw dw { s with host := rest }
  | .bufferWrite r k v => bufferWriteTurn r k v { s with host := rest }
  | .windowWrite _ _ => .next { s with host := rest }
  | .hardReset => .next (hardResetWith Config.impl { s with host := rest })
  | .wait => if s.busy then sequencerTurn s else .next { s with host := rest }

/-- One step of the machine: the next action of the list, or the sequencer's turn when there is none. -/
def turn (s : State) : Result :=
  match s.host with
  | [] => sequencerTurn s
  | a :: rest => actionTurn a rest s

end Sys2Proof.Machine
end

