-- ==== Sys2Proof/Machine/Step.lean ====
section
/-! DEFINITION. The step of the machine, and where its next instruction is put. -/

namespace Sys2Proof.Machine

/-- One step: one transaction of the command port, one micro-operation of the sequencer, or one thing the
host or the platform does (R13, R28). -/
def step (s : State) : Host.Outcome State Fault Refusal := turn s

/-- The state with the instruction of a table row placed where the step takes its next one (log entry 4): a
transaction is the next action of the host; a code goes into `seq`, the sequencer has the turn, the block is
not halted, and a STAGE finds `k` in 1..8, as MIX leaves it. -/
def State.withFetchWord (s : State) (nbits w : Nat) : State :=
  if nbits ≤ 8 then
    { s with
      host := .sequencer :: s.host
      seq := BitVec.ofNat 4 w
      faulted := false
      k := if BitVec.ofNat 4 w = seqCode .stage ∧ ¬(1 ≤ s.k.toNat ∧ s.k.toNat ≤ 8) then 8 else s.k }
  else
    { s with
      host := .command (BitVec.ofNat 32 w) (BitVec.ofNat 32 (w / 2 ^ 32)) :: s.host }

end Sys2Proof.Machine
end

