-- ==== Sys2Proof/Machine/Assembler.lean ====
section
/-! DEFINITION. The assembler's lines (30_encoding.md R103, R104): other spellings of the four commands, not
instructions of their own, and the text they are read from. The machine does not use this file. -/

namespace Sys2Proof.Machine

/-- `num / den` rounded to the nearest integer, ties to even. -/
def roundHalfEven (num : Int) (den : Nat) : Int :=
  if (den : Int) < 2 * (num % den) ∨ (2 * (num % den) = den ∧ num / den % 2 = 1) then num / den + 1
  else num / den

/-- The Q1.31 operand of `SETTIME.F r` and `SETDEPTH.F r`, for the real number r = num / den (R104). -/
def q31OfReal (num : Int) (den : Nat) : Int :=
  max (-2147483648) (min 2147483647 (roundHalfEven (num * 2147483648) den))

/-- A line of R103 or a pseudo-instruction of R104. A real operand is a fraction. -/
inductive AsmLine where
  | load
  | proc (nfr : Nat)
  | setp (idx : Nat) (value : Int)
  | resume
  | setTime (value : Int)
  | setDepth (value : Int)
  | setTimeF (num : Int) (den : Nat)
  | setDepthF (num : Int) (den : Nat)
  | nop
  deriving DecidableEq, Repr

/-- An operand `value`, modulo 2^32, as the signed integer the data word is read as (R94, R103). -/
def dataValue (value : Int) : Int := (BitVec.ofInt 32 value).toInt

/-- The command a line stands for (R103, R104). -/
def asmExpand : AsmLine → Instr
  | .load => .load
  | .proc nfr => .proc nfr
  | .setp idx value => .setp idx (dataValue value)
  | .resume => .resume
  | .setTime value => .setp 0 (dataValue value)
  | .setDepth value => .setp 1 (dataValue value)
  | .setTimeF num den => .setp 0 (q31OfReal num den)
  | .setDepthF num den => .setp 1 (q31OfReal num den)
  | .nop => .setp 255 0

/-- The two words a line emits, `cw` then `dw` (R103). -/
def asmWords (l : AsmLine) : Word × Word :=
  match encode (asmExpand l) with
  | .cmd cw dw => (cw, dw)
  | .seq _ => (0, 0)

/-! ## Reading a line of text -/

/-- The digit a character stands for, in a base up to 16; letters are upper case already. -/
def digitOf (base : Nat) (ch : Char) : Option Nat :=
  let v := if '0' ≤ ch ∧ ch ≤ '9' then ch.toNat - 48
    else if 'A' ≤ ch ∧ ch ≤ 'F' then ch.toNat - 55 else 99
  if v < base then some v else none

/-- A natural number of at least one digit. -/
def readDigits (base : Nat) : List Char → Option Nat
  | [] => none
  | chs => chs.foldl (fun acc ch => acc.bind fun a => (digitOf base ch).map (a * base + ·)) (some 0)

/-- A number, decimal or 0x-hex (R103). DESIGN CHOICE: letters are upper case by the time it is read, so the prefix may
be `0x` or `0X` and hex digits may be of either case, and leading zeros are allowed (log entry 24). -/
def readNat : List Char → Option Nat
  | '0' :: 'X' :: rest => readDigits 16 rest
  | chs => readDigits 10 chs

/-- An operand `value`, a 32-bit integer: decimal with its sign, or 0x-hex (R103). DESIGN CHOICE: decimal, like hex,
goes up to 4294967295, taken modulo 2^32; a number that no 32 bits hold, signed or unsigned, is rejected (log
entry 21). -/
def readValue (chs : List Char) : Option Int :=
  let v : Option Int := match chs with
    | '-' :: rest => (readDigits 10 rest).map fun v => -(v : Int)
    | _ => (readNat chs).map fun v => (v : Int)
  v.filter fun v => -2147483648 ≤ v ∧ v < 4294967296

/-- A real number r of R104, as a numerator and a denominator. DESIGN CHOICE: it is written in decimal digits with an
optional `-` before them and at most one `.`; a `+` or an exponent is rejected (log entry 22). -/
def readReal (chs : List Char) : Option (Int × Nat) :=
  let neg := chs.head? = some '-'
  let body := if neg then chs.tail else chs
  let frac := (body.dropWhile (· ≠ '.')).tail
  (readDigits 10 (body.takeWhile (· ≠ '.') ++ frac)).map fun v =>
    (if neg then -(v : Int) else v, 10 ^ frac.length)

/-- The operands of a line, split at the commas. -/
def splitCommas : List Char → List (List Char)
  | [] => [[]]
  | ch :: rest =>
    match splitCommas rest with
    | [] => [[ch]]
    | w :: ws => if ch = ',' then [] :: w :: ws else (ch :: w) :: ws

/-- A list of characters without the blanks around it; a blank is the space alone (log entry 23). -/
def trimBlanks (chs : List Char) : List Char :=
  ((chs.dropWhile (· = ' ')).reverse.dropWhile (· = ' ')).reverse

/-- A line of assembler text: a mnemonic in either case, its operands, and a comment from `;` on (R103). DESIGN
CHOICE: a blank is the space alone, so that a line with a tab before its comment is rejected; blanks may stand before
the mnemonic, around each operand and at the end, and at least one between the mnemonic and its first operand. A
line that holds no command, empty or a comment alone, gives `none` as a rejected line does: it emits no words (log
entry 23). The whole line is read in upper case, hex numbers among it, and the index of SETP is written as `nfr` is,
decimal or 0x-hex (log entry 24). -/
def readLine (line : String) : Option AsmLine :=
  let chs := trimBlanks ((line.toList.takeWhile (· ≠ ';')).map Char.toUpper)
  let name := chs.takeWhile (· ≠ ' ')
  let args := trimBlanks (chs.dropWhile (· ≠ ' '))
  let ops := if args = [] then [] else (splitCommas args).map trimBlanks
  match ops with
  | [] =>
    if name = "LOAD".toList then some .load
    else if name = "RESUME".toList then some .resume
    else if name = "NOP".toList then some .nop
    else none
  | [a] =>
    if name = "PROC".toList then ((readNat a).filter (· < 65536)).map .proc
    else if name = "SETTIME".toList then (readValue a).map .setTime
    else if name = "SETDEPTH".toList then (readValue a).map .setDepth
    else if name = "SETTIME.F".toList then (readReal a).map fun r => .setTimeF r.1 r.2
    else if name = "SETDEPTH.F".toList then (readReal a).map fun r => .setDepthF r.1 r.2
    else none
  | [a, b] =>
    if name = "SETP".toList then
      ((readNat a).filter (· < 256)).bind fun idx => (readValue b).map (.setp idx)
    else none
  | _ => none

end Sys2Proof.Machine
end

