-- ==== Sys2Proof/Machine/Flags.lean ====
section
/-! DEFINITION. The status word and the read-only register window (10_state.md R48 to R50). The block has no
condition codes: BUSY and FAULTED are its only flags. -/

namespace Sys2Proof.Machine

/-- `STATUS` (R48): BUSY in bit 0, FAULTED in bit 1, FCODE in bits 7:4, SEQ, a copy of `seq`, in bits 11:8,
every other bit 0. -/
def statusWord (s : State) : Word :=
  BitVec.ofNat 32
    ((if s.busy then 1 else 0) + (if s.faulted then 2 else 0) + s.fcode.toNat * 2 ^ 4
      + s.seq.toNat * 2 ^ 8)

/-- `lfo_inc` as a word of the window: its value, and for the one value that 32 bits cannot show, 2^32, a free
word that is not 0 (R39, log entry 10). -/
def incrementWord (c : Config) (s : State) : Word :=
  if s.lfoInc < 2 ^ 32 then BitVec.ofNat 32 s.lfoInc else c.wideIncWord

/-- The registers of the window up to 0x2C (R50). DEDUCED: the word at 0x2C is the 4-bit register `k` zero-extended;
R50 gives `k` its bits 3:0 and does not say what bits 31:4 read (log entry 17). -/
def windowRegister (c : Config) (s : State) : Nat → Word
  | 0x00 => statusWord s
  | 0x04 => s.faultInfo
  | 0x08 => s.time
  | 0x0C => s.depth
  | 0x10 => s.gain
  | 0x14 => incrementWord c s
  | 0x18 => s.lfoThreshold
  | 0x1C => s.lfoPhase
  | 0x20 => s.lfoPrimary
  | 0x24 => s.lfoSecondary
  | 0x28 => s.nfr ++ s.n
  | 0x2C => s.k.zeroExtend 32
  | _ => 0

/-- What the host reads at a word offset of the register window (R50): a register, a cell, 0 at a reserved
offset, and nothing where the window has no word. The latches and `lfo_aux` are not in it. -/
def readWindowWith (c : Config) (s : State) (offset : Nat) : Option Word :=
  if offset % 4 ≠ 0 ∨ 0xFC < offset then none
  else if 0x40 ≤ offset ∧ offset < 0x64 then some (s.z1.toList.getD ((offset - 0x40) / 4) 0)
  else if 0x80 ≤ offset ∧ offset < 0xA4 then some (s.out.toList.getD ((offset - 0x80) / 4) 0)
  else some (windowRegister c s offset)

/-- What the host reads at a word offset of the machine's register window. -/
def readWindow (s : State) (offset : Nat) : Option Word := readWindowWith Config.impl s offset

end Sys2Proof.Machine
end

