-- ==== Sys2Proof/Safety.lean ====
section
/-! DEFINITION. What the claims are stated in: the invariant of the reachable states (10_state.md R52 and the
rules it is derived from), what a host may do, and repeated execution. -/

namespace Sys2Proof

open Sys2Proof.Machine

/-- The binary32 values from -0.92000002 to 0.96999997 (R161), in the order of the values. -/
abbrev CoefRange (b : F32) : Prop :=
  -0x3F6B851F ≤ Binary32.orderKey b ∧ Binary32.orderKey b ≤ 0x3F7851EB

/-- What holds in every reachable state. The first group is R52; the rest is what each rule named says of its
register, and what makes R52 hold from one step to the next. -/
structure BlockInvariant (s : State) : Prop where
  /-- `time` in [0, 1] (R36, R52). -/
  time_unit : InUnit s.time
  /-- `depth` in [0, 1] (R37, R52). -/
  depth_unit : InUnit s.depth
  /-- `gain` in [0, 1] (R38, R52). -/
  gain_unit : InUnit s.gain
  /-- `lfo_inc` ≥ 1 (R39, R52), by the form in which State holds it (log entry 10). -/
  inc_pos : 1 ≤ s.lfoInc
  /-- `lfo_phase` < `TIMER_RES` (R41, R52). -/
  phase_lt : s.lfoPhase.toNat < Config.impl.timerRes
  /-- `lfo_primary` in [0, 65536) (R43, R52). -/
  primary_lt : s.lfoPrimary.toNat < 65536
  /-- `lfo_secondary` in [0, 65536) (R44, R52). -/
  secondary_lt : s.lfoSecondary.toNat < 65536
  /-- `n` ≤ `nfr` (R47, R52). -/
  frame_le : s.n.toNat ≤ s.nfr.toNat
  /-- `nfr` ≤ `MAX_FRAMES` (R47, R52). -/
  frames_le : s.nfr.toNat ≤ Config.impl.maxFrames
  /-- `STATUS.BUSY` = 1 exactly when `seq` ≠ `IDLE` and `STATUS.FAULTED` = 0 (R52). -/
  busy_iff : s.busy = true ↔ s.seq ≠ idleCode ∧ s.faulted = false
  /-- A halted sequencer is idle (R253, R254). -/
  halted_idle : s.faulted = true → s.seq = idleCode
  /-- `seq` takes only the codes of R98 (R46, R99). -/
  seq_code : s.seq.toNat ≤ 0xC
  /-- PROC wrote `n <- 0` before BLK_SETUP (R223). -/
  setup_first : s.seq = seqCode .blkSetup → s.n = 0
  /-- A micro-operation of a frame finds a frame (R68, R101). -/
  frame_lt : 2 ≤ s.seq.toNat → s.n.toNat < s.nfr.toNat
  /-- STAGE finds `k` in 1..8 (R47). -/
  stage_k : s.seq = seqCode .stage → 1 ≤ s.k.toNat ∧ s.k.toNat ≤ 8
  /-- `lfo_threshold` holds `LFO_THRESHOLD` at all times (R40). -/
  threshold_eq : s.lfoThreshold = Config.impl.lfoThreshold
  /-- `z1[0]` is only ever cleared (R33). -/
  z1_zero : s.z1[0] = 0
  /-- The input sample is finite (R203). -/
  input_finite : Binary32.isFinite s.xIn = true
  /-- 0 ≤ `L_q` ≤ 65536 (R125). -/
  lookup_range : 0 ≤ s.lQ.toInt ∧ s.lQ.toInt ≤ 65536
  /-- The range of `b0` (R161). -/
  coef_range : CoefRange s.b0
  /-- No fault recorded: `FCODE` and `FAULT_INFO` are 0 (R48, R49, R53). -/
  no_fault_zero : s.faulted = false → s.fcode = 0 ∧ s.faultInfo = 0
  /-- A fault recorded: `FCODE` is one of the four (R247). -/
  fault_code : s.faulted = true → 1 ≤ s.fcode.toNat ∧ s.fcode.toNat ≤ 4
  /-- The buffer memory is in the canonical form in which the model holds it (log entry 5). -/
  mem_wf : Memory.wf s.mem = true

/-- The host's list writes only buffer words that exist (R61, R68). -/
def HostOk (s : State) : Prop :=
  ∀ r k v, HostAction.bufferWrite r k v ∈ s.host → WordExists Config.impl k

/-- One instruction executed again and again, stopping where it does not answer a next state. -/
def repeatExec (i : Instr) : Nat → State → Result
  | 0, s => .next s
  | m + 1, s =>
    match exec i s with
    | .next t => repeatExec i m t
    | r => r

/-- The outcomes of an instruction from two states are the same up to one register. -/
def SameBut (put : State → State → State) (r r' : Result) : Prop :=
  match r, r' with
  | .next t, .next t' => put t' t = t
  | .fault f, .fault f' => f = f'
  | .refused x, .refused x' => x = x'
  | _, _ => False

/-- Every input word of the block of a state is finite: the host's duty of R290. -/
def InputsFinite (s : State) : Prop :=
  ∀ j, j < s.nfr.toNat → Binary32.isFinite (bufferWord Config.impl s .mainIn (2 * j)) = true

end Sys2Proof
end

