-- ==== Sys2Proof/Certificates/Slice0/Obligations.lean ====
section
/-! DEFINITION. The statements for the provers. Numbers are written out from the spec, not through the model's
names for them. Where a statement has a premise on the state, the premise is part of the invariant `BlockInvariant`
(10_state.md R52) or is the condition under which the rule speaks. -/

open Sys2Proof Sys2Proof.Machine

/-! ## Encoding (30_encoding.md) -/

/-- Decoding and encoding agree (R92 to R95, R98, R103). What the encoder gives for a well-formed instruction
decodes to it; and a code that decodes to an instruction is the encoder's own code of it, but for the data word
that LOAD, PROC and RESUME ignore. -/
def Obligations.DecodeAndEncodeAgree : Prop :=
  (∀ i : Instr, WellFormed i → decode (encode i) = .instr i) ∧
  (∀ (cw dw : Word) (i : Instr), decode (.cmd cw dw) = .instr i →
    WellFormed i ∧ isCommand i = true ∧ commandWord i = cw ∧
    ∀ idx value, i = .setp idx value → dw = BitVec.ofInt 32 value) ∧
  (∀ (code : BitVec 4) (i : Instr), decode (.seq code) = .instr i →
    WellFormed i ∧ isCommand i = false ∧ encode i = .seq code)

/-- Command words of the spec's table of 95_test_vectors.md 2.7 decode to the commands written there (R92, R93,
R94, R103). -/
def Obligations.SpecCommandWordsDecode : Prop :=
  decode (.cmd 0x00000001 0x00000000) = .instr .load ∧
  decode (.cmd 0x00000001 0xDEADBEEF) = .instr .load ∧
  decode (.cmd 0x00040002 0x00000000) = .instr (.proc 4) ∧
  decode (.cmd 0x012C0002 0x00000000) = .instr (.proc 300) ∧
  decode (.cmd 0x00000003 0x40000000) = .instr (.setp 0 1073741824) ∧
  decode (.cmd 0x00000103 0x80000000) = .instr (.setp 1 (-2147483648)) ∧
  decode (.cmd 0x0000FF03 0x00000000) = .instr (.setp 255 0) ∧
  decode (.cmd 0x00000004 0x00000000) = .instr .resume

/-- The sequencer codes (R98), all sixteen of them. -/
def Obligations.SequencerCodesDecode : Prop :=
  decode (.seq 0x0) = .reject .idle ∧
  decode (.seq 0x1) = .instr .blkSetup ∧
  decode (.seq 0x2) = .instr .inRead ∧
  decode (.seq 0x3) = .instr .lfoStep ∧
  decode (.seq 0x4) = .instr .shapePre ∧
  decode (.seq 0x5) = .instr .lookup ∧
  decode (.seq 0x6) = .instr .coef ∧
  decode (.seq 0x7) = .instr .mix ∧
  decode (.seq 0x8) = .instr .stage ∧
  decode (.seq 0x9) = .instr .limit ∧
  decode (.seq 0xA) = .instr .outWrite ∧
  decode (.seq 0xB) = .instr .gainStep ∧
  decode (.seq 0xC) = .instr .next ∧
  decode (.seq 0xD) = .reject .reservedSeq ∧
  decode (.seq 0xE) = .reject .reservedSeq ∧
  decode (.seq 0xF) = .reject .reservedSeq

/-- A command word is illegal exactly when R96 says so: its OP is reserved, RSV is not 0, or a field its
operation does not use is not 0. -/
def Obligations.ReservedEncodingsAreIllegal : Prop :=
  ∀ cw dw : Word, (∃ r, decode (.cmd cw dw) = .reject r) ↔
    (cw.extractLsb' 0 4 = 0 ∨ 5 ≤ (cw.extractLsb' 0 4).toNat) ∨
    cw.extractLsb' 4 4 ≠ 0 ∨
    ((cw.extractLsb' 0 4 = 1 ∨ cw.extractLsb' 0 4 = 4) ∧ cw.extractLsb' 8 24 ≠ 0) ∨
    (cw.extractLsb' 0 4 = 2 ∧ cw.extractLsb' 8 8 ≠ 0) ∨
    (cw.extractLsb' 0 4 = 3 ∧ cw.extractLsb' 16 16 ≠ 0)

/-- The data word (R93): LOAD, PROC and RESUME ignore it, SETP reads it as a signed integer, and it never makes
a command illegal. -/
def Obligations.DataWordIsReadBySetpAlone : Prop :=
  ∀ cw dw dw' : Word,
    (cw.extractLsb' 0 4 ≠ 3 → decode (.cmd cw dw) = decode (.cmd cw dw')) ∧
    (∀ idx value, decode (.cmd cw dw) = .instr (.setp idx value) →
      value = dw.toInt ∧ decode (.cmd cw dw') = .instr (.setp idx dw'.toInt)) ∧
    (∀ r, decode (.cmd cw dw) = .reject r → decode (.cmd cw dw') = .reject r)

/-! ## Reset (10_state.md R53, 70_reset_and_hazards.md) -/

/-- The value of every register after hardware reset (R53); `lfo_inc` is read through `State.lfoInc` and is at
least 1 (R39). -/
def Obligations.ResetPutsEveryRegisterAtItsValue : Prop :=
  (∀ i : Fin 9, State.reset.z1[i] = 0 ∧ State.reset.out[i] = 0) ∧
  State.reset.time = 0x3E800000 ∧
  State.reset.depth = 0x3F000000 ∧
  State.reset.gain = 0 ∧
  State.reset.lfoInc = Config.impl.timerRes / Config.impl.period 0x3E800000 ∧
  1 ≤ State.reset.lfoInc ∧
  State.reset.lfoThreshold = Config.impl.lfoThreshold ∧
  State.reset.lfoPhase = 0 ∧
  State.reset.lfoAux = Config.impl.lfoAux0 ∧
  State.reset.lfoPrimary = 0 ∧
  State.reset.lfoSecondary = 0 ∧
  State.reset.xIn = 0 ∧ State.reset.b0 = 0 ∧ State.reset.y = 0 ∧
  State.reset.uQ = 0 ∧ State.reset.lQ = 0 ∧
  State.reset.seq = 0x0 ∧
  State.reset.n = 0 ∧ State.reset.nfr = 0 ∧ State.reset.k = 0 ∧
  statusWord State.reset = 0 ∧
  State.reset.faultInfo = 0

/-- Hardware reset (R276): every register to its reset value, in every state, a running or a halted block among
them; the buffer memory is not changed. What the host does next is the model's own (log entry 3). -/
def Obligations.HardResetKeepsTheBufferMemory : Prop :=
  ∀ (s : State) (rest : List HostAction), s.host = .hardReset :: rest →
    step s = .next { State.reset with
      mem := s.mem
      host := rest }

/-! ## Host commands (47_host_commands.md) -/

/-- LOAD (R222, R277): accepted in an idle block, it puts every register but STATUS and FAULT_INFO to its reset
value and leaves the buffer memory. -/
def Obligations.LoadIsResetWithoutTheStatus : Prop :=
  ∀ s : State, s.faulted = false → s.busy = false →
    exec .load s = .next { State.reset with
      busy := s.busy
      faulted := s.faulted
      fcode := s.fcode
      faultInfo := s.faultInfo
      mem := s.mem
      host := s.host }

/-- PROC (R223, R250): accepted in an idle block it starts a block of NFR frames, at most `MAX_FRAMES`; a larger
one is the fault FRAMES_TOO_LARGE, with the command word, and starts nothing. -/
def Obligations.ProcStartsABlockThatFits : Prop :=
  ∀ (nfr : Nat) (s : State), s.faulted = false → s.busy = false →
    (nfr ≤ Config.impl.maxFrames →
      exec (.proc nfr) s = .next { s with
        nfr := BitVec.ofNat 16 nfr
        n := 0
        busy := true
        seq := 0x1 }) ∧
    (Config.impl.maxFrames < nfr →
      exec (.proc nfr) s = .next { s with
        faulted := true
        fcode := 0x3
        faultInfo := BitVec.ofNat 32 (nfr * 65536 + 2)
        seq := 0x0
        busy := false })

/-- SETP (R224, R226, R227, R228), in an idle block and during a block (R230): index 0 writes `time`, index 1
writes `depth`, each with the Q1.31 value as a float held within [0, 1]; another index has no effect. -/
def Obligations.SetpWritesTheParameterItNames : Prop :=
  ∀ (value : Int) (s : State), s.faulted = false →
    let m := Config.impl.denormalMode
    let q := Binary32.mul m (Binary32.ofInt value) 0x30000000
    let v : F32 := if Binary32.lt m q 0x00000000 then 0x00000000
      else if Binary32.lt m 0x3F800000 q then 0x3F800000 else q
    exec (.setp 0 value) s = .next { s with time := v } ∧
    exec (.setp 1 value) s = .next { s with depth := v } ∧
    ∀ idx, idx ≠ 0 → idx ≠ 1 → exec (.setp idx value) s = .next s

/-- What SETP stores, in `time` for index 0 and in `depth` for index 1 (R226, R227): a value in [0, 1], +0.0 for
a value that is not positive, and for a positive one the binary32 nearest to value / 2^31, which is not 0. In
units of 2^-149 that quotient is value × 2^118. -/
def Obligations.SetpStoresTheNearestUnitValue : Prop :=
  ∀ (value : Int) (s : State), s.faulted = false → -2147483648 ≤ value → value < 2147483648 →
    ∃ v : F32,
      exec (.setp 0 value) s = .next { s with time := v } ∧
      exec (.setp 1 value) s = .next { s with depth := v } ∧
      InUnit v ∧
      (value ≤ 0 → v = 0) ∧
      (0 < value → 0 < v.toNat ∧ ∀ x : F32, Binary32.isFinite x = true →
        |Binary32.units v - value * 2 ^ 118| ≤ |Binary32.units x - value * 2 ^ 118|)

/-- RESUME (R225): accepted in an idle block, it clears the cells and the gain and touches nothing else. -/
def Obligations.ResumeClearsTheFilter : Prop :=
  ∀ s : State, s.faulted = false → s.busy = false →
    exec .resume s = .next { s with
      z1 := Vector.replicate 9 0
      out := Vector.replicate 9 0
      gain := 0 }

/-- Resetting twice is resetting once, for RESUME and for LOAD (the spec's own inference in R231). -/
def Obligations.ClearingTwiceIsClearingOnce : Prop :=
  ∀ s : State, s.faulted = false → s.busy = false →
    (∃ t, exec .resume s = .next t ∧ exec .resume t = .next t) ∧
    (∃ t, exec .load s = .next t ∧ exec .load t = .next t)

/-- BUSY_VIOLATION (R249): LOAD, PROC and RESUME during a block halt it, with their command word, and have no
other effect; a SETP is never a busy violation. -/
def Obligations.CommandsDuringABlockHaltIt : Prop :=
  ∀ (nfr : Nat) (s : State), s.faulted = false → s.busy = true →
    let halted (cw : Word) : State := { s with
      faulted := true
      fcode := 0x2
      faultInfo := cw
      seq := 0x0
      busy := false }
    exec .load s = .next (halted 0x00000001) ∧
    exec (.proc nfr) s = .next (halted (BitVec.ofNat 32 (nfr * 65536 + 2))) ∧
    exec .resume s = .next (halted 0x00000004) ∧
    ∀ idx value, ∃ t, exec (.setp idx value) s = .next t ∧ t.faulted = false ∧ t.busy = true ∧ t.seq = s.seq

/-! ## Faults (60_exceptions.md) -/

/-- While the block is halted (R254, R229) a command has no effect and a transaction is taken and ignored, legal
or not. The sequencer takes no micro-operation; that its turn is a step of the model that answers the same state
is the model's choice (log entry 3). -/
def Obligations.HaltedBlockIgnoresCommands : Prop :=
  ∀ s : State, s.faulted = true →
    (∀ i, isCommand i = true → exec i s = .next s) ∧
    (∀ cw dw rest, s.host = .command cw dw :: rest → step s = .next { s with host := rest }) ∧
    (∀ rest, s.host = .sequencer :: rest → step s = .next { s with host := rest }) ∧
    (s.host = [] → step s = .next s)

/-- Only hardware reset leaves the halted state (R254, R255), and there is no nested fault: any other step
leaves every register as it is, and the buffer memory too unless the host writes a word of it. -/
def Obligations.OnlyHardResetLeavesTheHaltedState : Prop :=
  ∀ s t : State, s.faulted = true → (∀ rest, s.host ≠ .hardReset :: rest) → step s = .next t →
    t = { s with
      mem := t.mem
      host := t.host } ∧
    ((∀ r k v rest, s.host ≠ .bufferWrite r k v :: rest) → t.mem = s.mem)

/-- ILLEGAL_CMD (R248) and fault entry (R253): a transaction with an operation other than the four, with RSV not
0, or with a field its operation does not use not 0, whatever its data word, halts a block that is not halted,
idle or busy, with its command word, and changes nothing else. -/
def Obligations.IllegalTransactionHaltsTheBlock : Prop :=
  ∀ (s : State) (cw dw : Word) (rest : List HostAction),
    s.faulted = false → s.host = .command cw dw :: rest →
    ((cw.extractLsb' 0 4 ≠ 1 ∧ cw.extractLsb' 0 4 ≠ 2 ∧ cw.extractLsb' 0 4 ≠ 3 ∧ cw.extractLsb' 0 4 ≠ 4) ∨
      cw.extractLsb' 4 4 ≠ 0 ∨
      ((cw.extractLsb' 0 4 = 1 ∨ cw.extractLsb' 0 4 = 4) ∧ cw.extractLsb' 8 24 ≠ 0) ∨
      (cw.extractLsb' 0 4 = 2 ∧ cw.extractLsb' 8 8 ≠ 0) ∨
      (cw.extractLsb' 0 4 = 3 ∧ cw.extractLsb' 16 16 ≠ 0)) →
    step s = .next { s with
      host := rest
      faulted := true
      fcode := 0x1
      faultInfo := cw
      seq := 0x0
      busy := false }

/-- The checks on a transaction in the order of R252: halted, illegal, busy, too many frames; the first that
applies is the one that counts, and a transaction that passes them all performs its command. -/
def Obligations.PortChecksInTheOrderOfTheRule : Prop :=
  ∀ (s : State) (cw dw : Word),
    let op := cw.extractLsb' 0 4
    let nfr := (cw.extractLsb' 16 16).toNat
    portTurn cw dw s =
      if s.faulted = true then .next s
      else match decode (.cmd cw dw) with
        | .reject _ => .next (raiseFault .illegalCmd cw s)
        | .instr _ =>
          if (op = 1 ∨ op = 2 ∨ op = 4) ∧ s.busy = true then .next (raiseFault .busyViolation cw s)
          else if op = 2 ∧ Config.impl.maxFrames < nfr then .next (raiseFault .framesTooLarge cw s)
          else if op = 1 then .next (loadRegisters Config.impl s)
          else if op = 2 then .next (startBlock nfr s)
          else if op = 3 then .next (setParam Config.impl (cw.extractLsb' 8 8).toNat dw.toInt s)
          else .next (clearFilter s)

/-! ## The LFO (42_lfo.md) -/

/-- BLK_SETUP (R137, R208): `lfo_inc` becomes the quotient of R137, which State holds less one (log entry 10), and
the block goes on to its first frame or, with no frame, ends. -/
def Obligations.BlkSetupComputesTheIncrement : Prop :=
  decode (.seq 0x1) = .instr .blkSetup ∧
  ∀ s : State, ∃ inc : Word,
    exec .blkSetup s = .next (if 0 < s.nfr.toNat
      then { s with
        lfoIncLessOne := inc
        seq := 0x2 }
      else { s with
        lfoIncLessOne := inc
        seq := 0x0
        busy := false }) ∧
    (InUnit s.time → inc.toNat + 1 = Config.impl.timerRes / Config.impl.period s.time)

/-- LFO_STEP (R139, R140): the phase advances by the increment modulo `TIMER_RES`, the waveform generator sees
the new phase, and its outputs are below 65536. -/
def Obligations.LfoStepAdvancesThePhase : Prop :=
  decode (.seq 0x3) = .instr .lfoStep ∧
  ∀ s : State, ∃ phase : Word,
    phase.toNat = (s.lfoPhase.toNat + s.lfoInc) % Config.impl.timerRes ∧
    (let shape := Config.impl.lfoShape s.lfoAux phase.toNat s.lfoThreshold
     exec .lfoStep s = .next { s with
       lfoPhase := phase
       lfoAux := shape.1
       lfoPrimary := shape.2.1
       lfoSecondary := shape.2.2
       seq := 0x4 } ∧
     shape.2.1.toNat < 65536 ∧ shape.2.2.toNat < 65536)

/-- The phase after many samples, and its period `TIMER_RES / gcd(TIMER_RES, lfo_inc)` (the spec's own inference
in R141): it is back after that many LFO_STEPs and at no earlier one. -/
def Obligations.PhaseHasThePeriodOfTheRule : Prop :=
  ∀ s : State, s.lfoPhase.toNat < Config.impl.timerRes →
    (∀ j, ∃ t, repeatExec .lfoStep j s = .next t ∧
      t.lfoPhase.toNat = (s.lfoPhase.toNat + j * s.lfoInc) % Config.impl.timerRes) ∧
    (let period := Config.impl.timerRes / Nat.gcd Config.impl.timerRes s.lfoInc
     (∃ t, repeatExec .lfoStep period s = .next t ∧ t.lfoPhase = s.lfoPhase) ∧
     ∀ j t, 0 < j → j < period → repeatExec .lfoStep j s = .next t → t.lfoPhase ≠ s.lfoPhase)

/-! ## The shaper (43_shaper.md, 41_saturation_lookup.md) -/

/-- SHAPE_PRE (R157, R158). In units of 2^-149 the depth times 65536, truncated, is its value divided by 2^133. -/
def Obligations.ShapePreFormsTheLookupIndex : Prop :=
  decode (.seq 0x4) = .instr .shapePre ∧
  ∀ s : State, InUnit s.depth → ∃ u : Word,
    exec .shapePre s = .next { s with
      uQ := u
      seq := 0x5 } ∧
    (let sat (v : Int) : Int := max (-2147483648) (min 2147483647 v)
     let d : Int := Binary32.units s.depth / 2 ^ 133
     let m : Int := (s.lfoSecondary.toInt - 1311 - 16384) * d / 65536
     let m2 : Int := if 0 ≤ Config.impl.shShift then sat (m * 2 ^ Config.impl.shShift.toNat)
       else m / 2 ^ (-Config.impl.shShift).toNat
     0 ≤ d ∧ d ≤ 65536 ∧ u.toInt = sat (m2 + 0x20000))

/-- No saturation in SHAPE_PRE (the spec's own inference in the corner cases of R157): with the outputs of the
LFO in their range, the index is the shifted value plus 2.0 itself. -/
def Obligations.ShapePreNeverSaturates : Prop :=
  ∀ s : State, InUnit s.depth → s.lfoSecondary.toNat < 65536 → ∃ t,
    exec .shapePre s = .next t ∧
    (let d : Int := Binary32.units s.depth / 2 ^ 133
     let m : Int := (s.lfoSecondary.toInt - 1311 - 16384) * d / 65536
     t.uQ.toInt = 0x20000 + (if 0 ≤ Config.impl.shShift then m * 2 ^ Config.impl.shShift.toNat
       else m / 2 ^ (-Config.impl.shShift).toNat))

/-- LOOKUP (R123): below the domain the first entry, from its end on the last, and between two entries the
interpolation, all widened to Q16.16. -/
def Obligations.LookupInterpolatesTheTable : Prop :=
  decode (.seq 0x5) = .instr .lookup ∧
  ∀ s : State, ∃ l : Q16,
    exec .lookup s = .next { s with
      lQ := l
      seq := 0x6 } ∧
    (let u := s.uQ.toInt
     let a := 4 * (Config.impl.satTable (u / 256).toNat).toInt
     let b := 4 * (Config.impl.satTable ((u / 256).toNat + 1)).toInt
     l.toInt = if u < 0 then 4 * (Config.impl.satTable 0).toInt
       else if 262144 ≤ u then 4 * (Config.impl.satTable 1024).toInt
       else a + (b - a) * (u % 256) / 256)

/-- The output range of the lookup, for every input (the spec's own inference in R125). -/
def Obligations.LookupStaysWithinFullScale : Prop :=
  ∀ s : State, ∃ t, exec .lookup s = .next t ∧ 0 ≤ t.lQ.toInt ∧ t.lQ.toInt ≤ 65536

/-- The lookup keeps order (the spec's own inference in R126). -/
def Obligations.LookupIsMonotone : Prop :=
  ∀ s s' : State, s.uQ.toInt ≤ s'.uQ.toInt → ∃ t t',
    exec .lookup s = .next t ∧ exec .lookup s' = .next t' ∧ t.lQ.toInt ≤ t'.lQ.toInt

/-- No seam at an entry boundary (the spec's own inference in R127): the step onto entry i + 1 is the ceiling of
a 256th of the interval. -/
def Obligations.LookupHasNoSeam : Prop :=
  ∀ (s s' : State) (i : Nat), i < 1024 → s.uQ.toInt = 256 * i + 255 → s'.uQ.toInt = 256 * i + 256 →
    ∃ t t', exec .lookup s = .next t ∧ exec .lookup s' = .next t' ∧
      t'.lQ.toInt = 4 * (Config.impl.satTable (i + 1)).toInt ∧
      t'.lQ.toInt - t.lQ.toInt =
        (4 * (Config.impl.satTable (i + 1)).toInt - 4 * (Config.impl.satTable i).toInt + 255) / 256

/-- COEF (R160): `Lf = f32(L_q) *f 2^-16`, then `((Lf -f 0.5f) *f 1.89f) +f 0.025f`. -/
def Obligations.CoefMapsTheLookupResult : Prop :=
  decode (.seq 0x6) = .instr .coef ∧
  ∀ s : State,
    let m := Config.impl.denormalMode
    let lf := Binary32.mul m (Binary32.ofInt s.lQ.toInt) 0x37800000
    exec .coef s = .next { s with
      b0 := Binary32.add m (Binary32.mul m (Binary32.sub m lf 0x3F000000) 0x3FF1EB85) 0x3CCCCCCD
      seq := 0x7 }

/-- The range of the coefficient (the spec's own inference in R161): from -0.92000002 to 0.96999997 for every
lookup result. -/
def Obligations.CoefStaysInItsRange : Prop :=
  ∀ s : State, 0 ≤ s.lQ.toInt → s.lQ.toInt ≤ 65536 → ∃ t, exec .coef s = .next t ∧ CoefRange t.b0

/-! ## The cascade (44_allpass_cascade.md) -/

/-- MIX (R172): the gained input and the feedback tap of the sample before, weighted, into cell 0. -/
def Obligations.MixFormsTheCascadeInput : Prop :=
  decode (.seq 0x7) = .instr .mix ∧
  ∀ s : State,
    let m := Config.impl.denormalMode
    let wet := Binary32.mul m 0x3F400000 s.depth
    let dry := Binary32.sub m 0x3F800000 wet
    exec .mix s = .next { s with
      out := s.out.set 0 (Binary32.add m (Binary32.mul m (Binary32.mul m s.xIn s.gain) dry)
        (Binary32.mul m s.out[8] wet))
      k := 8
      seq := 0x8 }

/-- STAGE (R174, R179): the two cells of index `k` change in one step, from the old `z1[k]` and from `out[k-1]`
as it stands; then the next lower stage, or LIMIT after stage 1. -/
def Obligations.StageUpdatesOneCell : Prop :=
  decode (.seq 0x8) = .instr .stage ∧
  ∀ (s : State) (h : 1 ≤ s.k.toNat ∧ s.k.toNat ≤ 8),
    let m := Config.impl.denormalMode
    let z := s.z1[s.k.toNat]'(by omega)
    let v := Binary32.sub m (s.out[s.k.toNat - 1]'(by omega)) (Binary32.mul m s.b0 z)
    exec .stage s = .next { s with
      out := s.out.set s.k.toNat (Binary32.add m (Binary32.mul m s.b0 v) z) (by omega)
      z1 := s.z1.set s.k.toNat v (by omega)
      k := if 1 < s.k.toNat then s.k - 1 else s.k
      seq := if 1 < s.k.toNat then 0x8 else 0x9 }

/-- Where no cell or no word exists, the model stops (log entries 6 and 7: the model's choice for states no run
reaches): STAGE with `k` outside 1..8, IN_READ and OUT_WRITE in a frame past the regions. -/
def Obligations.AccessesToNothingStop : Prop :=
  ∀ s : State,
    (¬(1 ≤ s.k.toNat ∧ s.k.toNat ≤ 8) → exec .stage s = .fault .noSuchCell) ∧
    (Config.impl.maxFrames ≤ s.n.toNat → exec .inRead s = .fault .noSuchWord ∧
      exec .outWrite s = .fault .noSuchWord)

/-! ## The conditioner (45_conditioner.md) -/

/-- LIMIT (R192, R191): below the threshold the value unchanged, from it on the threshold plus the soft-clipped
excess with the value's sign. The threshold is positive. -/
def Obligations.LimitSoftLimitsTheTap : Prop :=
  decode (.seq 0x9) = .instr .limit ∧
  ∀ s : State,
    let m := Config.impl.denormalMode
    let th := Binary32.add m (Binary32.sub m Config.impl.limKnee 0x3F800000) Config.impl.limC
    let x := s.out[1]
    let ax := Binary32.fabs x
    0 < Binary32.units th ∧
    exec .limit s = .next { s with
      y := if Binary32.lt m ax th then x
        else Binary32.copysign (Binary32.add m th (Config.impl.softclip (Binary32.sub m ax th))) x
      seq := 0xA }

/-- The bound of the limiter (the spec's own inference in R189): the magnitude of the output is at most
`LIM_KNEE`, for every tap that is not a NaN. -/
def Obligations.LimitNeverExceedsTheKnee : Prop :=
  ∀ s : State, Binary32.isNaN s.out[1] = false → ∃ t, exec .limit s = .next t ∧
    Binary32.isFinite t.y = true ∧
    Binary32.magnitude t.y ≤ Binary32.magnitude Config.impl.limKnee

/-- GAIN_STEP (R193): the update first, then the strict snap test. -/
def Obligations.GainStepRampsTheGain : Prop :=
  decode (.seq 0xB) = .instr .gainStep ∧
  ∀ s : State,
    let m := Config.impl.denormalMode
    let g := Binary32.add m s.gain (Binary32.mul m (Binary32.sub m 0x3F800000 s.gain) 0x3D800000)
    exec .gainStep s = .next { s with
      gain := if Binary32.lt m 0x3F7FFEB0 g then 0x3F800000 else g
      seq := 0xC }

/-- The ramp (the spec's own inference in R194): from 0 the gain is 0x3F7FFEA2 after 167 steps, exactly 1.0
after 168 and for ever after, and never above 1.0. -/
def Obligations.GainRampReachesUnity : Prop :=
  ∀ s : State, s.gain = 0 →
    (∃ t, repeatExec .gainStep 167 s = .next t ∧ t.gain = 0x3F7FFEA2) ∧
    (∀ steps, 168 ≤ steps → ∃ t, repeatExec .gainStep steps s = .next t ∧ t.gain = 0x3F800000) ∧
    (∀ steps, ∃ t, repeatExec .gainStep steps s = .next t ∧ InUnit t.gain)

/-! ## The pipeline (46_pipeline.md) -/

/-- IN_READ (R203, R251, R253): the word of `MAIN_IN[2n]`, at byte 8n, least significant byte lowest; a finite
one goes into `x_in`, an infinity or a NaN halts the block with the frame's index and writes nothing else. -/
def Obligations.InReadTakesAFiniteSample : Prop :=
  decode (.seq 0x2) = .instr .inRead ∧
  ∀ s : State, s.n.toNat < Config.impl.maxFrames →
    let a := 8 * s.n.toNat
    let w : Word := Memory.read s.mem (a + 3) ++ Memory.read s.mem (a + 2) ++ Memory.read s.mem (a + 1)
      ++ Memory.read s.mem a
    (w.extractLsb' 23 8 ≠ 0xFF → exec .inRead s = .next { s with
      xIn := w
      seq := 0x3 }) ∧
    (w.extractLsb' 23 8 = 0xFF → exec .inRead s = .next { s with
      faulted := true
      fcode := 0x4
      faultInfo := BitVec.ofNat 32 s.n.toNat
      seq := 0x0
      busy := false })

/-- OUT_WRITE (R204, R63): after it the four output words of frame `n` hold `y`, and every byte outside them,
and every register but `seq`, is what it was. -/
def Obligations.OutWriteStoresTheFrame : Prop :=
  decode (.seq 0xA) = .instr .outWrite ∧
  ∀ s : State, s.n.toNat < Config.impl.maxFrames → Memory.wf s.mem = true → ∃ t,
    exec .outWrite s = .next t ∧
    t = { s with
      mem := t.mem
      seq := 0xB } ∧
    Memory.wf t.mem = true ∧
    (∀ (r : Region) (k : Nat), (r = .mainOut ∨ r = .subOut) → (k = 2 * s.n.toNat ∨ k = 2 * s.n.toNat + 1) →
      hostRead t r k = some s.y) ∧
    ∀ a : Nat,
      (∀ (r : Region) (k : Nat), (r = .mainOut ∨ r = .subOut) → (k = 2 * s.n.toNat ∨ k = 2 * s.n.toNat + 1) →
        ¬(wordAddr Config.impl r k ≤ a ∧ a < wordAddr Config.impl r k + 4)) →
      Memory.read t.mem a = Memory.read s.mem a

/-- NEXT (R205): the next frame, or the end of the block. The premise is R205's own: the 16-bit `n` does not
wrap, because `n` < `nfr` ≤ `MAX_FRAMES` ≤ 65535 wherever NEXT runs. -/
def Obligations.NextEndsTheFrame : Prop :=
  decode (.seq 0xC) = .instr .next ∧
  ∀ s : State, s.n.toNat < 65535 → ∃ n : BitVec 16,
    n.toNat = s.n.toNat + 1 ∧
    exec .next s = .next (if s.n.toNat + 1 < s.nfr.toNat
      then { s with
        n := n
        seq := 0x2 }
      else { s with
        n := n
        seq := 0x0
        busy := false })

/-- The writer table (R51): an instruction that answers a next state was ignored, raised a fault, or wrote at
most the registers the table lists for it, and OUT_WRITE only the bytes of its frame's four output words (R63);
hardware reset leaves the buffer memory. BLK_SETUP of a block with no frames also clears BUSY, as R137 and R101
say and the table does not (log entry 20). -/
def Obligations.NothingWritesOutsideTheWriterTable : Prop :=
  (∀ (i : Instr) (s t : State), exec i s = .next t →
    t = s ∨
    t = { s with
      faulted := true
      fcode := t.fcode
      faultInfo := t.faultInfo
      seq := 0x0
      busy := false } ∨
    (match i with
      | .load => t = { t with
          busy := s.busy
          faulted := s.faulted
          fcode := s.fcode
          faultInfo := s.faultInfo
          mem := s.mem
          host := s.host }
      | .proc _ => t = { s with
          seq := t.seq
          n := t.n
          nfr := t.nfr
          busy := t.busy }
      | .setp _ _ => t = { s with time := t.time } ∨ t = { s with depth := t.depth }
      | .resume => t = { s with
          z1 := t.z1
          out := t.out
          gain := t.gain }
      | .blkSetup => t = { s with
          lfoIncLessOne := t.lfoIncLessOne
          seq := t.seq
          busy := t.busy } ∧ (0 < s.nfr.toNat → t.busy = s.busy)
      | .inRead => t = { s with
          xIn := t.xIn
          seq := t.seq }
      | .lfoStep => t = { s with
          lfoPhase := t.lfoPhase
          lfoAux := t.lfoAux
          lfoPrimary := t.lfoPrimary
          lfoSecondary := t.lfoSecondary
          seq := t.seq }
      | .shapePre => t = { s with
          uQ := t.uQ
          seq := t.seq }
      | .lookup => t = { s with
          lQ := t.lQ
          seq := t.seq }
      | .coef => t = { s with
          b0 := t.b0
          seq := t.seq }
      | .mix => t = { s with
          out := t.out
          k := t.k
          seq := t.seq } ∧ ∀ j : Fin 9, j ≠ 0 → t.out[j] = s.out[j]
      | .stage => t = { s with
          z1 := t.z1
          out := t.out
          k := t.k
          seq := t.seq } ∧
          ∀ j : Fin 9, j.val ≠ s.k.toNat → t.z1[j] = s.z1[j] ∧ t.out[j] = s.out[j]
      | .limit => t = { s with
          y := t.y
          seq := t.seq }
      | .outWrite => t = { s with
          mem := t.mem
          seq := t.seq } ∧
          ∀ a : Nat,
            (∀ (r : Region) (k : Nat), (r = .mainOut ∨ r = .subOut) →
              (k = 2 * s.n.toNat ∨ k = 2 * s.n.toNat + 1) →
              ¬(wordAddr Config.impl r k ≤ a ∧ a < wordAddr Config.impl r k + 4)) →
            Memory.read t.mem a = Memory.read s.mem a
      | .gainStep => t = { s with
          gain := t.gain
          seq := t.seq }
      | .next => t = { s with
          n := t.n
          seq := t.seq
          busy := t.busy })) ∧
  (∀ (s t : State) (rest : List HostAction), s.host = .hardReset :: rest → step s = .next t →
    t.mem = s.mem ∧ t.host = rest)

/-! ## The parameters are read where the rules say (10_state.md R36, R37, R43, 46_pipeline.md R209) -/

/-- `time` is read by BLK_SETUP only, `depth` by SHAPE_PRE and MIX only, `gain` by MIX and GAIN_STEP only
(R209), and `lfo_primary` by nothing (R43): no other instruction's outcome depends on the register, but for the
register's own value where the instruction leaves it. -/
def Obligations.ParametersAreReadWhereTheRulesSay : Prop :=
  ∀ (i : Instr) (s : State) (v : F32),
    (i ≠ .blkSetup →
      SameBut (fun t' t => { t' with time := t.time }) (exec i s) (exec i { s with time := v })) ∧
    (i ≠ .shapePre → i ≠ .mix →
      SameBut (fun t' t => { t' with depth := t.depth }) (exec i s) (exec i { s with depth := v })) ∧
    (i ≠ .mix → i ≠ .gainStep →
      SameBut (fun t' t => { t' with gain := t.gain }) (exec i s) (exec i { s with gain := v })) ∧
    SameBut (fun t' t => { t' with lfoPrimary := t.lfoPrimary }) (exec i s)
      (exec i { s with lfoPrimary := v })

/-! ## The step -/

/-- A step runs the decoded instruction: the micro-operation of `seq` when it is the sequencer's turn, the
command when the host's next action is its transaction. What the step adds is that the action is taken off the
list; a host that waits for an idle block stays (log entry 3). -/
def Obligations.StepRunsTheDecodedInstruction : Prop :=
  ∀ (s : State) (i : Instr),
    (s.faulted = false → decode (.seq s.seq) = .instr i →
      (s.host = [] → step s = exec i s) ∧
      (∀ rest, s.host = .sequencer :: rest → step s = exec i { s with host := rest }) ∧
      (∀ rest, s.host = .wait :: rest → s.busy = true → step s = exec i s)) ∧
    (∀ cw dw rest, s.host = .command cw dw :: rest → decode (.cmd cw dw) = .instr i →
      step s = exec i { s with host := rest })

/-- Between blocks the sequencer has no step (R100, R210): its turn changes nothing. A reserved code has none
either and is stuck (R99, I14). That a turn without a step is a step of the model, and not the end of it, is the
model's choice (log entries 3 and 8). -/
def Obligations.IdleSequencerDoesNothing : Prop :=
  ∀ s : State, s.faulted = false →
    (s.seq = 0x0 →
      (s.host = [] → step s = .next s) ∧
      (∀ rest, s.host = .sequencer :: rest → step s = .next { s with host := rest })) ∧
    (0xD ≤ s.seq.toNat → s.host = [] → step s = .fault .reservedSeqCode)

/-- The invariant holds after reset (R52, R53, and the rules named at `BlockInvariant`). That `lfo_inc` ≥ 1 holds by
the form in which State holds it is log entry 10, and the canonical form of the memory is log entry 5. -/
def Obligations.ResetMeetsTheInvariant : Prop := BlockInvariant State.reset

/-- Every step keeps the invariant (the spec's own inference in R52, `lfo_inc` ≥ 1 with it, and the rules named at
`BlockInvariant`), whatever the host and the platform do. That `lfo_inc` ≥ 1 holds by the form in which State holds
the register is log entry 10, and the canonical form of the memory is the model's own (log entry 5). -/
def Obligations.EveryStepKeepsTheInvariant : Prop :=
  ∀ s t : State, BlockInvariant s → step s = .next t → BlockInvariant t

/-- In a state that meets the invariant, with a host that writes only words that exist, every step answers a
next state, and the host's list stays such a list. For a running block this is R211. That an idle or halted
block has a step too, one that changes nothing, is the model's choice (log entry 3), and so is the premise on
the host, a write to no word being a stop of the model (log entry 6). -/
def Obligations.MachineNeverStops : Prop :=
  ∀ s : State, BlockInvariant s → HostOk s → ∃ t, step s = .next t ∧ HostOk t

/-- The buffer memory keeps the canonical form the model holds it in (log entry 5), in every state. -/
def Obligations.MemoryStaysCanonical : Prop :=
  ∀ s t : State, Memory.wf s.mem = true → step s = .next t → Memory.wf t.mem = true

/-- A block runs to completion (R202, R210, R297; the count is the spec's own inference in R293): with finite
inputs and no host action, a started block of `nfr` frames is busy for exactly 1 + 18 × nfr steps, one for
BLK_SETUP and one for each of the 18 micro-operations R101 lists for a frame, and then is idle with no fault.
R101 and R293 say 19; their own list has 18 (log entry 15). -/
def Obligations.BlockRunsToCompletion : Prop :=
  ∀ s : State, BlockInvariant s → s.host = [] → s.seq = 0x1 → InputsFinite s →
    (∀ m, m < 1 + 18 * s.nfr.toNat → ∃ t, Sys2Proof.core.run m s = .next t ∧ t.busy = true) ∧
    ∃ t, Sys2Proof.core.run (1 + 18 * s.nfr.toNat) s = .next t ∧
      t.busy = false ∧ t.seq = 0x0 ∧ t.faulted = false ∧ t.n = s.nfr ∧ t.nfr = s.nfr

/-- What a block leaves in the buffer memory (R63, R206) after its 1 + 18 × nfr steps (log entry 15; R293 says
19 a frame): each of its frames holds one sample on all four output words, and every other word of the four
regions, the inputs among them, is what it was. -/
def Obligations.BlockWritesOneSampleToAllChannels : Prop :=
  ∀ s : State, BlockInvariant s → s.host = [] → s.seq = 0x1 → InputsFinite s →
    ∃ t, Sys2Proof.core.run (1 + 18 * s.nfr.toNat) s = .next t ∧
      (∀ j, j < s.nfr.toNat → ∃ y : F32,
        hostRead t .mainOut (2 * j) = some y ∧ hostRead t .mainOut (2 * j + 1) = some y ∧
        hostRead t .subOut (2 * j) = some y ∧ hostRead t .subOut (2 * j + 1) = some y) ∧
      ∀ (r : Region) (k : Nat), (r = .mainIn ∨ r = .subIn ∨ 2 * s.nfr.toNat ≤ k) →
        hostRead t r k = hostRead s r k

/-! ## What the host sees (10_state.md R48, R50, 20_memory.md R64, R65, R72, R73) -/

/-- The fields of STATUS (R48). -/
def Obligations.StatusWordHasItsFields : Prop :=
  ∀ s : State,
    (statusWord s).getLsbD 0 = s.busy ∧
    (statusWord s).getLsbD 1 = s.faulted ∧
    (statusWord s).extractLsb' 2 2 = 0 ∧
    (statusWord s).extractLsb' 4 4 = s.fcode ∧
    (statusWord s).extractLsb' 8 4 = s.seq ∧
    (statusWord s).extractLsb' 12 20 = 0

/-- The register window (R50): the registers at their offsets, the cells at 0x40 and 0x80, 0 at every other word
offset up to 0xFC; and a write to the window changes no register and no memory. That an offset that is no
multiple of 4 or is above 0xFC reads nothing, and that bits 31:4 of the word of `k` read 0, is the model's choice
(log entry 17), and so is what 32 bits show of an `lfo_inc` of 2^32, a word that is not 0 (log entry 10). -/
def Obligations.RegisterWindowShowsTheRegisters : Prop :=
  ∀ s : State,
    readWindow s 0x00 = some (statusWord s) ∧
    readWindow s 0x04 = some s.faultInfo ∧
    readWindow s 0x08 = some s.time ∧
    readWindow s 0x0C = some s.depth ∧
    readWindow s 0x10 = some s.gain ∧
    (∃ w, readWindow s 0x14 = some w ∧ 1 ≤ w.toNat ∧ (s.lfoInc < 2 ^ 32 → w.toNat = s.lfoInc)) ∧
    readWindow s 0x18 = some s.lfoThreshold ∧
    readWindow s 0x1C = some s.lfoPhase ∧
    readWindow s 0x20 = some s.lfoPrimary ∧
    readWindow s 0x24 = some s.lfoSecondary ∧
    (∃ w, readWindow s 0x28 = some w ∧ w.extractLsb' 0 16 = s.n ∧ w.extractLsb' 16 16 = s.nfr) ∧
    (∃ w, readWindow s 0x2C = some w ∧ w.extractLsb' 0 4 = s.k ∧ w.extractLsb' 4 28 = 0) ∧
    (∀ i : Fin 9, readWindow s (0x40 + 4 * i.val) = some s.z1[i] ∧
      readWindow s (0x80 + 4 * i.val) = some s.out[i]) ∧
    (∀ off, off % 4 = 0 → off ≤ 0xFC →
      ((0x2C < off ∧ off < 0x40) ∨ (0x60 < off ∧ off < 0x80) ∨ 0xA0 < off) → readWindow s off = some 0) ∧
    (∀ off, off % 4 ≠ 0 ∨ 0xFC < off → readWindow s off = none) ∧
    (∀ off v rest, s.host = .windowWrite off v :: rest → step s = .next { s with host := rest })

/-- The words of the four regions lie at the offsets of R64, apart from each other (the spec's own inference in
R72), and fill the `32 × MAX_FRAMES` bytes of the byte view. -/
def Obligations.BufferWordsLieApart : Prop :=
  ∀ (r r' : Region) (k k' : Nat), k < 2 * Config.impl.maxFrames → k' < 2 * Config.impl.maxFrames →
    (wordAddr Config.impl r k = (match r with
      | .mainIn => 0
      | .mainOut => 8 * Config.impl.maxFrames
      | .subIn => 16 * Config.impl.maxFrames
      | .subOut => 24 * Config.impl.maxFrames) + 4 * k) ∧
    wordAddr Config.impl r k + 4 ≤ 32 * Config.impl.maxFrames ∧
    (¬(r = r' ∧ k = k') → wordAddr Config.impl r k + 4 ≤ wordAddr Config.impl r' k' ∨
      wordAddr Config.impl r' k' + 4 ≤ wordAddr Config.impl r k)

/-- A host write of a buffer word takes effect at its own step, whatever the block does (R73, R291): the word
reads as written, its bytes little-endian (R65), every other word and every register is what it was. A word that
does not exist stops the model (log entry 6). -/
def Obligations.HostWriteTakesEffectAtItsStep : Prop :=
  ∀ (s : State) (r : Region) (k : Nat) (v : Word) (rest : List HostAction),
    s.host = .bufferWrite r k v :: rest → Memory.wf s.mem = true →
    (k < 2 * Config.impl.maxFrames → ∃ t, step s = .next t ∧
      t = { s with
        mem := t.mem
        host := rest } ∧
      hostRead t r k = some v ∧
      (∀ j, j < 4 → hostReadByte t (wordAddr Config.impl r k + j) = some (v.extractLsb' (8 * j) 8)) ∧
      ∀ r' k', ¬(r' = r ∧ k' = k) → hostRead t r' k' = hostRead s r' k') ∧
    (2 * Config.impl.maxFrames ≤ k → step s = .fault .noSuchWord)

/-! ## The float operations (00_scope.md R18, R25, R29) -/

/-- The sum, the difference and the product of two finite values, subnormals kept, are nearest to the exact
result (R18), when they do not overflow: no finite binary32 is nearer. In units of 2^-149 the exact product is
the product of the units divided by 2^149. -/
def Obligations.FloatResultsAreNearest : Prop :=
  ∀ a b x : F32, Binary32.isFinite a = true → Binary32.isFinite b = true → Binary32.isFinite x = true →
    (Binary32.isFinite (Binary32.add .ieee a b) = true →
      |Binary32.units (Binary32.add .ieee a b) - (Binary32.units a + Binary32.units b)|
        ≤ |Binary32.units x - (Binary32.units a + Binary32.units b)|) ∧
    (Binary32.isFinite (Binary32.sub .ieee a b) = true →
      |Binary32.units (Binary32.sub .ieee a b) - (Binary32.units a - Binary32.units b)|
        ≤ |Binary32.units x - (Binary32.units a - Binary32.units b)|) ∧
    (Binary32.isFinite (Binary32.mul .ieee a b) = true →
      |Binary32.units (Binary32.mul .ieee a b) * 2 ^ 149 - Binary32.units a * Binary32.units b|
        ≤ |Binary32.units x * 2 ^ 149 - Binary32.units a * Binary32.units b|)

/-- A result that is a NaN is the canonical one, an operation with a NaN operand gives it, and a comparison with
a NaN is false (R29), in both modes. -/
def Obligations.FloatNaNsAreCanonical : Prop :=
  ∀ (m : DenormalMode) (a b : F32),
    (Binary32.isNaN (Binary32.add m a b) = true → Binary32.add m a b = 0x7FC00000) ∧
    (Binary32.isNaN (Binary32.sub m a b) = true → Binary32.sub m a b = 0x7FC00000) ∧
    (Binary32.isNaN (Binary32.mul m a b) = true → Binary32.mul m a b = 0x7FC00000) ∧
    (Binary32.isNaN (Binary32.div m a b) = true → Binary32.div m a b = 0x7FC00000) ∧
    (Binary32.isNaN a = true ∨ Binary32.isNaN b = true →
      Binary32.add m a b = 0x7FC00000 ∧ Binary32.sub m a b = 0x7FC00000 ∧ Binary32.mul m a b = 0x7FC00000 ∧
      Binary32.div m a b = 0x7FC00000 ∧ Binary32.lt m a b = false)

/-- Under FTZ (R25) no result is a subnormal, and a subnormal operand counts as the zero of its sign. -/
def Obligations.FlushedResultsAreNoSubnormals : Prop :=
  ∀ a b : F32,
    let zeroed (x : F32) : F32 := if x.extractLsb' 23 8 = 0 then x &&& 0x80000000 else x
    let normal (x : F32) : Prop := x.extractLsb' 23 8 ≠ 0 ∨ x.extractLsb' 0 23 = 0
    normal (Binary32.add .ftz a b) ∧ normal (Binary32.sub .ftz a b) ∧
    normal (Binary32.mul .ftz a b) ∧ normal (Binary32.div .ftz a b) ∧
    Binary32.add .ftz a b = Binary32.add .ftz (zeroed a) (zeroed b) ∧
    Binary32.sub .ftz a b = Binary32.sub .ftz (zeroed a) (zeroed b) ∧
    Binary32.mul .ftz a b = Binary32.mul .ftz (zeroed a) (zeroed b) ∧
    Binary32.div .ftz a b = Binary32.div .ftz (zeroed a) (zeroed b)
end

