-- ==== Sys2Proof/Laws/Float.lean ====
section
/-! SUPPORT. What rounding does: the nearest integer, the value of a packed pattern, and the three laws of
`roundMag` every float claim rests on: it keeps representable values, it keeps order, and it is nearest. Then where the results of the
operations stand in the order of the values, and their signs. -/

namespace Sys2Proof.Binary32

/-! ## The nearest integer -/

/-- The distance to the nearest integer is at most a half, and a half only to an even one. -/
theorem nearestEven_bounds (num den : Nat) (hd : 0 < den) :
    2 * num ≤ (2 * nearestEven num den + 1) * den ∧
    2 * nearestEven num den * den ≤ 2 * num + den ∧
    (2 * num = (2 * nearestEven num den + 1) * den → nearestEven num den % 2 = 0) ∧
    (2 * nearestEven num den * den = 2 * num + den → nearestEven num den % 2 = 0) := by
  have hdiv : num = den * (num / den) + num % den := (Nat.div_add_mod num den).symm
  have hmod : num % den < den := Nat.mod_lt num hd
  unfold nearestEven
  generalize hq : num / den = q at *
  generalize hr : num % den = r at *
  have e1 : (2 * q + 1) * den = 2 * (den * q) + den := by ring
  have e2 : 2 * q * den = 2 * (den * q) := by ring
  have e3 : (2 * (q + 1) + 1) * den = 2 * (den * q) + 3 * den := by ring
  have e4 : 2 * (q + 1) * den = 2 * (den * q) + 2 * den := by ring
  split
  · rename_i h
    rw [e3, e4]
    refine ⟨by omega, by omega, fun h' => by omega, fun h' => ?_⟩
    rcases h with h | ⟨h, hodd⟩
    · omega
    · omega
  · rename_i h
    rw [e1, e2]
    refine ⟨by omega, by omega, fun h' => ?_, fun h' => by omega⟩
    have : 2 * r = den := by omega
    have : ¬q % 2 = 1 := fun ho => h (Or.inr ⟨this, ho⟩)
    omega

/-- Rounding keeps order: `num / den ≤ num' / den'`. -/
theorem nearestEven_mono {num den num' den' : Nat} (hd : 0 < den) (hd' : 0 < den')
    (h : num * den' ≤ num' * den) : nearestEven num den ≤ nearestEven num' den' := by
  obtain ⟨-, b, -, d⟩ := nearestEven_bounds num den hd
  obtain ⟨a', -, c', -⟩ := nearestEven_bounds num' den' hd'
  generalize nearestEven num den = m at *
  generalize nearestEven num' den' = m' at *
  by_contra hlt
  have hle : m' + 1 ≤ m := by omega
  have hp : 0 < den * den' := Nat.mul_pos hd hd'
  have k1 : 2 * m * den * den' ≤ (2 * num + den) * den' := Nat.mul_le_mul_right den' b
  have k2 : 2 * num' * den ≤ (2 * m' + 1) * den' * den := Nat.mul_le_mul_right den a'
  have k3 : 2 * (m' + 1) * (den * den') ≤ 2 * m * (den * den') :=
    Nat.mul_le_mul_right _ (by omega)
  have k4 : 2 * (num * den') ≤ 2 * (num' * den) := Nat.mul_le_mul_left 2 h
  have r1 : 2 * m * den * den' = 2 * m * (den * den') := by ring
  have r2 : (2 * num + den) * den' = 2 * (num * den') + den * den' := by ring
  have r3 : 2 * num' * den = 2 * (num' * den) := by ring
  have r4 : (2 * m' + 1) * den' * den = 2 * m' * (den * den') + den * den' := by ring
  have r5 : 2 * (m' + 1) * (den * den') = 2 * m' * (den * den') + 2 * (den * den') := by ring
  rw [r1, r2] at k1
  rw [r3, r4] at k2
  rw [r5] at k3
  have hm : 2 * m * (den * den') = 2 * (m' + 1) * (den * den') := by rw [r5]; omega
  have hm' : m = m' + 1 := by
    have := Nat.eq_of_mul_eq_mul_right hp hm
    omega
  have t1 : (2 * m * den) * den' = (2 * num + den) * den' := by rw [r1, r2]; omega
  have t2 : (2 * num') * den = ((2 * m' + 1) * den') * den := by rw [r3, r4]; omega
  have := d (Nat.eq_of_mul_eq_mul_right hd' t1)
  have := c' (Nat.eq_of_mul_eq_mul_right hd t2)
  omega

/-- An integer is its own nearest integer. -/
theorem nearestEven_exact (m den : Nat) (hd : 0 < den) : nearestEven (m * den) den = m := by
  unfold nearestEven
  rw [Nat.mul_mod_left, Nat.mul_div_cancel m hd]
  rw [if_neg (by omega)]

/-! ## Patterns and their values -/

/-- The value of a pattern put together from an exponent step and a significand. -/
theorem magUnits_pack (e m : Nat) (hm : m ≤ 2 ^ 24) (he : e = 0 ∨ 2 ^ 23 ≤ m) :
    magUnits (e * 2 ^ 23 + m) = m * 2 ^ e := by
  unfold magUnits
  by_cases h1 : m < 2 ^ 23
  · have h0 : e = 0 := by omega
    subst h0
    have d : (0 * 2 ^ 23 + m) / 2 ^ 23 = 0 := by omega
    have r : (0 * 2 ^ 23 + m) % 2 ^ 23 = m := by omega
    rw [d, r]; simp
  · by_cases h2 : m < 2 ^ 24
    · have d : (e * 2 ^ 23 + m) / 2 ^ 23 = e + 1 := by omega
      have r : (e * 2 ^ 23 + m) % 2 ^ 23 = m - 2 ^ 23 := by omega
      rw [d, r, if_neg (by omega)]
      have : 2 ^ 23 + (m - 2 ^ 23) = m := by omega
      rw [this]; simp
    · have hm' : m = 2 ^ 24 := by omega
      subst hm'
      have d : (e * 2 ^ 23 + 2 ^ 24) / 2 ^ 23 = e + 2 := by omega
      have r : (e * 2 ^ 23 + 2 ^ 24) % 2 ^ 23 = 0 := by omega
      rw [d, r, if_neg (by omega)]
      have : e + 2 - 1 = e + 1 := by omega
      rw [this, Nat.pow_succ]
      ring

/-- Every pattern is such a pack. -/
theorem pack_of_magnitude (p : Nat) : ∃ e m, p = e * 2 ^ 23 + m ∧ m < 2 ^ 24 ∧ (e = 0 ∨ 2 ^ 23 ≤ m) := by
  by_cases h : p < 2 ^ 24
  · exact ⟨0, p, by omega, h, Or.inl rfl⟩
  · exact ⟨p / 2 ^ 23 - 1, p % 2 ^ 23 + 2 ^ 23, by omega, by omega, Or.inr (by omega)⟩

/-- A larger pattern has a larger value. -/
theorem magUnits_strictMono : StrictMono magUnits := by
  apply strictMono_nat_of_lt_succ
  intro p
  obtain ⟨e, m, rfl, hm, he⟩ := pack_of_magnitude p
  have h1 := magUnits_pack e m (by omega) he
  have h2 := magUnits_pack e (m + 1) (by omega) (by omega)
  rw [Nat.add_assoc, h1, h2]
  exact Nat.mul_lt_mul_of_pos_right (Nat.lt_succ_self m) (Nat.two_pow_pos e)

theorem magUnits_le_iff {p p' : Nat} : magUnits p ≤ magUnits p' ↔ p ≤ p' := magUnits_strictMono.le_iff_le

/-! ## Rounding to a pattern -/

/-- The exponent step `roundMag` rounds at. -/
def roundStep (num den : Nat) : Nat := Nat.log2 (num / den) - 23

/-- The significand `roundMag` rounds to. -/
def roundSig (num den : Nat) : Nat := nearestEven num (den * 2 ^ roundStep num den)

theorem roundMag_eq (num den : Nat) :
    roundMag num den = min (roundStep num den * 2 ^ 23 + roundSig num den) 0x7F800000 := rfl

/-- At its step the value has a quotient of at most 24 bits, and of 24 bits above the first step. -/
theorem roundStep_spec (num den : Nat) (hd : 0 < den) :
    num < 2 ^ 24 * (den * 2 ^ roundStep num den) ∧
    (roundStep num den = 0 ∨ 2 ^ 23 * (den * 2 ^ roundStep num den) ≤ num) := by
  have hlt : num < (num / den + 1) * den := by
    have := Nat.div_add_mod num den
    have := Nat.mod_lt num hd
    have : (num / den + 1) * den = den * (num / den) + den := by ring
    omega
  have hge : num / den * den ≤ num := Nat.div_mul_le_self num den
  unfold roundStep
  generalize num / den = q at *
  by_cases hq : q < 2 ^ 24
  · have hs : Nat.log2 q - 23 = 0 := by
      by_cases h0 : q = 0
      · subst h0; simp
      · have : Nat.log2 q < 24 := (Nat.log2_lt h0).2 hq
        omega
    rw [hs]
    refine ⟨?_, Or.inl rfl⟩
    calc num < (q + 1) * den := hlt
      _ ≤ 2 ^ 24 * den := Nat.mul_le_mul_right den hq
      _ = 2 ^ 24 * (den * 2 ^ 0) := by ring
  · have h0 : q ≠ 0 := by omega
    have hl : 24 ≤ Nat.log2 q := (Nat.le_log2 h0).2 (by omega)
    have hlow : 2 ^ Nat.log2 q ≤ q := Nat.log2_self_le h0
    have hup : q < 2 ^ (Nat.log2 q + 1) := Nat.lt_log2_self
    obtain ⟨e, he⟩ : ∃ e, Nat.log2 q = 23 + e := ⟨Nat.log2 q - 23, by omega⟩
    have hs : Nat.log2 q - 23 = e := by omega
    rw [hs]
    rw [he] at hlow hup
    refine ⟨?_, Or.inr ?_⟩
    · calc num < (q + 1) * den := hlt
        _ ≤ 2 ^ (23 + e + 1) * den := Nat.mul_le_mul_right den hup
        _ = 2 ^ 24 * (den * 2 ^ e) := by rw [Nat.pow_succ, Nat.pow_add]; ring
    · calc 2 ^ 23 * (den * 2 ^ e) = 2 ^ (23 + e) * den := by rw [Nat.pow_add]; ring
        _ ≤ q * den := Nat.mul_le_mul_right den hlow
        _ ≤ num := hge

/-- The significand fits, with one carry at most. -/
theorem roundSig_spec (num den : Nat) (hd : 0 < den) :
    roundSig num den ≤ 2 ^ 24 ∧ (roundStep num den = 0 ∨ 2 ^ 23 ≤ roundSig num den) := by
  obtain ⟨h1, h2⟩ := roundStep_spec num den hd
  have hp : 0 < den * 2 ^ roundStep num den := Nat.mul_pos hd (Nat.two_pow_pos _)
  unfold roundSig
  constructor
  · have := nearestEven_mono (num := num) (num' := 2 ^ 24 * (den * 2 ^ roundStep num den)) hp hp
      (Nat.mul_le_mul_right _ h1.le)
    rwa [nearestEven_exact _ _ hp] at this
  · rcases h2 with h | h
    · exact Or.inl h
    · have := nearestEven_mono (num := 2 ^ 23 * (den * 2 ^ roundStep num den)) (num' := num) hp hp
        (Nat.mul_le_mul_right _ h)
      rw [nearestEven_exact _ _ hp] at this
      exact Or.inr this

theorem roundMag_le_infinity (num den : Nat) : roundMag num den ≤ 0x7F800000 := Nat.min_le_right _ _

/-- The value of the rounded pattern, when it did not overflow. -/
theorem magUnits_roundMag (num den : Nat) (hd : 0 < den) (h : roundMag num den < 0x7F800000) :
    magUnits (roundMag num den) = roundSig num den * 2 ^ roundStep num den := by
  rw [roundMag_eq] at h ⊢
  rw [Nat.min_eq_left (by omega)]
  exact magUnits_pack _ _ (roundSig_spec num den hd).1 (roundSig_spec num den hd).2

/-- A larger value is rounded at a step that is not smaller. -/
theorem roundStep_mono {num den num' den' : Nat} (hd : 0 < den) (hd' : 0 < den')
    (h : num * den' ≤ num' * den) : roundStep num den ≤ roundStep num' den' := by
  have hq : num / den ≤ num' / den' := by
    rw [Nat.le_div_iff_mul_le hd']
    have h1 : num / den * den' * den ≤ num' * den := by
      calc num / den * den' * den = num / den * den * den' := by ring
        _ ≤ num * den' := Nat.mul_le_mul_right _ (Nat.div_mul_le_self _ _)
        _ ≤ num' * den := h
    exact Nat.le_of_mul_le_mul_right h1 hd
  unfold roundStep
  generalize num / den = q at *
  generalize num' / den' = q' at *
  by_cases h0 : q = 0
  · rw [h0]; simp
  · have h0' : q' ≠ 0 := by omega
    have : Nat.log2 q ≤ Nat.log2 q' := by
      rw [Nat.le_log2 h0']
      exact Nat.le_trans (Nat.log2_self_le h0) hq
    omega

/-- Rounding keeps order: `num / den ≤ num' / den'`. -/
theorem roundMag_mono {num den num' den' : Nat} (hd : 0 < den) (hd' : 0 < den')
    (h : num * den' ≤ num' * den) : roundMag num den ≤ roundMag num' den' := by
  rw [roundMag_eq, roundMag_eq]
  have hstep := roundStep_mono hd hd' h
  obtain ⟨s1, -⟩ := roundSig_spec num den hd
  obtain ⟨-, s2⟩ := roundSig_spec num' den' hd'
  suffices roundStep num den * 2 ^ 23 + roundSig num den
      ≤ roundStep num' den' * 2 ^ 23 + roundSig num' den' by omega
  rcases Nat.lt_or_eq_of_le hstep with hlt | heq
  · omega
  · have : roundSig num den ≤ roundSig num' den' := by
      unfold roundSig
      rw [← heq]
      apply nearestEven_mono (Nat.mul_pos hd (Nat.two_pow_pos _)) (Nat.mul_pos hd' (Nat.two_pow_pos _))
      calc num * (den' * 2 ^ roundStep num den) = num * den' * 2 ^ roundStep num den := by ring
        _ ≤ num' * den * 2 ^ roundStep num den := Nat.mul_le_mul_right _ h
        _ = num' * (den * 2 ^ roundStep num den) := by ring
    omega

/-- A representable value is its own rounding. -/
theorem roundMag_exact (p den : Nat) (hd : 0 < den) (hp : p ≤ 0x7F800000) :
    roundMag (magUnits p * den) den = p := by
  obtain ⟨e, m, rfl, hm, he⟩ := pack_of_magnitude p
  have hv := magUnits_pack e m (by omega) he
  rw [hv]
  have hstep : roundStep (m * 2 ^ e * den) den = e := by
    unfold roundStep
    rw [Nat.mul_div_cancel _ hd]
    rcases he with rfl | he
    · by_cases h0 : m = 0
      · subst h0; simp
      · have : Nat.log2 (m * 2 ^ 0) < 24 := (Nat.log2_lt (by simpa using h0)).2 (by simpa using hm)
        omega
    · have h0 : m * 2 ^ e ≠ 0 := Nat.mul_ne_zero (by omega) (Nat.two_pow_pos e).ne'
      have hlow : 23 + e ≤ Nat.log2 (m * 2 ^ e) := by
        rw [Nat.le_log2 h0, Nat.pow_add]
        exact Nat.mul_le_mul_right _ he
      have hup : Nat.log2 (m * 2 ^ e) < 24 + e := by
        rw [Nat.log2_lt h0, Nat.pow_add]
        exact Nat.mul_lt_mul_of_pos_right hm (Nat.two_pow_pos e)
      omega
  rw [roundMag_eq]
  unfold roundSig
  rw [hstep]
  have : m * 2 ^ e * den = m * (den * 2 ^ e) := by ring
  rw [this, nearestEven_exact _ _ (Nat.mul_pos hd (Nat.two_pow_pos _))]
  exact Nat.min_eq_left hp

/-- No pattern is nearer than the rounded one, when it did not overflow: for every pattern `p`, the
rounded value is at most as far from `num / den` as the value of `p` is. -/
theorem roundMag_nearest (num den p : Nat) (hd : 0 < den) (h : roundMag num den < 0x7F800000) :
    |(magUnits (roundMag num den) * den : Int) - num| ≤ |(magUnits p * den : Int) - num| := by
  rw [show (magUnits (roundMag num den) : Int) = (roundSig num den * 2 ^ roundStep num den : Nat) from
    congrArg _ (magUnits_roundMag num den hd h)]
  obtain ⟨-, hlow⟩ := roundStep_spec num den hd
  have hp : 0 < den * 2 ^ roundStep num den := Nat.mul_pos hd (Nat.two_pow_pos _)
  obtain ⟨b1, b2, -, -⟩ := nearestEven_bounds num (den * 2 ^ roundStep num den) hp
  change 2 * num ≤ (2 * roundSig num den + 1) * _ at b1
  change 2 * roundSig num den * _ ≤ _ at b2
  -- among the multiples of the step, the significand is a nearest one
  have hmul : ∀ j : Nat, |((roundSig num den * 2 ^ roundStep num den : Nat) * den : Int) - num|
      ≤ |((j * 2 ^ roundStep num den : Nat) * den : Int) - num| := by
    intro j
    generalize roundStep num den = e at *
    generalize roundSig num den = m at *
    have ea : ((m * 2 ^ e : Nat) * den : Int) = m * (den * 2 ^ e : Nat) := by push_cast; ring
    have eb : ((j * 2 ^ e : Nat) * den : Int) = j * (den * 2 ^ e : Nat) := by push_cast; ring
    rw [ea, eb]
    generalize den * 2 ^ e = d at *
    have b1' : (2 * num : Int) ≤ (2 * m + 1) * d := by exact_mod_cast b1
    have b2' : (2 * m * d : Int) ≤ 2 * num + d := by exact_mod_cast b2
    have hd0 : (0 : Int) ≤ d := Int.natCast_nonneg d
    rcases lt_trichotomy j m with hj | hj | hj
    · have : ((j : Int) + 1) * d ≤ m * d := mul_le_mul_of_nonneg_right (by exact_mod_cast hj) hd0
      rw [abs_le]
      have key : ((m : Int) * d - num) ≤ num - j * d := by linarith
      have key2 : (num : Int) - m * d ≤ num - j * d := by linarith
      have : (num : Int) - j * d ≤ |(j : Int) * d - num| := by rw [abs_sub_comm]; exact le_abs_self _
      constructor <;> linarith
    · rw [hj]
    · have : ((m : Int) + 1) * d ≤ j * d := mul_le_mul_of_nonneg_right (by exact_mod_cast hj) hd0
      have : (j : Int) * d - num ≤ |(j : Int) * d - num| := le_abs_self _
      rw [abs_le]
      constructor <;> linarith
  obtain ⟨e', m', rfl, hm', he'⟩ := pack_of_magnitude p
  rw [magUnits_pack e' m' (by omega) he']
  by_cases hee : roundStep num den ≤ e'
  · obtain ⟨x, rfl⟩ := Nat.exists_eq_add_of_le hee
    have : m' * 2 ^ (roundStep num den + x) = m' * 2 ^ x * 2 ^ roundStep num den := by
      rw [Nat.pow_add]; ring
    rw [this]
    exact hmul _
  · -- a pattern of a lower step is below the first multiple of 24 bits, which is not above the value
    have hstep : ¬roundStep num den = 0 := by omega
    have hlow' := hlow.resolve_left hstep
    refine le_trans (hmul (2 ^ 23)) ?_
    have hsmall : m' * 2 ^ e' ≤ 2 ^ 23 * 2 ^ roundStep num den := by
      calc m' * 2 ^ e' ≤ 2 ^ 24 * 2 ^ e' := Nat.mul_le_mul_right _ hm'.le
        _ = 2 ^ 23 * 2 ^ (e' + 1) := by rw [Nat.pow_succ]; ring
        _ ≤ 2 ^ 23 * 2 ^ roundStep num den :=
          Nat.mul_le_mul_left _ (Nat.pow_le_pow_right (by omega) (by omega))
    have h1 : ((m' * 2 ^ e' : Nat) * den : Int) ≤ (2 ^ 23 * 2 ^ roundStep num den : Nat) * den := by
      exact_mod_cast Nat.mul_le_mul_right den hsmall
    have h2 : ((2 ^ 23 * 2 ^ roundStep num den : Nat) * den : Int) ≤ num := by
      have : 2 ^ 23 * 2 ^ roundStep num den * den ≤ num := by
        calc 2 ^ 23 * 2 ^ roundStep num den * den = 2 ^ 23 * (den * 2 ^ roundStep num den) := by ring
          _ ≤ num := hlow'
      exact_mod_cast this
    rw [abs_of_nonpos (by linarith), abs_of_nonpos (by linarith)]
    linarith

/-! ## The order of the results -/

/-- The order key of the binary32 nearest to `v / den` units of 2^-149. -/
def roundKey (v : Int) (den : Nat) : Int :=
  if v < 0 then -(roundMag v.natAbs den : Int) else (roundMag v.natAbs den : Int)

/-- The order key after `flush`. -/
def flushKey (m : DenormalMode) (k : Int) : Int :=
  match m with
  | .ieee => k
  | .ftz => if k.natAbs < 2 ^ 23 then 0 else k

theorem roundMag_zero (den : Nat) (hd : 0 < den) : roundMag 0 den = 0 := by
  simpa [magUnits] using roundMag_exact 0 den hd (by decide)

theorem roundKey_zero (den : Nat) (hd : 0 < den) : roundKey 0 den = 0 := by
  simp [roundKey, roundMag_zero den hd]

theorem roundKey_mono {v v' : Int} {den : Nat} (hd : 0 < den) (h : v ≤ v') : roundKey v den ≤ roundKey v' den := by
  unfold roundKey
  split <;> split
  · have := roundMag_mono (num := v'.natAbs) (num' := v.natAbs) hd hd (Nat.mul_le_mul_right _ (by omega))
    omega
  · omega
  · omega
  · have := roundMag_mono (num := v.natAbs) (num' := v'.natAbs) hd hd (Nat.mul_le_mul_right _ (by omega))
    omega

theorem flushKey_mono (m : DenormalMode) {k k' : Int} (h : k ≤ k') : flushKey m k ≤ flushKey m k' := by
  cases m with
  | ieee => exact h
  | ftz => simp only [flushKey]; split <;> split <;> omega

theorem sign_withSign (neg : Bool) (mag : Nat) (h : mag < 2 ^ 31) : sign (withSign neg mag) = neg := by
  have h' : mag < 2147483648 := h
  cases neg
  · have : ¬ 2147483648 ≤ mag % 4294967296 := by omega
    simp [sign, withSign, BitVec.msb_eq_decide, this]
  · have : 2147483648 ≤ (2147483648 + mag) % 4294967296 := by omega
    simp [sign, withSign, BitVec.msb_eq_decide, this]

theorem magnitude_withSign (neg : Bool) (mag : Nat) (h : mag < 2 ^ 31) : magnitude (withSign neg mag) = mag := by
  cases neg <;> simp only [magnitude, withSign, BitVec.toNat_ofNat, if_true, if_false, Bool.false_eq_true] <;> omega

theorem orderKey_withSign (neg : Bool) (mag : Nat) (h : mag < 2 ^ 31) :
    orderKey (withSign neg mag) = if neg then -(mag : Int) else mag := by
  unfold orderKey
  rw [sign_withSign neg mag h, magnitude_withSign neg mag h]

theorem magnitude_lt (x : F32) : magnitude x < 2 ^ 31 := Nat.mod_lt _ (by decide)

/-- A pattern is its sign and its magnitude. -/
theorem withSign_self (x : F32) : withSign (sign x) (magnitude x) = x := by
  apply BitVec.eq_of_toNat_eq
  have hx := x.isLt
  unfold withSign sign magnitude
  rw [BitVec.msb_eq_decide]
  by_cases h : 2 ^ (32 - 1) ≤ x.toNat
  · simp only [h, decide_true, if_true, BitVec.toNat_ofNat]; omega
  · simp only [h, decide_false, Bool.false_eq_true, if_false, BitVec.toNat_ofNat]; omega

theorem sign_flush (m : DenormalMode) (x : F32) : sign (flush m x) = sign x := by
  cases m with
  | ieee => rfl
  | ftz =>
    simp only [flush]
    split
    · exact sign_withSign _ _ (by decide)
    · rfl

theorem orderKey_flush (m : DenormalMode) (x : F32) : orderKey (flush m x) = flushKey m (orderKey x) := by
  cases m with
  | ieee => rfl
  | ftz =>
    have hm : (orderKey x).natAbs = magnitude x := by unfold orderKey; split <;> omega
    simp only [flush, flushKey, hm]
    split
    · rw [orderKey_withSign _ _ (by decide)]; split <;> rfl
    · rfl

theorem isFinite_iff (x : F32) : isFinite x = true ↔ -0x7F800000 < orderKey x ∧ orderKey x < 0x7F800000 := by
  simp only [isFinite, decide_eq_true_eq, orderKey]
  split <;> omega

theorem isFinite_flush (m : DenormalMode) (x : F32) : isFinite (flush m x) = isFinite x := by
  rw [Bool.eq_iff_iff, isFinite_iff, isFinite_iff, orderKey_flush]
  cases m with
  | ieee => rfl
  | ftz => simp only [flushKey]; split <;> omega

theorem not_isNaN_of_isFinite {x : F32} (h : isFinite x = true) : isNaN x = false ∧ isInf x = false := by
  simp only [isFinite, isNaN, isInf, decide_eq_true_eq, decide_eq_false_iff_not] at *
  omega

/-- The values are ordered as the keys. -/
theorem units_le_iff {x y : F32} : units x ≤ units y ↔ orderKey x ≤ orderKey y := by
  have pos : ∀ p, (magUnits p = 0 ↔ p = 0) := fun p => by
    have h0 : magUnits 0 = 0 := by decide
    exact ⟨fun h => magUnits_strictMono.injective (by rw [h, h0]), fun h => by rw [h, h0]⟩
  have hx := pos (magnitude x)
  have hy := pos (magnitude y)
  have h1 := @magUnits_le_iff (magnitude x) (magnitude y)
  have h2 := @magUnits_le_iff (magnitude y) (magnitude x)
  unfold units orderKey
  split <;> split <;> omega

theorem units_withSign (neg : Bool) (mag : Nat) (h : mag < 2 ^ 31) :
    units (withSign neg mag) = if neg then -(magUnits mag : Int) else magUnits mag := by
  unfold units
  rw [sign_withSign neg mag h, magnitude_withSign neg mag h]

/-- Where the sum of two finite values stands: at the rounded exact sum of the flushed operands. -/
theorem orderKey_add (m : DenormalMode) {a b : F32} (ha : isFinite a = true) (hb : isFinite b = true) :
    orderKey (add m a b) = flushKey m (roundKey (units (flush m a) + units (flush m b)) 1) := by
  rw [← isFinite_flush m] at ha hb
  unfold add
  rw [orderKey_flush]
  congr 1
  unfold addKept
  simp only [not_isNaN_of_isFinite ha, not_isNaN_of_isFinite hb, Bool.or_false, Bool.false_eq_true, if_false]
  split
  · rename_i h
    rw [orderKey_withSign _ _ (by decide), h, roundKey_zero 1 (by decide)]
    split <;> rfl
  · have hl := roundMag_le_infinity (units (flush m a) + units (flush m b)).natAbs 1
    rw [orderKey_withSign _ _ (by omega)]
    simp [roundKey]

/-- Where the product of two finite values stands. -/
theorem orderKey_mul (m : DenormalMode) {a b : F32} (ha : isFinite a = true) (hb : isFinite b = true) :
    orderKey (mul m a b) = flushKey m (roundKey (units (flush m a) * units (flush m b)) (2 ^ 149)) := by
  rw [← isFinite_flush m] at ha hb
  unfold mul
  rw [orderKey_flush]
  congr 1
  unfold mulKept
  simp only [not_isNaN_of_isFinite ha, not_isNaN_of_isFinite hb, Bool.or_false, Bool.false_and, Bool.and_false,
    Bool.false_eq_true, if_false]
  generalize flush m a = x
  generalize flush m b = y
  have hl := roundMag_le_infinity (magUnits (magnitude x) * magUnits (magnitude y)) (2 ^ 149)
  rw [orderKey_withSign _ _ (by omega)]
  have hd : 0 < 2 ^ 149 := Nat.two_pow_pos _
  have hpos : ∀ n : Nat, roundKey (n : Int) (2 ^ 149) = roundMag n (2 ^ 149) := fun n => by
    unfold roundKey
    rw [if_neg (by omega), Int.natAbs_natCast]
  have hneg : ∀ n : Nat, roundKey (-(n : Int)) (2 ^ 149) = -(roundMag n (2 ^ 149) : Int) := fun n => by
    unfold roundKey
    rw [Int.natAbs_neg, Int.natAbs_natCast]
    split
    · rfl
    · have : n = 0 := by omega
      subst this
      rw [roundMag_zero _ hd]; rfl
  unfold units
  cases sign x <;> cases sign y <;>
    simp only [bne_self_eq_false, Bool.false_bne, Bool.true_bne, Bool.not_false, if_true, if_false,
      Bool.false_eq_true, Int.neg_mul, Int.mul_neg, Int.neg_neg, ← Int.natCast_mul, hpos, hneg]

/-- Addition keeps the order of its first operand. -/
theorem add_mono (m : DenormalMode) {a a' b b' : F32} (ha : isFinite a = true) (ha' : isFinite a' = true)
    (hb : isFinite b = true) (hb' : isFinite b' = true)
    (h : orderKey a ≤ orderKey a') (hk : orderKey b ≤ orderKey b') :
    orderKey (add m a b) ≤ orderKey (add m a' b') := by
  rw [orderKey_add m ha hb, orderKey_add m ha' hb']
  have h1 : units (flush m a) ≤ units (flush m a') := by
    rw [units_le_iff, orderKey_flush, orderKey_flush]; exact flushKey_mono m h
  have h2 : units (flush m b) ≤ units (flush m b') := by
    rw [units_le_iff, orderKey_flush, orderKey_flush]; exact flushKey_mono m hk
  exact flushKey_mono m (roundKey_mono (by decide) (by omega))

/-- Multiplication by a value that is not negative keeps the order. -/
theorem mul_mono (m : DenormalMode) {a a' b : F32} (ha : isFinite a = true) (ha' : isFinite a' = true)
    (hb : isFinite b = true) (hpos : 0 ≤ orderKey b) (h : orderKey a ≤ orderKey a') :
    orderKey (mul m a b) ≤ orderKey (mul m a' b) := by
  rw [orderKey_mul m ha hb, orderKey_mul m ha' hb]
  have h1 : units (flush m a) ≤ units (flush m a') := by
    rw [units_le_iff, orderKey_flush, orderKey_flush]; exact flushKey_mono m h
  have h2 : 0 ≤ units (flush m b) := by
    have : units (0 : F32) ≤ units (flush m b) := by
      rw [units_le_iff, orderKey_flush]
      exact flushKey_mono m (k := 0) (k' := orderKey b) hpos |> le_trans (by cases m <;> decide)
    exact this
  exact flushKey_mono m (roundKey_mono (Nat.two_pow_pos _) (Int.mul_le_mul_of_nonneg_right h1 h2))

/-- An integer as a float stands where rounding puts it. -/
theorem orderKey_ofInt (n : Int) : orderKey (ofInt n) = roundKey (n * 2 ^ 149) 1 := by
  unfold ofInt roundKey
  have hl := roundMag_le_infinity (n.natAbs * 2 ^ 149) 1
  rw [orderKey_withSign _ _ (by omega)]
  have e : (n * 2 ^ 149).natAbs = n.natAbs * 2 ^ 149 := by rw [Int.natAbs_mul]; rfl
  rw [e]
  generalize roundMag (n.natAbs * 2 ^ 149) 1 = r
  by_cases h : n < 0
  · rw [if_pos (Int.mul_neg_of_neg_of_pos h (by decide))]; simp [h]
  · rw [if_neg (Int.not_lt.mpr (Int.mul_nonneg (Int.not_lt.mp h) (by decide)))]; simp [h]

theorem ofInt_mono {n n' : Int} (h : n ≤ n') : orderKey (ofInt n) ≤ orderKey (ofInt n') := by
  rw [orderKey_ofInt, orderKey_ofInt]
  exact roundKey_mono (by decide) (Int.mul_le_mul_of_nonneg_right h (by decide))

/-- A value between two finite ones is finite. -/
theorem isFinite_between {x y z : F32} (hx : isFinite x = true) (hz : isFinite z = true)
    (h : orderKey x ≤ orderKey y) (h' : orderKey y ≤ orderKey z) : isFinite y = true := by
  rw [isFinite_iff] at *
  omega

/-- The sum has no sign when its first operand has none and it is not negative. -/
theorem sign_add (m : DenormalMode) {a b : F32} (ha : isFinite a = true) (hb : isFinite b = true)
    (hs : sign a = false) (h : 0 ≤ units (flush m a) + units (flush m b)) : sign (add m a b) = false := by
  unfold add
  rw [sign_flush]
  rw [← isFinite_flush m] at ha hb
  unfold addKept
  simp only [not_isNaN_of_isFinite ha, not_isNaN_of_isFinite hb, Bool.or_false, Bool.false_eq_true, if_false]
  split
  · rw [sign_withSign _ _ (by decide), sign_flush, hs]; rfl
  · have hl := roundMag_le_infinity (units (flush m a) + units (flush m b)).natAbs 1
    rw [sign_withSign _ _ (by omega)]
    simp; omega

/-- The sign of a product is the one of IEEE 754, zeros included. -/
theorem sign_mul (m : DenormalMode) {a b : F32} (ha : isFinite a = true) (hb : isFinite b = true) :
    sign (mul m a b) = (sign a != sign b) := by
  unfold mul
  rw [sign_flush]
  rw [← isFinite_flush m] at ha hb
  unfold mulKept
  simp only [not_isNaN_of_isFinite ha, not_isNaN_of_isFinite hb, Bool.or_false, Bool.false_and, Bool.and_false,
    Bool.false_eq_true, if_false]
  have hl := roundMag_le_infinity (magUnits (magnitude (flush m a)) * magUnits (magnitude (flush m b))) (2 ^ 149)
  rw [sign_withSign _ _ (by omega), sign_flush, sign_flush]

/-- The sign of a converted integer. -/
theorem sign_ofInt (n : Int) : sign (ofInt n) = decide (n < 0) := by
  unfold ofInt
  have hl := roundMag_le_infinity (n.natAbs * 2 ^ 149) 1
  rw [sign_withSign _ _ (by omega)]

/-- The values of a parameter register are finite and have no sign. -/
theorem inUnit_iff (t : F32) : t.toNat ≤ 0x3F800000 ↔ sign t = false ∧ orderKey t ≤ orderKey one := by
  have h1 : orderKey one = 0x3F800000 := by decide
  have ht := t.isLt
  rw [h1]
  unfold orderKey sign magnitude
  rw [BitVec.msb_eq_decide]
  by_cases h : 2 ^ (32 - 1) ≤ t.toNat
  · simp only [h, decide_true]; simp; omega
  · simp only [h, decide_false, true_and, Bool.false_eq_true, if_false]; omega

theorem orderKey_nonneg {x : F32} (h : sign x = false) : 0 ≤ orderKey x := by
  unfold orderKey
  simp [h]

/-! ## The sign operations -/

theorem sign_negate (x : F32) : sign (negate x) = !sign x := by
  unfold sign negate
  rw [BitVec.msb_xor, show (0x80000000 : F32).msb = true by decide, Bool.xor_true]

theorem magnitude_negate (x : F32) : magnitude (negate x) = magnitude x := by
  unfold magnitude negate
  rw [BitVec.toNat_xor, Nat.xor_mod_two_pow]
  simp

theorem orderKey_negate (x : F32) : orderKey (negate x) = -orderKey x := by
  unfold orderKey
  rw [sign_negate, magnitude_negate]
  cases sign x <;> simp

theorem units_negate (x : F32) : units (negate x) = -units x := by
  unfold units
  rw [sign_negate, magnitude_negate]
  cases sign x <;> simp

theorem sign_fabs (x : F32) : sign (fabs x) = false := by
  unfold sign fabs
  rw [BitVec.msb_and, show (0x7FFFFFFF : F32).msb = false by decide, Bool.and_false]

theorem magnitude_fabs (x : F32) : magnitude (fabs x) = magnitude x := by
  unfold magnitude fabs
  rw [BitVec.toNat_and, Nat.and_mod_two_pow, show (0x7FFFFFFF : F32).toNat % 2 ^ 31 = 2 ^ 31 - 1 from rfl,
    Nat.and_two_pow_sub_one_eq_mod, Nat.mod_mod]

theorem sign_copysign (m s : F32) : sign (copysign m s) = sign s := by
  unfold sign copysign
  rw [BitVec.msb_or, BitVec.msb_and, BitVec.msb_and, show (0x7FFFFFFF : F32).msb = false by decide,
    show (0x80000000 : F32).msb = true by decide, Bool.and_false, Bool.and_true, Bool.false_or]

theorem magnitude_copysign (m s : F32) : magnitude (copysign m s) = magnitude m := by
  unfold magnitude copysign
  rw [BitVec.toNat_or, Nat.or_mod_two_pow, BitVec.toNat_and, BitVec.toNat_and, Nat.and_mod_two_pow,
    Nat.and_mod_two_pow (a := s.toNat), show (0x7FFFFFFF : F32).toNat % 2 ^ 31 = 2 ^ 31 - 1 from rfl,
    show (0x80000000 : F32).toNat % 2 ^ 31 = 0 from rfl, Nat.and_zero, Nat.or_zero,
    Nat.and_two_pow_sub_one_eq_mod, Nat.mod_mod]

end Sys2Proof.Binary32
end

