-- ==== Sys2Proof/Laws/State.lean ====
section
/-! SUPPORT. What each named update of the state leaves in each field, so that no proof unfolds a record update. -/

namespace Sys2Proof.Machine

@[simp] theorem resetWith_z1 (c : Config) : (State.resetWith c).z1 = Vector.replicate 9 0 := rfl
@[simp] theorem resetWith_out (c : Config) : (State.resetWith c).out = Vector.replicate 9 0 := rfl
@[simp] theorem resetWith_time (c : Config) : (State.resetWith c).time = 0x3E800000 := rfl
@[simp] theorem resetWith_depth (c : Config) : (State.resetWith c).depth = 0x3F000000 := rfl
@[simp] theorem resetWith_gain (c : Config) : (State.resetWith c).gain = 0 := rfl
@[simp] theorem resetWith_lfoIncLessOne (c : Config) : (State.resetWith c).lfoIncLessOne = lfoIncrementLessOne c 0x3E800000 := rfl
@[simp] theorem resetWith_lfoThreshold (c : Config) : (State.resetWith c).lfoThreshold = c.lfoThreshold := rfl
@[simp] theorem resetWith_lfoPhase (c : Config) : (State.resetWith c).lfoPhase = 0 := rfl
@[simp] theorem resetWith_lfoAux (c : Config) : (State.resetWith c).lfoAux = c.lfoAux0 := rfl
@[simp] theorem resetWith_lfoPrimary (c : Config) : (State.resetWith c).lfoPrimary = 0 := rfl
@[simp] theorem resetWith_lfoSecondary (c : Config) : (State.resetWith c).lfoSecondary = 0 := rfl
@[simp] theorem resetWith_xIn (c : Config) : (State.resetWith c).xIn = 0 := rfl
@[simp] theorem resetWith_uQ (c : Config) : (State.resetWith c).uQ = 0 := rfl
@[simp] theorem resetWith_lQ (c : Config) : (State.resetWith c).lQ = 0 := rfl
@[simp] theorem resetWith_b0 (c : Config) : (State.resetWith c).b0 = 0 := rfl
@[simp] theorem resetWith_y (c : Config) : (State.resetWith c).y = 0 := rfl
@[simp] theorem resetWith_seq (c : Config) : (State.resetWith c).seq = idleCode := rfl
@[simp] theorem resetWith_n (c : Config) : (State.resetWith c).n = 0 := rfl
@[simp] theorem resetWith_nfr (c : Config) : (State.resetWith c).nfr = 0 := rfl
@[simp] theorem resetWith_k (c : Config) : (State.resetWith c).k = 0 := rfl
@[simp] theorem resetWith_busy (c : Config) : (State.resetWith c).busy = false := rfl
@[simp] theorem resetWith_faulted (c : Config) : (State.resetWith c).faulted = false := rfl
@[simp] theorem resetWith_fcode (c : Config) : (State.resetWith c).fcode = 0 := rfl
@[simp] theorem resetWith_faultInfo (c : Config) : (State.resetWith c).faultInfo = 0 := rfl
@[simp] theorem resetWith_mem (c : Config) : (State.resetWith c).mem = [] := rfl
@[simp] theorem resetWith_host (c : Config) : (State.resetWith c).host = [] := rfl

@[simp] theorem raiseFault_z1 (f : BlockFault) (info : Word) (s : State) : (raiseFault f info s).z1 = s.z1 := rfl
@[simp] theorem raiseFault_out (f : BlockFault) (info : Word) (s : State) : (raiseFault f info s).out = s.out := rfl
@[simp] theorem raiseFault_time (f : BlockFault) (info : Word) (s : State) : (raiseFault f info s).time = s.time := rfl
@[simp] theorem raiseFault_depth (f : BlockFault) (info : Word) (s : State) : (raiseFault f info s).depth = s.depth := rfl
@[simp] theorem raiseFault_gain (f : BlockFault) (info : Word) (s : State) : (raiseFault f info s).gain = s.gain := rfl
@[simp] theorem raiseFault_lfoIncLessOne (f : BlockFault) (info : Word) (s : State) : (raiseFault f info s).lfoIncLessOne = s.lfoIncLessOne := rfl
@[simp] theorem raiseFault_lfoThreshold (f : BlockFault) (info : Word) (s : State) : (raiseFault f info s).lfoThreshold = s.lfoThreshold := rfl
@[simp] theorem raiseFault_lfoPhase (f : BlockFault) (info : Word) (s : State) : (raiseFault f info s).lfoPhase = s.lfoPhase := rfl
@[simp] theorem raiseFault_lfoAux (f : BlockFault) (info : Word) (s : State) : (raiseFault f info s).lfoAux = s.lfoAux := rfl
@[simp] theorem raiseFault_lfoPrimary (f : BlockFault) (info : Word) (s : State) : (raiseFault f info s).lfoPrimary = s.lfoPrimary := rfl
@[simp] theorem raiseFault_lfoSecondary (f : BlockFault) (info : Word) (s : State) : (raiseFault f info s).lfoSecondary = s.lfoSecondary := rfl
@[simp] theorem raiseFault_xIn (f : BlockFault) (info : Word) (s : State) : (raiseFault f info s).xIn = s.xIn := rfl
@[simp] theorem raiseFault_uQ (f : BlockFault) (info : Word) (s : State) : (raiseFault f info s).uQ = s.uQ := rfl
@[simp] theorem raiseFault_lQ (f : BlockFault) (info : Word) (s : State) : (raiseFault f info s).lQ = s.lQ := rfl
@[simp] theorem raiseFault_b0 (f : BlockFault) (info : Word) (s : State) : (raiseFault f info s).b0 = s.b0 := rfl
@[simp] theorem raiseFault_y (f : BlockFault) (info : Word) (s : State) : (raiseFault f info s).y = s.y := rfl
@[simp] theorem raiseFault_seq (f : BlockFault) (info : Word) (s : State) : (raiseFault f info s).seq = idleCode := rfl
@[simp] theorem raiseFault_n (f : BlockFault) (info : Word) (s : State) : (raiseFault f info s).n = s.n := rfl
@[simp] theorem raiseFault_nfr (f : BlockFault) (info : Word) (s : State) : (raiseFault f info s).nfr = s.nfr := rfl
@[simp] theorem raiseFault_k (f : BlockFault) (info : Word) (s : State) : (raiseFault f info s).k = s.k := rfl
@[simp] theorem raiseFault_busy (f : BlockFault) (info : Word) (s : State) : (raiseFault f info s).busy = false := rfl
@[simp] theorem raiseFault_faulted (f : BlockFault) (info : Word) (s : State) : (raiseFault f info s).faulted = true := rfl
@[simp] theorem raiseFault_fcode (f : BlockFault) (info : Word) (s : State) : (raiseFault f info s).fcode = faultCode f := rfl
@[simp] theorem raiseFault_faultInfo (f : BlockFault) (info : Word) (s : State) : (raiseFault f info s).faultInfo = info := rfl
@[simp] theorem raiseFault_mem (f : BlockFault) (info : Word) (s : State) : (raiseFault f info s).mem = s.mem := rfl
@[simp] theorem raiseFault_host (f : BlockFault) (info : Word) (s : State) : (raiseFault f info s).host = s.host := rfl

@[simp] theorem hardReset_z1 (c : Config) (s : State) : (hardResetWith c s).z1 = Vector.replicate 9 0 := rfl
@[simp] theorem hardReset_out (c : Config) (s : State) : (hardResetWith c s).out = Vector.replicate 9 0 := rfl
@[simp] theorem hardReset_time (c : Config) (s : State) : (hardResetWith c s).time = 0x3E800000 := rfl
@[simp] theorem hardReset_depth (c : Config) (s : State) : (hardResetWith c s).depth = 0x3F000000 := rfl
@[simp] theorem hardReset_gain (c : Config) (s : State) : (hardResetWith c s).gain = 0 := rfl
@[simp] theorem hardReset_lfoIncLessOne (c : Config) (s : State) : (hardResetWith c s).lfoIncLessOne = lfoIncrementLessOne c 0x3E800000 := rfl
@[simp] theorem hardReset_lfoThreshold (c : Config) (s : State) : (hardResetWith c s).lfoThreshold = c.lfoThreshold := rfl
@[simp] theorem hardReset_lfoPhase (c : Config) (s : State) : (hardResetWith c s).lfoPhase = 0 := rfl
@[simp] theorem hardReset_lfoAux (c : Config) (s : State) : (hardResetWith c s).lfoAux = c.lfoAux0 := rfl
@[simp] theorem hardReset_lfoPrimary (c : Config) (s : State) : (hardResetWith c s).lfoPrimary = 0 := rfl
@[simp] theorem hardReset_lfoSecondary (c : Config) (s : State) : (hardResetWith c s).lfoSecondary = 0 := rfl
@[simp] theorem hardReset_xIn (c : Config) (s : State) : (hardResetWith c s).xIn = 0 := rfl
@[simp] theorem hardReset_uQ (c : Config) (s : State) : (hardResetWith c s).uQ = 0 := rfl
@[simp] theorem hardReset_lQ (c : Config) (s : State) : (hardResetWith c s).lQ = 0 := rfl
@[simp] theorem hardReset_b0 (c : Config) (s : State) : (hardResetWith c s).b0 = 0 := rfl
@[simp] theorem hardReset_y (c : Config) (s : State) : (hardResetWith c s).y = 0 := rfl
@[simp] theorem hardReset_seq (c : Config) (s : State) : (hardResetWith c s).seq = idleCode := rfl
@[simp] theorem hardReset_n (c : Config) (s : State) : (hardResetWith c s).n = 0 := rfl
@[simp] theorem hardReset_nfr (c : Config) (s : State) : (hardResetWith c s).nfr = 0 := rfl
@[simp] theorem hardReset_k (c : Config) (s : State) : (hardResetWith c s).k = 0 := rfl
@[simp] theorem hardReset_busy (c : Config) (s : State) : (hardResetWith c s).busy = false := rfl
@[simp] theorem hardReset_faulted (c : Config) (s : State) : (hardResetWith c s).faulted = false := rfl
@[simp] theorem hardReset_fcode (c : Config) (s : State) : (hardResetWith c s).fcode = 0 := rfl
@[simp] theorem hardReset_faultInfo (c : Config) (s : State) : (hardResetWith c s).faultInfo = 0 := rfl
@[simp] theorem hardReset_mem (c : Config) (s : State) : (hardResetWith c s).mem = s.mem := rfl
@[simp] theorem hardReset_host (c : Config) (s : State) : (hardResetWith c s).host = s.host := rfl

@[simp] theorem loadRegisters_z1 (c : Config) (s : State) : (loadRegisters c s).z1 = Vector.replicate 9 0 := rfl
@[simp] theorem loadRegisters_out (c : Config) (s : State) : (loadRegisters c s).out = Vector.replicate 9 0 := rfl
@[simp] theorem loadRegisters_time (c : Config) (s : State) : (loadRegisters c s).time = 0x3E800000 := rfl
@[simp] theorem loadRegisters_depth (c : Config) (s : State) : (loadRegisters c s).depth = 0x3F000000 := rfl
@[simp] theorem loadRegisters_gain (c : Config) (s : State) : (loadRegisters c s).gain = 0 := rfl
@[simp] theorem loadRegisters_lfoIncLessOne (c : Config) (s : State) : (loadRegisters c s).lfoIncLessOne = lfoIncrementLessOne c 0x3E800000 := rfl
@[simp] theorem loadRegisters_lfoThreshold (c : Config) (s : State) : (loadRegisters c s).lfoThreshold = c.lfoThreshold := rfl
@[simp] theorem loadRegisters_lfoPhase (c : Config) (s : State) : (loadRegisters c s).lfoPhase = 0 := rfl
@[simp] theorem loadRegisters_lfoAux (c : Config) (s : State) : (loadRegisters c s).lfoAux = c.lfoAux0 := rfl
@[simp] theorem loadRegisters_lfoPrimary (c : Config) (s : State) : (loadRegisters c s).lfoPrimary = 0 := rfl
@[simp] theorem loadRegisters_lfoSecondary (c : Config) (s : State) : (loadRegisters c s).lfoSecondary = 0 := rfl
@[simp] theorem loadRegisters_xIn (c : Config) (s : State) : (loadRegisters c s).xIn = 0 := rfl
@[simp] theorem loadRegisters_uQ (c : Config) (s : State) : (loadRegisters c s).uQ = 0 := rfl
@[simp] theorem loadRegisters_lQ (c : Config) (s : State) : (loadRegisters c s).lQ = 0 := rfl
@[simp] theorem loadRegisters_b0 (c : Config) (s : State) : (loadRegisters c s).b0 = 0 := rfl
@[simp] theorem loadRegisters_y (c : Config) (s : State) : (loadRegisters c s).y = 0 := rfl
@[simp] theorem loadRegisters_seq (c : Config) (s : State) : (loadRegisters c s).seq = idleCode := rfl
@[simp] theorem loadRegisters_n (c : Config) (s : State) : (loadRegisters c s).n = 0 := rfl
@[simp] theorem loadRegisters_nfr (c : Config) (s : State) : (loadRegisters c s).nfr = 0 := rfl
@[simp] theorem loadRegisters_k (c : Config) (s : State) : (loadRegisters c s).k = 0 := rfl
@[simp] theorem loadRegisters_busy (c : Config) (s : State) : (loadRegisters c s).busy = s.busy := rfl
@[simp] theorem loadRegisters_faulted (c : Config) (s : State) : (loadRegisters c s).faulted = s.faulted := rfl
@[simp] theorem loadRegisters_fcode (c : Config) (s : State) : (loadRegisters c s).fcode = s.fcode := rfl
@[simp] theorem loadRegisters_faultInfo (c : Config) (s : State) : (loadRegisters c s).faultInfo = s.faultInfo := rfl
@[simp] theorem loadRegisters_mem (c : Config) (s : State) : (loadRegisters c s).mem = s.mem := rfl
@[simp] theorem loadRegisters_host (c : Config) (s : State) : (loadRegisters c s).host = s.host := rfl

@[simp] theorem clearFilter_z1 (s : State) : (clearFilter s).z1 = Vector.replicate 9 0 := rfl
@[simp] theorem clearFilter_out (s : State) : (clearFilter s).out = Vector.replicate 9 0 := rfl
@[simp] theorem clearFilter_time (s : State) : (clearFilter s).time = s.time := rfl
@[simp] theorem clearFilter_depth (s : State) : (clearFilter s).depth = s.depth := rfl
@[simp] theorem clearFilter_gain (s : State) : (clearFilter s).gain = 0 := rfl
@[simp] theorem clearFilter_lfoIncLessOne (s : State) : (clearFilter s).lfoIncLessOne = s.lfoIncLessOne := rfl
@[simp] theorem clearFilter_lfoThreshold (s : State) : (clearFilter s).lfoThreshold = s.lfoThreshold := rfl
@[simp] theorem clearFilter_lfoPhase (s : State) : (clearFilter s).lfoPhase = s.lfoPhase := rfl
@[simp] theorem clearFilter_lfoAux (s : State) : (clearFilter s).lfoAux = s.lfoAux := rfl
@[simp] theorem clearFilter_lfoPrimary (s : State) : (clearFilter s).lfoPrimary = s.lfoPrimary := rfl
@[simp] theorem clearFilter_lfoSecondary (s : State) : (clearFilter s).lfoSecondary = s.lfoSecondary := rfl
@[simp] theorem clearFilter_xIn (s : State) : (clearFilter s).xIn = s.xIn := rfl
@[simp] theorem clearFilter_uQ (s : State) : (clearFilter s).uQ = s.uQ := rfl
@[simp] theorem clearFilter_lQ (s : State) : (clearFilter s).lQ = s.lQ := rfl
@[simp] theorem clearFilter_b0 (s : State) : (clearFilter s).b0 = s.b0 := rfl
@[simp] theorem clearFilter_y (s : State) : (clearFilter s).y = s.y := rfl
@[simp] theorem clearFilter_seq (s : State) : (clearFilter s).seq = s.seq := rfl
@[simp] theorem clearFilter_n (s : State) : (clearFilter s).n = s.n := rfl
@[simp] theorem clearFilter_nfr (s : State) : (clearFilter s).nfr = s.nfr := rfl
@[simp] theorem clearFilter_k (s : State) : (clearFilter s).k = s.k := rfl
@[simp] theorem clearFilter_busy (s : State) : (clearFilter s).busy = s.busy := rfl
@[simp] theorem clearFilter_faulted (s : State) : (clearFilter s).faulted = s.faulted := rfl
@[simp] theorem clearFilter_fcode (s : State) : (clearFilter s).fcode = s.fcode := rfl
@[simp] theorem clearFilter_faultInfo (s : State) : (clearFilter s).faultInfo = s.faultInfo := rfl
@[simp] theorem clearFilter_mem (s : State) : (clearFilter s).mem = s.mem := rfl
@[simp] theorem clearFilter_host (s : State) : (clearFilter s).host = s.host := rfl

@[simp] theorem startBlock_z1 (nfr : Nat) (s : State) : (startBlock nfr s).z1 = s.z1 := rfl
@[simp] theorem startBlock_out (nfr : Nat) (s : State) : (startBlock nfr s).out = s.out := rfl
@[simp] theorem startBlock_time (nfr : Nat) (s : State) : (startBlock nfr s).time = s.time := rfl
@[simp] theorem startBlock_depth (nfr : Nat) (s : State) : (startBlock nfr s).depth = s.depth := rfl
@[simp] theorem startBlock_gain (nfr : Nat) (s : State) : (startBlock nfr s).gain = s.gain := rfl
@[simp] theorem startBlock_lfoIncLessOne (nfr : Nat) (s : State) : (startBlock nfr s).lfoIncLessOne = s.lfoIncLessOne := rfl
@[simp] theorem startBlock_lfoThreshold (nfr : Nat) (s : State) : (startBlock nfr s).lfoThreshold = s.lfoThreshold := rfl
@[simp] theorem startBlock_lfoPhase (nfr : Nat) (s : State) : (startBlock nfr s).lfoPhase = s.lfoPhase := rfl
@[simp] theorem startBlock_lfoAux (nfr : Nat) (s : State) : (startBlock nfr s).lfoAux = s.lfoAux := rfl
@[simp] theorem startBlock_lfoPrimary (nfr : Nat) (s : State) : (startBlock nfr s).lfoPrimary = s.lfoPrimary := rfl
@[simp] theorem startBlock_lfoSecondary (nfr : Nat) (s : State) : (startBlock nfr s).lfoSecondary = s.lfoSecondary := rfl
@[simp] theorem startBlock_xIn (nfr : Nat) (s : State) : (startBlock nfr s).xIn = s.xIn := rfl
@[simp] theorem startBlock_uQ (nfr : Nat) (s : State) : (startBlock nfr s).uQ = s.uQ := rfl
@[simp] theorem startBlock_lQ (nfr : Nat) (s : State) : (startBlock nfr s).lQ = s.lQ := rfl
@[simp] theorem startBlock_b0 (nfr : Nat) (s : State) : (startBlock nfr s).b0 = s.b0 := rfl
@[simp] theorem startBlock_y (nfr : Nat) (s : State) : (startBlock nfr s).y = s.y := rfl
@[simp] theorem startBlock_seq (nfr : Nat) (s : State) : (startBlock nfr s).seq = seqCode .blkSetup := rfl
@[simp] theorem startBlock_n (nfr : Nat) (s : State) : (startBlock nfr s).n = 0 := rfl
@[simp] theorem startBlock_nfr (nfr : Nat) (s : State) : (startBlock nfr s).nfr = BitVec.ofNat 16 nfr := rfl
@[simp] theorem startBlock_k (nfr : Nat) (s : State) : (startBlock nfr s).k = s.k := rfl
@[simp] theorem startBlock_busy (nfr : Nat) (s : State) : (startBlock nfr s).busy = true := rfl
@[simp] theorem startBlock_faulted (nfr : Nat) (s : State) : (startBlock nfr s).faulted = s.faulted := rfl
@[simp] theorem startBlock_fcode (nfr : Nat) (s : State) : (startBlock nfr s).fcode = s.fcode := rfl
@[simp] theorem startBlock_faultInfo (nfr : Nat) (s : State) : (startBlock nfr s).faultInfo = s.faultInfo := rfl
@[simp] theorem startBlock_mem (nfr : Nat) (s : State) : (startBlock nfr s).mem = s.mem := rfl
@[simp] theorem startBlock_host (nfr : Nat) (s : State) : (startBlock nfr s).host = s.host := rfl

@[simp] theorem endBlock_z1 (s : State) : (endBlock s).z1 = s.z1 := rfl
@[simp] theorem endBlock_out (s : State) : (endBlock s).out = s.out := rfl
@[simp] theorem endBlock_time (s : State) : (endBlock s).time = s.time := rfl
@[simp] theorem endBlock_depth (s : State) : (endBlock s).depth = s.depth := rfl
@[simp] theorem endBlock_gain (s : State) : (endBlock s).gain = s.gain := rfl
@[simp] theorem endBlock_lfoIncLessOne (s : State) : (endBlock s).lfoIncLessOne = s.lfoIncLessOne := rfl
@[simp] theorem endBlock_lfoThreshold (s : State) : (endBlock s).lfoThreshold = s.lfoThreshold := rfl
@[simp] theorem endBlock_lfoPhase (s : State) : (endBlock s).lfoPhase = s.lfoPhase := rfl
@[simp] theorem endBlock_lfoAux (s : State) : (endBlock s).lfoAux = s.lfoAux := rfl
@[simp] theorem endBlock_lfoPrimary (s : State) : (endBlock s).lfoPrimary = s.lfoPrimary := rfl
@[simp] theorem endBlock_lfoSecondary (s : State) : (endBlock s).lfoSecondary = s.lfoSecondary := rfl
@[simp] theorem endBlock_xIn (s : State) : (endBlock s).xIn = s.xIn := rfl
@[simp] theorem endBlock_uQ (s : State) : (endBlock s).uQ = s.uQ := rfl
@[simp] theorem endBlock_lQ (s : State) : (endBlock s).lQ = s.lQ := rfl
@[simp] theorem endBlock_b0 (s : State) : (endBlock s).b0 = s.b0 := rfl
@[simp] theorem endBlock_y (s : State) : (endBlock s).y = s.y := rfl
@[simp] theorem endBlock_seq (s : State) : (endBlock s).seq = idleCode := rfl
@[simp] theorem endBlock_n (s : State) : (endBlock s).n = s.n := rfl
@[simp] theorem endBlock_nfr (s : State) : (endBlock s).nfr = s.nfr := rfl
@[simp] theorem endBlock_k (s : State) : (endBlock s).k = s.k := rfl
@[simp] theorem endBlock_busy (s : State) : (endBlock s).busy = false := rfl
@[simp] theorem endBlock_faulted (s : State) : (endBlock s).faulted = s.faulted := rfl
@[simp] theorem endBlock_fcode (s : State) : (endBlock s).fcode = s.fcode := rfl
@[simp] theorem endBlock_faultInfo (s : State) : (endBlock s).faultInfo = s.faultInfo := rfl
@[simp] theorem endBlock_mem (s : State) : (endBlock s).mem = s.mem := rfl
@[simp] theorem endBlock_host (s : State) : (endBlock s).host = s.host := rfl

end Sys2Proof.Machine
end

