-- ==== Sys2Proof/Laws/Memory.lean ====
section
/-! SUPPORT. The memory operations: a read after a write, the other addresses, and the canonical form. -/

namespace Sys2Proof.Machine

theorem Memory.wfFrom_mono (c : Config) {lo lo' : Nat} (h : lo' ≤ lo) (m : Memory)
    (hm : Memory.wfFrom c lo m = true) : Memory.wfFrom c lo' m = true := by
  cases m with
  | nil => rfl
  | cons e rest =>
    simp only [Memory.wfFrom, Bool.and_eq_true, decide_eq_true_eq] at hm ⊢
    exact ⟨⟨Nat.le_trans h hm.1.1, hm.1.2⟩, hm.2⟩

/-- Below the first address a canonical memory is as it was at power-on. -/
theorem Memory.read_below (c : Config) {lo a : Nat} (h : a < lo) (m : Memory) (hm : Memory.wfFrom c lo m = true) :
    Memory.readWith c m a = blankByte c a := by
  induction m generalizing lo with
  | nil => rfl
  | cons e rest ih =>
    obtain ⟨a', b'⟩ := e
    simp only [Memory.wfFrom, Bool.and_eq_true, decide_eq_true_eq] at hm
    have hne : ¬a = a' := by omega
    simp only [Memory.readWith, hne, if_false]
    exact ih (lo := a' + 1) (by omega) hm.2

/-- A write keeps the canonical form. -/
theorem Memory.wfFrom_write (c : Config) {lo a : Nat} (h : lo ≤ a) (b : Byte) (m : Memory)
    (hm : Memory.wfFrom c lo m = true) : Memory.wfFrom c lo (Memory.writeWith c m a b) = true := by
  induction m generalizing lo with
  | nil =>
    by_cases hb : b = blankByte c a <;> simp [Memory.writeWith, Memory.wfFrom, hb, h]
  | cons e rest ih =>
    obtain ⟨a', b'⟩ := e
    simp only [Memory.wfFrom, Bool.and_eq_true, decide_eq_true_eq] at hm
    obtain ⟨⟨hlo, hne⟩, hrest⟩ := hm
    simp only [Memory.writeWith]
    split
    · split
      · simp [Memory.wfFrom, hlo, hne, hrest]
      · simp only [Memory.wfFrom, Bool.and_eq_true, decide_eq_true_eq]
        exact ⟨⟨h, ‹_›⟩, ⟨⟨by omega, hne⟩, hrest⟩⟩
    · split
      · subst_vars
        split
        · exact Memory.wfFrom_mono c (by omega) _ hrest
        · simp only [Memory.wfFrom, Bool.and_eq_true, decide_eq_true_eq]
          exact ⟨⟨hlo, ‹_›⟩, hrest⟩
      · simp only [Memory.wfFrom, Bool.and_eq_true, decide_eq_true_eq]
        exact ⟨⟨hlo, hne⟩, ih (by omega) hrest⟩

theorem Memory.wf_write (c : Config) (m : Memory) (a : Nat) (b : Byte) (hm : Memory.wfWith c m = true) :
    Memory.wfWith c (Memory.writeWith c m a b) = true :=
  Memory.wfFrom_write c (Nat.zero_le a) b m hm

/-- Another address reads what it read before, in any memory. -/
theorem Memory.read_write_other (c : Config) (m : Memory) (a : Nat) (b : Byte) (x : Nat) (h : x ≠ a) :
    Memory.readWith c (Memory.writeWith c m a b) x = Memory.readWith c m x := by
  induction m with
  | nil => by_cases hb : b = blankByte c a <;> simp [Memory.writeWith, Memory.readWith, hb, h]
  | cons e rest ih =>
    obtain ⟨a', b'⟩ := e
    simp only [Memory.writeWith]
    split
    · split <;> simp [Memory.readWith, h]
    · split
      · subst_vars
        split <;> simp [Memory.readWith, h]
      · simp [Memory.readWith, ih]

/-- The written address reads the byte, in a canonical memory. -/
theorem Memory.read_write_same (c : Config) {lo : Nat} (m : Memory) (a : Nat) (b : Byte)
    (hm : Memory.wfFrom c lo m = true) : Memory.readWith c (Memory.writeWith c m a b) a = b := by
  induction m generalizing lo with
  | nil => by_cases hb : b = blankByte c a <;> simp [Memory.writeWith, Memory.readWith, hb]
  | cons e rest ih =>
    obtain ⟨a', b'⟩ := e
    simp only [Memory.wfFrom, Bool.and_eq_true, decide_eq_true_eq] at hm
    simp only [Memory.writeWith]
    split
    · split
      · have : ¬a = a' := by omega
        rw [Memory.readWith, if_neg this, Memory.read_below c (lo := a' + 1) (by omega) rest hm.2,
          ‹b = blankByte c a›]
      · simp [Memory.readWith]
    · split
      · subst_vars
        split
        · rw [Memory.read_below c (Nat.lt_succ_self _) rest hm.2, ‹b = _›]
        · simp [Memory.readWith]
      · rename_i hne
        simp [Memory.readWith, hne, ih hm.2]

/-- What a byte reads after a byte was written: the byte at its address, what it read before elsewhere. -/
theorem Memory.read_write (c : Config) (m : Memory) (a : Nat) (b : Byte) (x : Nat) (hm : Memory.wfWith c m = true) :
    Memory.readWith c (Memory.writeWith c m a b) x = if x = a then b else Memory.readWith c m x := by
  split
  · subst_vars
    exact Memory.read_write_same c m _ b hm
  · exact Memory.read_write_other c m a b x ‹_›

/-- A word write keeps the canonical form. -/
theorem Memory.wf_writeWord (c : Config) (m : Memory) (a : Nat) (v : Word) (hm : Memory.wfWith c m = true) :
    Memory.wfWith c (Memory.writeWord c m a v) = true := by
  unfold Memory.writeWord
  exact Memory.wf_write c _ _ _ (Memory.wf_write c _ _ _ (Memory.wf_write c _ _ _ (Memory.wf_write c _ _ _ hm)))

/-- A byte outside the four of a written word reads what it read before, in any memory. -/
theorem Memory.read_writeWord_outside (c : Config) (m : Memory) (a : Nat) (v : Word) (x : Nat)
    (h : ¬(a ≤ x ∧ x < a + 4)) :
    Memory.readWith c (Memory.writeWord c m a v) x = Memory.readWith c m x := by
  unfold Memory.writeWord
  rw [Memory.read_write_other _ _ _ _ _ (by omega), Memory.read_write_other _ _ _ _ _ (by omega),
    Memory.read_write_other _ _ _ _ _ (by omega), Memory.read_write_other _ _ _ _ _ (by omega)]

/-- What a byte reads after a word was written: its own byte of the word, least significant lowest (R65),
within the four bytes, what it read before outside them. -/
theorem Memory.read_writeWord (c : Config) (m : Memory) (a : Nat) (v : Word) (x : Nat)
    (hm : Memory.wfWith c m = true) :
    Memory.readWith c (Memory.writeWord c m a v) x =
      if a ≤ x ∧ x < a + 4 then v.extractLsb' (8 * (x - a)) 8 else Memory.readWith c m x := by
  by_cases hin : a ≤ x ∧ x < a + 4
  · rw [if_pos hin]
    unfold Memory.writeWord
    have h0 := Memory.wf_write c m a (v.extractLsb' 0 8) hm
    have h1 := Memory.wf_write c _ (a + 1) (v.extractLsb' 8 8) h0
    have h2 := Memory.wf_write c _ (a + 2) (v.extractLsb' 16 8) h1
    rw [Memory.read_write _ _ _ _ _ h2, Memory.read_write _ _ _ _ _ h1, Memory.read_write _ _ _ _ _ h0,
      Memory.read_write _ _ _ _ _ hm]
    have : x = a ∨ x = a + 1 ∨ x = a + 2 ∨ x = a + 3 := by omega
    rcases this with rfl | rfl | rfl | rfl <;> simp
  · rw [if_neg hin]
    exact Memory.read_writeWord_outside c m a v x hin

/-- The four bytes of a word put together give the word. -/
theorem bytes_append (v : Word) :
    (v.extractLsb' 24 8 ++ v.extractLsb' 16 8 ++ v.extractLsb' 8 8 ++ v.extractLsb' 0 8 : Word) = v := by
  apply BitVec.eq_of_getLsbD_eq
  intro i hi
  simp only [BitVec.getLsbD_append, BitVec.getLsbD_extractLsb']
  by_cases h0 : i < 8
  · simp [h0]
  · by_cases h1 : i < 16
    · have : i - 8 < 8 := by omega
      simp [h0, this]
      congr 1; omega
    · by_cases h2 : i < 24
      · have a1 : ¬ i - 8 < 8 := by omega
        have a2 : i - 8 - 8 < 8 := by omega
        simp [h0, a1, a2]
        congr 1; omega
      · have a1 : ¬ i - 8 < 8 := by omega
        have a2 : ¬ i - 8 - 8 < 8 := by omega
        have a3 : i - 8 - 8 - 8 < 8 := by omega
        simp [h0, a1, a2, a3]
        congr 1; omega

/-- A word read where a word was written gives it back. -/
theorem Memory.readWord_writeWord_same (c : Config) (m : Memory) (a : Nat) (v : Word)
    (hm : Memory.wfWith c m = true) : Memory.readWord c (Memory.writeWord c m a v) a = v := by
  unfold Memory.readWord
  simp only [Memory.read_writeWord c m a v _ hm]
  rw [if_pos (by omega), if_pos (by omega), if_pos (by omega), if_pos (by omega)]
  have e3 : 8 * (a + 3 - a) = 24 := by omega
  have e2 : 8 * (a + 2 - a) = 16 := by omega
  have e1 : 8 * (a + 1 - a) = 8 := by omega
  have e0 : 8 * (a - a) = 0 := by omega
  rw [e3, e2, e1, e0]
  exact bytes_append v

/-- A word read beside a written word is what it was, in any memory. -/
theorem Memory.readWord_writeWord_other (c : Config) (m : Memory) (a x : Nat) (v : Word)
    (h : x + 4 ≤ a ∨ a + 4 ≤ x) :
    Memory.readWord c (Memory.writeWord c m a v) x = Memory.readWord c m x := by
  unfold Memory.readWord
  rw [Memory.read_writeWord_outside c m a v (x + 3) (by omega), Memory.read_writeWord_outside c m a v (x + 2) (by omega),
    Memory.read_writeWord_outside c m a v (x + 1) (by omega), Memory.read_writeWord_outside c m a v x (by omega)]

theorem wf_storeWord (c : Config) (m : Memory) (r : Region) (k : Nat) (v : Word) (hm : Memory.wfWith c m = true) :
    Memory.wfWith c (storeWord c m r k v) = true :=
  Memory.wf_writeWord c _ _ _ hm

/-- Two words that exist and are not the same word share no byte (R72). -/
theorem wordAddr_apart (c : Config) (r r' : Region) (k k' : Nat) (hk : WordExists c k) (hk' : WordExists c k')
    (h : ¬(r = r' ∧ k = k')) : wordAddr c r k + 4 ≤ wordAddr c r' k' ∨ wordAddr c r' k' + 4 ≤ wordAddr c r k := by
  unfold WordExists at hk hk'
  cases r <;> cases r' <;> simp only [wordAddr, regionBase] at * <;>
    first
    | omega
    | (have : ¬k = k' := fun e => h (by simp [e])
       omega)

end Sys2Proof.Machine
end

