-- ==== Sys2Proof/Laws/Ops.lean ====
section
/-! SUPPORT. What each shared operation can do, said once: the command port's checks, the LFO's increment, the
meanings that have more than one outcome, the agents' turns. -/

namespace Sys2Proof.Machine

/-! ## The command port's checks -/

theorem acceptCommand_halted (cw : Word) (needsIdle : Bool) (s : State) (act : State → State)
    (h : s.faulted = true) : acceptCommand cw needsIdle s act = .next s := by
  simp [acceptCommand, h]

theorem acceptCommand_busy (cw : Word) (s : State) (act : State → State) (hf : s.faulted = false)
    (hb : s.busy = true) : acceptCommand cw true s act = .next (raiseFault .busyViolation cw s) := by
  simp [acceptCommand, hf, hb]

theorem acceptCommand_acts (cw : Word) (needsIdle : Bool) (s : State) (act : State → State)
    (hf : s.faulted = false) (hb : (needsIdle && s.busy) = false) :
    acceptCommand cw needsIdle s act = .next (act s) := by
  simp [acceptCommand, hf, hb]

/-- A command answers a next state always: it is ignored, it is a busy violation, or it acts. -/
theorem acceptCommand_cases (cw : Word) (needsIdle : Bool) (s : State) (act : State → State) :
    (s.faulted = true ∧ acceptCommand cw needsIdle s act = .next s) ∨
    (s.faulted = false ∧ needsIdle = true ∧ s.busy = true ∧
      acceptCommand cw needsIdle s act = .next (raiseFault .busyViolation cw s)) ∨
    (s.faulted = false ∧ (needsIdle = true → s.busy = false) ∧
      acceptCommand cw needsIdle s act = .next (act s)) := by
  cases hf : s.faulted <;> cases hn : needsIdle <;> cases hb : s.busy <;> simp [acceptCommand, hf, hb]

/-! ## The LFO's increment -/

/-- `lfo_inc` is in 1..2^32, in every state. -/
theorem lfoInc_range (s : State) : 1 ≤ s.lfoInc ∧ s.lfoInc ≤ 2 ^ 32 :=
  ⟨Nat.succ_pos _, s.lfoIncLessOne.isLt⟩

/-- The word the window shows of `lfo_inc` is not 0, and is its value wherever 32 bits can show it. -/
theorem incrementWord_spec (s : State) :
    1 ≤ (incrementWord Config.impl s).toNat ∧
    (s.lfoInc < 2 ^ 32 → (incrementWord Config.impl s).toNat = s.lfoInc) := by
  unfold incrementWord
  split
  · rename_i h
    rw [BitVec.toNat_ofNat, Nat.mod_eq_of_lt h]
    exact ⟨(lfoInc_range s).1, fun _ => rfl⟩
  · rename_i h
    exact ⟨Config.impl_valid.wideIncWord_pos, fun h' => absurd h' h⟩

/-- The increment of a `time` in [0, 1] is R137's quotient itself. -/
theorem lfoIncrementLessOne_of_unit (time : F32) (h : InUnit time) :
    (lfoIncrementLessOne Config.impl time).toNat + 1 = Config.impl.timerRes / Config.impl.period time := by
  have hp := Config.impl_valid.period_range time h
  have ht := Config.impl_valid.timerRes_range
  have hpos : 1 ≤ Config.impl.timerRes / Config.impl.period time := Nat.div_pos hp.2 hp.1
  have hle : Config.impl.timerRes / Config.impl.period time ≤ Config.impl.timerRes := Nat.div_le_self _ _
  simp only [lfoIncrementLessOne]
  rw [if_neg (by omega), BitVec.toNat_ofNat, Nat.mod_eq_of_lt (by omega), Nat.sub_add_cancel hpos]

/-! ## Meanings with more than one outcome -/

/-- IN_READ reads a finite word, or faults on one that is not, or stops where there is no word. -/
theorem inReadWith_cases (c : Config) (s : State) :
    (WordExists c (2 * s.n.toNat) ∧
      Binary32.isFinite (bufferWord c s .mainIn (2 * s.n.toNat)) = true ∧
      inReadWith c s = .next { s with
        xIn := bufferWord c s .mainIn (2 * s.n.toNat)
        seq := seqCode .lfoStep }) ∨
    (WordExists c (2 * s.n.toNat) ∧
      Binary32.isFinite (bufferWord c s .mainIn (2 * s.n.toNat)) = false ∧
      inReadWith c s = .next (raiseFault .nonfiniteInput (s.n.zeroExtend 32) s)) ∨
    (¬WordExists c (2 * s.n.toNat) ∧ inReadWith c s = .fault .noSuchWord) := by
  unfold inReadWith takeSample
  by_cases hw : WordExists c (2 * s.n.toNat)
  · cases hx : Binary32.isFinite (bufferWord c s .mainIn (2 * s.n.toNat)) <;> simp [hw]
  · simp [hw]

/-- OUT_WRITE stores its frame, or stops where there is no word. -/
theorem outWriteWith_cases (c : Config) (s : State) :
    (WordExists c (2 * s.n.toNat + 1) ∧
      outWriteWith c s = .next { s with
        mem := storeFrame c s.mem s.n.toNat s.y
        seq := seqCode .gainStep }) ∨
    (¬WordExists c (2 * s.n.toNat + 1) ∧ outWriteWith c s = .fault .noSuchWord) := by
  unfold outWriteWith
  by_cases hw : WordExists c (2 * s.n.toNat + 1) <;> simp [hw]

/-- STAGE stops only where `k` names no stage. -/
theorem stageWith_next_iff (c : Config) (s : State) :
    (∃ t, stageWith c s = .next t) ↔ 1 ≤ s.k.toNat ∧ s.k.toNat ≤ 8 := by
  unfold stageWith
  by_cases hk : 1 ≤ s.k.toNat ∧ s.k.toNat ≤ 8 <;> simp [hk]

/-- Storing a frame keeps the canonical form. -/
theorem wf_storeFrame (c : Config) (m : Memory) (frame : Nat) (v : F32) (hm : Memory.wfWith c m = true) :
    Memory.wfWith c (storeFrame c m frame v) = true := by
  unfold storeFrame
  exact wf_storeWord _ _ _ _ _ (wf_storeWord _ _ _ _ _ (wf_storeWord _ _ _ _ _ (wf_storeWord _ _ _ _ _ hm)))

/-- A byte outside the four words of a stored frame reads what it read before, in any memory. -/
theorem read_storeFrame_outside (c : Config) (m : Memory) (frame : Nat) (v : F32) (a : Nat)
    (h : ∀ (r : Region) (k : Nat), (r = .mainOut ∨ r = .subOut) → (k = 2 * frame ∨ k = 2 * frame + 1) →
      ¬(wordAddr c r k ≤ a ∧ a < wordAddr c r k + 4)) :
    Memory.readWith c (storeFrame c m frame v) a = Memory.readWith c m a := by
  unfold storeFrame storeWord
  rw [Memory.read_writeWord_outside _ _ _ _ _ (h _ _ (Or.inr rfl) (Or.inr rfl)),
    Memory.read_writeWord_outside _ _ _ _ _ (h _ _ (Or.inr rfl) (Or.inl rfl)),
    Memory.read_writeWord_outside _ _ _ _ _ (h _ _ (Or.inl rfl) (Or.inr rfl)),
    Memory.read_writeWord_outside _ _ _ _ _ (h _ _ (Or.inl rfl) (Or.inl rfl))]

/-- A word of the buffer after a word was stored, read as the host or IN_READ reads it. -/
theorem readWord_storeWord (c : Config) (m : Memory) (r r' : Region) (k k' : Nat) (v : Word)
    (hm : Memory.wfWith c m = true) (hk : WordExists c k) (hk' : WordExists c k') :
    Memory.readWord c (storeWord c m r k v) (wordAddr c r' k') =
      if r' = r ∧ k' = k then v else Memory.readWord c m (wordAddr c r' k') := by
  unfold storeWord
  split
  · rename_i h
    obtain ⟨rfl, rfl⟩ := h
    exact Memory.readWord_writeWord_same _ _ _ _ hm
  · rename_i h
    exact Memory.readWord_writeWord_other _ _ _ _ _ (wordAddr_apart c r' r k' k hk' hk h)

/-! ## The meaning each instruction has -/

@[simp] theorem exec_load (s : State) : exec .load s = execLoad s := rfl
@[simp] theorem exec_proc (nfr : Nat) (s : State) : exec (.proc nfr) s = execProc nfr s := rfl
@[simp] theorem exec_setp (idx : Nat) (value : Int) (s : State) : exec (.setp idx value) s = execSetp idx value s := rfl
@[simp] theorem exec_resume (s : State) : exec .resume s = execResume s := rfl
@[simp] theorem exec_blkSetup (s : State) : exec .blkSetup s = execBlkSetup s := rfl
@[simp] theorem exec_inRead (s : State) : exec .inRead s = execInRead s := rfl
@[simp] theorem exec_lfoStep (s : State) : exec .lfoStep s = execLfoStep s := rfl
@[simp] theorem exec_shapePre (s : State) : exec .shapePre s = execShapePre s := rfl
@[simp] theorem exec_lookup (s : State) : exec .lookup s = execLookup s := rfl
@[simp] theorem exec_coef (s : State) : exec .coef s = execCoef s := rfl
@[simp] theorem exec_mix (s : State) : exec .mix s = execMix s := rfl
@[simp] theorem exec_stage (s : State) : exec .stage s = execStage s := rfl
@[simp] theorem exec_limit (s : State) : exec .limit s = execLimit s := rfl
@[simp] theorem exec_outWrite (s : State) : exec .outWrite s = execOutWrite s := rfl
@[simp] theorem exec_gainStep (s : State) : exec .gainStep s = execGainStep s := rfl
@[simp] theorem exec_next (s : State) : exec .next s = execNext s := rfl

/-! ## No meaning refuses -/

/-- Every instruction has a meaning: it answers a next state, or a fault. -/
theorem exec_ne_refused (i : Instr) (s : State) (r : Refusal) : exec i s ≠ .refused r := by
  have acc : ∀ cw b act, acceptCommand cw b s act ≠ .refused r := fun cw b act h => by
    rcases acceptCommand_cases cw b s act with ⟨-, e⟩ | ⟨-, -, -, e⟩ | ⟨-, -, e⟩ <;> simp [e] at h
  cases i with
  | load => exact acc _ _ _
  | proc nfr =>
    rw [exec_proc]
    unfold execProc procWith
    exact acc _ _ _
  | setp idx value => exact acc _ _ _
  | resume => exact acc _ _ _
  | blkSetup => rw [exec_blkSetup]; unfold execBlkSetup blkSetupWith; split <;> simp
  | inRead =>
    intro h
    change inReadWith Config.impl s = _ at h
    rcases inReadWith_cases Config.impl s with ⟨-, -, e⟩ | ⟨-, -, e⟩ | ⟨-, e⟩ <;> simp [e] at h
  | lfoStep => simp [exec, execLfoStep, lfoStepWith]
  | shapePre => simp [exec, execShapePre, shapePreWith]
  | lookup => simp [exec, execLookup, lookupWith]
  | coef => simp [exec, execCoef, coefWith]
  | mix => simp [exec, execMix, mixWith]
  | stage => rw [exec_stage]; unfold execStage stageWith; split <;> simp
  | limit => simp [exec, execLimit, limitWith]
  | outWrite =>
    intro h
    change outWriteWith Config.impl s = _ at h
    rcases outWriteWith_cases Config.impl s with ⟨-, e⟩ | ⟨-, e⟩ <;> simp [e] at h
  | gainStep => simp [exec, execGainStep, gainStepWith]
  | next => rw [exec_next]; unfold execNext; split <;> simp

/-! ## The agents' turns -/

/-- The sequencer's turn changes nothing, runs the micro-operation of `seq`, or is stuck on a reserved code. -/
theorem sequencerTurn_cases (s : State) :
    ((s.faulted = true ∨ s.seq = idleCode) ∧ sequencerTurn s = .next s) ∨
    (s.faulted = false ∧ ∃ i, decode (.seq s.seq) = .instr i ∧ sequencerTurn s = exec i s) ∨
    (s.faulted = false ∧ decode (.seq s.seq) = .reject .reservedSeq ∧
      sequencerTurn s = .fault .reservedSeqCode) := by
  unfold sequencerTurn
  cases hf : s.faulted
  · have hall : ∀ c : BitVec 4, (c = idleCode ∧ decode (.seq c) = .reject .idle) ∨
        (∃ i, decode (.seq c) = .instr i) ∨ decode (.seq c) = .reject .reservedSeq := by
      intro c
      obtain ⟨x, hx⟩ := c
      have hx' : x < 16 := hx
      interval_cases x
      · exact Or.inl ⟨rfl, rfl⟩
      all_goals first
        | exact Or.inr (Or.inl ⟨_, rfl⟩)
        | exact Or.inr (Or.inr rfl)
    rcases hall s.seq with ⟨h, hd⟩ | ⟨i, hd⟩ | hd
    · left; exact ⟨Or.inr h, by simp [hd]⟩
    · right; left; exact ⟨rfl, i, hd, by simp [hd]⟩
    · right; right; exact ⟨rfl, hd, by simp [hd]⟩
  · left; simp

/-- The command port's turn runs a legal command, ignores an illegal one while the block is halted, and faults
on it otherwise. -/
theorem portTurn_cases (cw dw : Word) (s : State) :
    (∃ i, decode (.cmd cw dw) = .instr i ∧ portTurn cw dw s = exec i s) ∨
    (∃ r, decode (.cmd cw dw) = .reject r ∧ s.faulted = true ∧ portTurn cw dw s = .next s) ∨
    (∃ r, decode (.cmd cw dw) = .reject r ∧ s.faulted = false ∧
      portTurn cw dw s = .next (raiseFault .illegalCmd cw s)) := by
  unfold portTurn
  cases hd : decode (.cmd cw dw) with
  | instr i => left; exact ⟨i, rfl, rfl⟩
  | reject r =>
    right
    cases hf : s.faulted
    · right; exact ⟨r, rfl, rfl, by simp⟩
    · left; exact ⟨r, rfl, rfl, by simp⟩

/-- One step is the sequencer's turn when nothing is to come, and the first action otherwise. -/
theorem step_cases (s : State) :
    (s.host = [] ∧ step s = sequencerTurn s) ∨
    (∃ a rest, s.host = a :: rest ∧ step s = actionTurn a rest s) := by
  unfold step turn
  cases hh : s.host with
  | nil => left; exact ⟨rfl, rfl⟩
  | cons a rest => right; exact ⟨a, rest, rfl, rfl⟩

end Sys2Proof.Machine
end

