-- ==== Sys2Proof/Laws/PerInstr.lean ====
section
/-! SUPPORT. The statements made instruction by instruction. -/

namespace Sys2Proof.Laws.RoundTrip

/-- Decoding what the encoder gives for a well-formed instruction gives the instruction back. -/
def Statement (i : Instr) : Prop := WellFormed i → decode (encode i) = .instr i

theorem load : Statement .load := fun _ => by decide

theorem resume : Statement .resume := fun _ => by decide

theorem blkSetup : Statement .blkSetup := fun _ => rfl

theorem inRead : Statement .inRead := fun _ => rfl

theorem lfoStep : Statement .lfoStep := fun _ => rfl

theorem shapePre : Statement .shapePre := fun _ => rfl

theorem lookup : Statement .lookup := fun _ => rfl

theorem coef : Statement .coef := fun _ => rfl

theorem mix : Statement .mix := fun _ => rfl

theorem stage : Statement .stage := fun _ => rfl

theorem limit : Statement .limit := fun _ => rfl

theorem outWrite : Statement .outWrite := fun _ => rfl

theorem gainStep : Statement .gainStep := fun _ => rfl

theorem next : Statement .next := fun _ => rfl

/-- The frame count fills the upper half of the word. -/
theorem proc (nfr : Nat) : Statement (.proc nfr) := by
  intro h
  change nfr < 65536 at h
  have hw : (commandWord (.proc nfr)).toNat = nfr * 65536 + 2 := by
    simp only [commandWord, BitVec.toNat_ofNat]; omega
  have h0 : field (commandWord (.proc nfr)) 3 0 = 2 := by unfold field; rw [hw]; omega
  have h1 : field (commandWord (.proc nfr)) 7 4 = 0 := by unfold field; rw [hw]; omega
  have h2 : field (commandWord (.proc nfr)) 15 8 = 0 := by unfold field; rw [hw]; omega
  have h3 : field (commandWord (.proc nfr)) 31 16 = nfr := by unfold field; rw [hw]; omega
  change decodeCmd (commandWord (.proc nfr)) 0 = _
  unfold decodeCmd
  simp [h0, h1, h2, h3]

/-- The index is the second byte of the word; the value is the data word read as signed. -/
theorem setp (idx : Nat) (value : Int) : Statement (.setp idx value) := by
  intro h
  obtain ⟨hi, hlo, hhi⟩ : idx < 256 ∧ -2147483648 ≤ value ∧ value < 2147483648 := h
  have hw : (commandWord (.setp idx value)).toNat = idx * 256 + 3 := by
    simp only [commandWord, BitVec.toNat_ofNat]; omega
  have h0 : field (commandWord (.setp idx value)) 3 0 = 3 := by unfold field; rw [hw]; omega
  have h1 : field (commandWord (.setp idx value)) 7 4 = 0 := by unfold field; rw [hw]; omega
  have h2 : field (commandWord (.setp idx value)) 31 16 = 0 := by unfold field; rw [hw]; omega
  have h3 : field (commandWord (.setp idx value)) 15 8 = idx := by unfold field; rw [hw]; omega
  have h4 : (BitVec.ofInt 32 value).toInt = value := by
    rw [BitVec.toInt_ofInt]
    exact Int.bmod_eq_of_le (by omega) (by omega)
  change decodeCmd (commandWord (.setp idx value)) (BitVec.ofInt 32 value) = _
  unfold decodeCmd
  simp [h0, h1, h2, h3, h4]

end Sys2Proof.Laws.RoundTrip
end

