-- ==== Sys2Proof/Tests/Slice0.lean ====
section
/-! SUPPORT. The model's own tests. Every expected value is written from the spec: 95_test_vectors.md, the tables of
30_encoding.md, or the example of the rule a test names. The last part gives each statement's hypotheses a witness. -/

namespace Sys2Proof.Tests

open Sys2Proof.Machine

/-! ## Well-formedness: an ill-formed term for each check, and a boundary term that passes -/

theorem test_wf_proc_refuses_nfr_of_17_bits : ¬WellFormed (.proc 65536) := by decide
theorem test_wf_proc_largest : WellFormed (.proc 65535) := by decide
theorem test_wf_setp_refuses_idx_of_9_bits : ¬WellFormed (.setp 256 0) := by decide
theorem test_wf_setp_refuses_value_too_large : ¬WellFormed (.setp 0 2147483648) := by decide
theorem test_wf_setp_refuses_value_too_small : ¬WellFormed (.setp 0 (-2147483649)) := by decide
theorem test_wf_setp_extremes : WellFormed (.setp 255 (-2147483648)) ∧ WellFormed (.setp 0 2147483647) := by decide

/-! ## Decoding: words written out from 30_encoding.md R92 and R98 -/

/-- OP = 0x1 in bits 3:0. -/
theorem test_decode_load : decode (.cmd 0b00000000000000000000000000000001 0xDEADBEEF) = .instr .load := by decide
/-- NFR = 200 in bits 31:16, OP = 0x2. -/
theorem test_decode_proc : decode (.cmd 0b00000000110010000000000000000010 0) = .instr (.proc 200) := by decide
/-- IDX = 0xFF in bits 15:8, OP = 0x3; the data word is signed. -/
theorem test_decode_setp :
    decode (.cmd 0b00000000000000001111111100000011 0xFFFFFFFF) = .instr (.setp 255 (-1)) := by decide
/-- OP = 0x4. -/
theorem test_decode_resume : decode (.cmd 0b00000000000000000000000000000100 7) = .instr .resume := by decide
theorem test_decode_blk_setup : decode (.seq 0b0001) = .instr .blkSetup := by decide
theorem test_decode_in_read : decode (.seq 0b0010) = .instr .inRead := by decide
theorem test_decode_lfo_step : decode (.seq 0b0011) = .instr .lfoStep := by decide
theorem test_decode_shape_pre : decode (.seq 0b0100) = .instr .shapePre := by decide
theorem test_decode_lookup : decode (.seq 0b0101) = .instr .lookup := by decide
theorem test_decode_coef : decode (.seq 0b0110) = .instr .coef := by decide
theorem test_decode_mix : decode (.seq 0b0111) = .instr .mix := by decide
theorem test_decode_stage : decode (.seq 0b1000) = .instr .stage := by decide
theorem test_decode_limit : decode (.seq 0b1001) = .instr .limit := by decide
theorem test_decode_out_write : decode (.seq 0b1010) = .instr .outWrite := by decide
theorem test_decode_gain_step : decode (.seq 0b1011) = .instr .gainStep := by decide
theorem test_decode_next : decode (.seq 0b1100) = .instr .next := by decide

/-- The illegal words of 95_test_vectors.md 2.7. -/
theorem test_decode_illegal :
    decode (.cmd 0x00000000 0) = .reject .reservedOp ∧
    decode (.cmd 0x00000005 0) = .reject .reservedOp ∧
    decode (.cmd 0x00000011 0) = .reject .reservedBits ∧
    decode (.cmd 0x00000101 0) = .reject .unusedField ∧
    decode (.cmd 0x00010004 0) = .reject .unusedField ∧
    decode (.cmd 0x00000102 0) = .reject .unusedField ∧
    decode (.cmd 0x00010003 0) = .reject .unusedField := by decide

/-- The encoder on the lines of R103 and on two sequencer codes of R98. -/
theorem test_encode :
    encode (.proc 300) = .cmd 0x012C0002 0 ∧ encode (.setp 1 2147483647) = .cmd 0x00000103 0x7FFFFFFF ∧
    encode (.setp 0 (-1)) = .cmd 0x00000003 0xFFFFFFFF ∧ encode .stage = .seq 0x8 ∧ encode .next = .seq 0xC := by
  decide

/-- Table rows: a CMD row of the opcode table is longer than a byte, a SEQ row is not. -/
theorem test_decode_table_word :
    decodeTableWord 64 0x4000000000000103 = some (.setp 1 1073741824) ∧
    decodeTableWord 8 0x0B = some .gainStep ∧ decodeTableWord 8 0x0D = none ∧ decodeTableWord 32 0x5 = none := by decide

/-! ## The assembler: 95_test_vectors.md 2.7 and R104 -/

theorem test_asm_setdepth_f : asmWords (.setDepthF 3 10) = (0x00000103, 0x26666666) := by decide
theorem test_asm_nop : asmWords .nop = (0x0000FF03, 0x00000000) := by decide
theorem test_asm_text :
    (readLine "setp 1, 0x7FFFFFFF ; depth").map asmWords = some (0x00000103, 0x7FFFFFFF) ∧
    (readLine "PROC 256").map asmWords = some (0x01000002, 0x00000000) := by decide

/-! ## The example configuration EX of 95_test_vectors.md section 0 -/

/-- `SOFTCLIP` of EX for e ≥ 0. -/
def exCurve (e : F32) : F32 :=
  if Binary32.isInf e then 0x3F666666
  else Binary32.mul .ieee 0x3F666666 (Binary32.div .ieee e (Binary32.add .ieee 0x3F800000 e))

/-- EX. Its three free values are not used by any test. -/
def ex : Config where
  timerRes := 65536
  sampleRate := 0
  periodFn := fun _ t => 256 * 2 ^ (Binary32.truncFinite (Binary32.mul .ieee 0x40800000 t)).toNat
  lfoThreshold := 32768
  lfoAux0 := 0
  lfoShape := fun aux p _ => (aux, BitVec.ofNat 32 p, BitVec.ofNat 32 p)
  satTable := fun i => BitVec.ofNat 16 (16 * i)
  shShift := 2
  limC := 0x3DCCCCCD
  limKnee := 0x3FC00000
  softclip := fun e =>
    if Binary32.isNaN e then Binary32.canonicalNaN
    else if Binary32.sign e then Binary32.negate (exCurve (Binary32.negate e)) else exCurve e
  maxFramesLessOne := 255
  denormalMode := .ieee
  initialByte := fun _ => 0
  freeTrunc := fun _ => 0
  freeIncLessOne := fun _ => 0
  wideIncWord := 1

/-- The block of EX after reset. -/
def ex0 : State := State.resetWith ex

/-- A value of the next state, if there is one. -/
def got {α : Type} (f : State → α) : Result → Option α
  | .next t => some (f t)
  | _ => none

/-! ## One step of each instruction: the vectors of 95_test_vectors.md section 2 -/

/-- 2.2 and section 0: 65536 div 512. -/
theorem test_reset_increment :
    ex0.lfoInc = 128 ∧ readWindowWith ex ex0 0x14 = some 128 ∧ statusWord ex0 = 0 := by decide

/-- 2.2: `time` = 0.75 gives 32; the block of one frame goes on to IN_READ. -/
theorem test_blk_setup :
    got (fun t => (t.lfoInc, t.seq)) (blkSetupWith ex { ex0 with
      time := 0x3F400000
      nfr := 1 }) = some (32, 0x2) := by decide
/-- R137: a block of no frames ends. -/
theorem test_blk_setup_no_frame :
    got (fun t => (t.lfoInc, t.seq, t.busy)) (blkSetupWith ex { ex0 with
      time := 0x3E7FFFF9
      busy := true }) = some (256, 0x0, false) := by decide

/-- 2.2: the phase wraps from 65500 to 92, and the outputs of EX are the new phase. -/
theorem test_lfo_step_wraps :
    got (fun t => (t.lfoPhase, t.lfoPrimary, t.lfoSecondary, t.seq)) (lfoStepWith ex { ex0 with
      lfoPhase := 65500 }) = some (92, 92, 92, 0x4) := by decide
/-- R137, `PERIOD_FN(time)` = 1 with `TIMER_RES` = 2^32: `lfo_inc` is `TIMER_RES`, and the phase does not move. -/
theorem test_lfo_step_widest_turn :
    let wide : Config := { ex with
      timerRes := 4294967296
      periodFn := fun _ _ => 1 }
    let s : State := { State.resetWith wide with lfoPhase := 0xFFFFFFFF }
    s.lfoInc = 4294967296 ∧ got (·.lfoPhase) (lfoStepWith wide s) = some 0xFFFFFFFF := by decide
/-- 2.2: an increment of `TIMER_RES` moves nothing. -/
theorem test_lfo_step_full_turn :
    got (·.lfoPhase) (lfoStepWith ex { ex0 with
      lfoPhase := 100
      lfoIncLessOne := 65535 }) = some 100 := by decide

/-- 2.3: the shift is a floor, -8847.5 gives -8848. -/
theorem test_shape_pre_floor :
    got (fun t => (t.uQ, t.seq)) (shapePreWith ex ex0) = some (95680, 0x5) := by decide
/-- 2.3: the depth conversion truncates, 0.3f × 65536 gives 19660. -/
theorem test_shape_pre_truncates :
    got (·.uQ) (shapePreWith ex { ex0 with depth := 0x3E99999A }) = some 109836 := by decide

/-- 2.1: inside the table. -/
theorem test_lookup :
    got (fun t => (t.lQ, t.seq)) (lookupWith ex { ex0 with uQ := 95936 }) = some (23984, 0x6) := by decide
/-- 2.1: the last sub-unit, and below the domain. -/
theorem test_lookup_ends :
    got (·.lQ) (lookupWith ex { ex0 with uQ := 262143 }) = some 65535 ∧
    got (·.lQ) (lookupWith ex { ex0 with uQ := 0xFFFFFFFF }) = some 0 := by decide

/-- 2.3: COEF of 23984, and of 65536. -/
theorem test_coef :
    got (fun t => (t.b0, t.seq)) (coefWith ex { ex0 with lQ := 23984 }) = some (0xBE69CD70, 0x7) ∧
    got (·.b0) (coefWith ex { ex0 with lQ := 65536 }) = some 0x3F7851EB := by decide

/-- 2.4: 1.0 with `gain` 0.0625 at depth 0.5. -/
theorem test_mix :
    got (fun t => (t.out[0], t.k, t.seq)) (mixWith ex { ex0 with
      xIn := 0x3F800000
      gain := 0x3D800000 }) = some (0x3D200000, 8, 0x8) := by decide
/-- 2.4: the feedback tap alone. -/
theorem test_mix_feedback :
    got (·.out[0]) (mixWith ex { ex0 with
      gain := 0x3F800000
      out := ex0.out.set 8 0x3F800000 }) = some 0x3EC00000 := by decide

/-- 2.4: the last stage goes on to LIMIT. -/
theorem test_stage_one :
    got (fun t => (t.z1[1], t.out[1], t.seq)) (stageWith ex { ex0 with
      k := 1
      b0 := 0xBE67E99A
      out := ex0.out.set 0 0x3D200000 }) = some (0x3D200000, 0xBC10F200, 0x9) := by decide
/-- 2.4: with `b0` = 0 a stage is a delay; stage 8 goes on to stage 7. -/
theorem test_stage_delay :
    got (fun t => (t.z1[8], t.out[8], t.k, t.seq)) (stageWith ex { ex0 with
      k := 8
      out := ex0.out.set 7 0x3F000000
      z1 := ex0.z1.set 8 0x3E800000 }) = some (0x3F000000, 0x3E800000, 7, 0x8) := by decide

/-- 2.5.1: above the threshold, with the sign. -/
theorem test_limit :
    got (fun t => (t.y, t.seq)) (limitWith ex { ex0 with out := ex0.out.set 1 0xBF800000 })
      = some (0xBF5B6DB7, 0xA) := by decide
/-- 2.5.1: just below the threshold the value itself, and +infinity gives `LIM_KNEE`. -/
theorem test_limit_ends :
    got (·.y) (limitWith ex { ex0 with out := ex0.out.set 1 0x3F199999 }) = some 0x3F199999 ∧
    got (·.y) (limitWith ex { ex0 with out := ex0.out.set 1 0x7F800000 }) = some 0x3FC00000 := by decide

/-- 2.5.2: equal to the threshold is no snap. -/
theorem test_gain_step_strict :
    got (fun t => (t.gain, t.seq)) (gainStepWith ex { ex0 with gain := 0x3F7FFE9A }) = some (0x3F7FFEB0, 0xC) := by
  decide
/-- 2.5.2: above it is. -/
theorem test_gain_step_snaps :
    got (·.gain) (gainStepWith ex { ex0 with gain := 0x3F7FFEA2 }) = some 0x3F800000 := by decide

/-- 2.6: `MAIN_IN[2]` of frame 1, least significant byte lowest. -/
theorem test_in_read :
    got (fun t => (t.xIn, t.seq)) (inReadWith ex { ex0 with
      n := 1
      nfr := 2
      mem := [(10, 0x80), (11, 0x3F)] }) = some (0x3F800000, 0x3) := by decide
/-- 2.6: -infinity in frame 5. -/
theorem test_in_read_nonfinite :
    got (fun t => (statusWord t, t.faultInfo)) (inReadWith ex { ex0 with
      n := 5
      nfr := 6
      busy := true
      seq := 0x2
      mem := [(42, 0x80), (43, 0xFF)] }) = some (0x00000042, 5) := by decide

/-- 2.6: the four words of frame 3. -/
theorem test_out_write :
    got (fun t => (hostReadWith ex t .mainOut 6, hostReadWith ex t .mainOut 7, hostReadWith ex t .subOut 6,
        hostReadWith ex t .subOut 7)) (outWriteWith ex { ex0 with
      n := 3
      y := 0x3F000000 }) = some (some 0x3F000000, some 0x3F000000, some 0x3F000000, some 0x3F000000) := by decide
/-- R64, R65: where the bytes of -0.0 lie in frame 0. -/
theorem test_out_write_bytes :
    got (·.mem) (outWriteWith ex { ex0 with y := 0x80000000 })
      = some [(2051, 0x80), (2055, 0x80), (6147, 0x80), (6151, 0x80)] := by decide

/-- 2.6: the last frame ends the block, an earlier one does not. -/
theorem test_next :
    got (fun t => (t.n, t.seq, t.busy)) (execNext { ex0 with
      n := 3
      nfr := 4
      busy := true }) = some (4, 0x0, false) ∧
    got (fun t => (t.n, t.seq)) (execNext { ex0 with nfr := 4 }) = some (1, 0x2) := by decide

/-- 2.11: LOAD in the state after a block. -/
theorem test_load :
    got (fun t => (t.lfoPhase, t.lfoInc, t.gain, t.z1[3], t.time)) (loadWith ex { ex0 with
      lfoPhase := 512
      gain := 0x3F000000
      z1 := ex0.z1.set 3 0x3E800000
      time := 0 }) = some (0, 128, 0, 0, 0x3E800000) := by decide
/-- 2.9: LOAD while a block runs. -/
theorem test_load_busy :
    got (fun t => (statusWord t, t.faultInfo)) (loadWith ex { ex0 with
      busy := true
      seq := 0x2 }) = some (0x00000022, 0x00000001) := by decide

/-- R223: the example, PROC 4. -/
theorem test_proc :
    got (fun t => (t.nfr, t.n, statusWord t)) (procWith ex 4 { ex0 with n := 9 }) = some (4, 0, 0x00000101) := by decide
/-- 2.9: PROC 300 under EX; PROC 256 is accepted (2.7). -/
theorem test_proc_too_large :
    got (fun t => (statusWord t, t.faultInfo, t.nfr)) (procWith ex 300 ex0) = some (0x00000032, 0x012C0002, 0) ∧
    got (·.nfr) (procWith ex 256 ex0) = some 256 := by decide

/-- 2.7: 0x7FFFFFFF rounds to 1.0, 1 gives 2^-31. -/
theorem test_setp :
    got (·.depth) (setpWith ex 1 2147483647 ex0) = some 0x3F800000 ∧
    got (·.time) (setpWith ex 0 1 ex0) = some 0x30000000 := by decide
/-- 2.7: a negative value gives 0; 2.9: SETP during a block is no fault. -/
theorem test_setp_clamps :
    got (fun t => (t.depth, t.faulted)) (setpWith ex 1 (-2147483648) { ex0 with busy := true }) = some (0, false) := by
  decide

/-- R225: the example. -/
theorem test_resume :
    got (fun t => (t.gain, t.z1[3], t.lfoPhase)) (execResume { ex0 with
      gain := 0x3F000000
      z1 := ex0.z1.set 3 0x3E800000
      lfoPhase := 512 }) = some (0, 0, 512) := by decide
/-- 2.9: RESUME while a block runs. -/
theorem test_resume_busy :
    got (fun t => (statusWord t, t.faultInfo)) (execResume { ex0 with
      busy := true
      seq := 0x2 }) = some (0x00000022, 0x00000004) := by decide

/-! ## Steps: each row of the opcode table runs as the first instruction after reset -/

theorem test_step_runs_a_placed_code :
    step (State.reset.withFetchWord 8 0x2) = exec .inRead { State.reset with seq := 0x2 } := rfl
theorem test_step_runs_a_placed_command :
    step (State.reset.withFetchWord 64 0x00040002) = exec (.proc 4) State.reset := rfl
/-- 2.9: an illegal word in an idle block. -/
theorem test_step_illegal :
    got (fun t => (statusWord t, t.faultInfo)) (step { State.reset with host := [.command 0x00000011 0] })
      = some (0x00000012, 0x00000011) := by decide
/-- 2.9: LOAD in a halted block is ignored; hardware reset is not. -/
theorem test_step_halted :
    got statusWord (step { State.reset with
      faulted := true
      fcode := 4
      host := [.command 1 0] }) = some 0x00000042 ∧
    got statusWord (step { State.reset with
      faulted := true
      fcode := 4
      host := [.hardReset] }) = some 0 := by decide
/-- R99: a reserved code is stuck. -/
theorem test_step_reserved : got (·.seq) (step { State.reset with seq := 0xD }) = none := by decide

/-! ## Floats (R18, R25, R29) -/

/-- The sum of the two smallest subnormals, kept and flushed (R25). -/
theorem test_float_denormal_modes :
    Binary32.add .ieee 1 1 = 2 ∧ Binary32.add .ftz 1 1 = 0 ∧ Binary32.mul .ftz 0x80000001 0x3F800000 = 0x80000000 := by
  decide
/-- infinity - infinity is the canonical NaN, and a NaN compares false (R29). -/
theorem test_float_nan :
    Binary32.sub .ieee 0x7F800000 0x7F800000 = 0x7FC00000 ∧ Binary32.add .ieee 0xFFC12345 0 = 0x7FC00000 ∧
    Binary32.lt .ieee 0x7FC00000 0 = false ∧ Binary32.copysign 0x7FC00000 0x80000000 = 0xFFC00000 := by decide
/-- f32(2^31 - 1) is 2^31 (R224), and a tie goes to the even neighbour. -/
theorem test_float_of_int :
    Binary32.ofInt 2147483647 = 0x4F000000 ∧ Binary32.ofInt 16777217 = 0x4B800000 ∧
    Binary32.ofInt (-16777219) = 0xCB800002 := by decide

/-! ## Witnesses: for each statement with hypotheses, states and operands that meet them, at the boundaries of
their ranges -/

theorem reset_fits : 0 < Config.impl.maxFrames := Nat.succ_pos _

/-- A started block of one frame, before BLK_SETUP. -/
def started : State :=
  { State.reset with
    busy := true
    seq := 0x1
    nfr := 1
    lfoIncLessOne := 0 }

/-- The same block before its first STAGE. -/
def staging : State :=
  { started with
    seq := 0x8
    k := 8 }

theorem started_invariant : BlockInvariant started where
  time_unit := by decide
  depth_unit := by decide
  gain_unit := by decide
  inc_pos := by decide
  phase_lt := by
    have := Config.impl_valid.timerRes_range
    show 0 < _
    omega
  primary_lt := by decide
  secondary_lt := by decide
  frame_le := by decide
  frames_le := reset_fits
  busy_iff := by decide
  halted_idle := by decide
  seq_code := by decide
  setup_first := by decide
  frame_lt := by decide
  stage_k := by decide
  threshold_eq := rfl
  z1_zero := by decide
  input_finite := by decide
  lookup_range := by decide
  coef_range := by decide
  no_fault_zero := by decide
  fault_code := by decide
  mem_wf := by decide

theorem staging_invariant : BlockInvariant staging :=
  { started_invariant with
    busy_iff := by decide
    halted_idle := by decide
    seq_code := by decide
    setup_first := by decide
    frame_lt := by decide
    stage_k := by decide }

/-- A block halted by an illegal transaction. -/
def halted : State :=
  { State.reset with
    faulted := true
    fcode := 0x1 }

theorem witness_DecodeAndEncodeAgree :
    WellFormed (.setp 255 (-2147483648)) ∧ WellFormed (.proc 65535) ∧ WellFormed .stage ∧
    decode (.cmd 0xFFFF0002 5) = .instr (.proc 65535) ∧
    decode (.cmd 0x0000FF03 0x80000000) = .instr (.setp 255 (-2147483648)) ∧
    decode (.seq 0x1) = .instr .blkSetup ∧ decode (.seq 0xC) = .instr .next := by decide

theorem witness_DataWordIsReadBySetpAlone :
    (0x00000001 : Word).extractLsb' 0 4 ≠ 3 ∧
    decode (.cmd 0x00000003 0x7FFFFFFF) = .instr (.setp 0 2147483647) ∧
    decode (.cmd 0x00010003 1) = .reject .unusedField := by decide

theorem witness_HardResetKeepsTheBufferMemory :
    ∃ s : State, s.host = .hardReset :: [.wait] ∧ s.busy = true ∧ s.mem = [(0, 1)] :=
  ⟨{ started with
    host := [.hardReset, .wait]
    mem := [(0, 1)] }, rfl, rfl, rfl⟩

/-- An idle block: LoadIsResetWithoutTheStatus, ResumeClearsTheFilter and ClearingTwiceIsClearingOnce. -/
theorem witness_idle : ∃ s : State, s.faulted = false ∧ s.busy = false ∧ s.gain = 0x3F800000 :=
  ⟨{ State.reset with gain := 0x3F800000 }, rfl, rfl, rfl⟩

theorem witness_ProcStartsABlockThatFits :
    State.reset.faulted = false ∧ State.reset.busy = false ∧ 0 ≤ Config.impl.maxFrames ∧
    Config.impl.maxFrames ≤ Config.impl.maxFrames ∧ Config.impl.maxFrames < Config.impl.maxFrames + 1 :=
  ⟨rfl, rfl, Nat.zero_le _, Nat.le_refl _, Nat.lt_succ_self _⟩

theorem witness_SetpWritesTheParameterItNames :
    State.reset.faulted = false ∧ started.faulted = false ∧ (2 : Nat) ≠ 0 ∧ (2 : Nat) ≠ 1 ∧ (255 : Nat) ≠ 0 := by decide

theorem witness_SetpStoresTheNearestUnitValue :
    State.reset.faulted = false ∧
    (-2147483648 ≤ (-2147483648 : Int) ∧ (-2147483648 : Int) < 2147483648 ∧ (-2147483648 : Int) ≤ 0) ∧
    (-2147483648 ≤ (1 : Int) ∧ (1 : Int) < 2147483648 ∧ (0 : Int) < 1) ∧
    (-2147483648 ≤ (2147483647 : Int) ∧ (2147483647 : Int) < 2147483648) ∧
    Binary32.isFinite 0x00000001 = true := by decide

theorem witness_CommandsDuringABlockHaltIt : started.faulted = false ∧ started.busy = true := by decide

theorem witness_HaltedBlockIgnoresCommands :
    halted.faulted = true ∧ isCommand .load = true ∧ isCommand (.setp 0 0) = true ∧ halted.host = [] ∧
    (∃ s : State, s.faulted = true ∧ s.host = [.command 0 0]) ∧
    (∃ s : State, s.faulted = true ∧ s.host = [.sequencer]) :=
  ⟨rfl, rfl, rfl, rfl, ⟨{ halted with host := [.command 0 0] }, rfl, rfl⟩,
    ⟨{ halted with host := [.sequencer] }, rfl, rfl⟩⟩

theorem witness_OnlyHardResetLeavesTheHaltedState :
    halted.faulted = true ∧ (∀ rest, halted.host ≠ .hardReset :: rest) ∧ step halted = .next halted ∧
    (∀ r k v rest, halted.host ≠ .bufferWrite r k v :: rest) := by
  have h : halted.host = [] := rfl
  simp only [h]
  exact ⟨rfl, fun _ => by simp, rfl, fun _ _ _ _ => by simp⟩

/-- One illegal word for each way to be illegal, in an idle and in a running block. -/
theorem witness_IllegalTransactionHaltsTheBlock :
    (∃ s : State, s.faulted = false ∧ s.busy = true ∧ s.host = [.command 0x00000102 0]) ∧
    ((0x00000005 : Word).extractLsb' 0 4 ≠ 1 ∧ (0x00000005 : Word).extractLsb' 0 4 ≠ 2 ∧
      (0x00000005 : Word).extractLsb' 0 4 ≠ 3 ∧ (0x00000005 : Word).extractLsb' 0 4 ≠ 4) ∧
    (0x00000011 : Word).extractLsb' 4 4 ≠ 0 ∧
    ((0x00010004 : Word).extractLsb' 0 4 = 4 ∧ (0x00010004 : Word).extractLsb' 8 24 ≠ 0) ∧
    ((0x00000102 : Word).extractLsb' 0 4 = 2 ∧ (0x00000102 : Word).extractLsb' 8 8 ≠ 0) ∧
    ((0x00010003 : Word).extractLsb' 0 4 = 3 ∧ (0x00010003 : Word).extractLsb' 16 16 ≠ 0) :=
  ⟨⟨{ started with host := [.command 0x00000102 0] }, rfl, rfl, rfl⟩, by decide⟩

theorem witness_BlkSetupComputesTheIncrement :
    InUnit State.reset.time ∧ InUnit 0x00000000 ∧ InUnit 0x3F800000 ∧ 0 < started.nfr.toNat ∧
    ¬0 < State.reset.nfr.toNat := by decide

theorem witness_PhaseHasThePeriodOfTheRule : State.reset.lfoPhase.toNat < Config.impl.timerRes := by
  have := Config.impl_valid.timerRes_range
  show 0 < _
  omega

/-- Later turns of the phase: with an increment of 1 the period is `TIMER_RES`, at least 2, so 1 is an earlier one,
and one LFO_STEP answers a next state. -/
theorem witness_PhaseHasThePeriodOfTheRule_earlier :
    0 < 1 ∧ 1 < Config.impl.timerRes / Nat.gcd Config.impl.timerRes started.lfoInc ∧
    ∃ t, repeatExec .lfoStep 1 started = .next t := by
  refine ⟨Nat.one_pos, ?_, ⟨_, rfl⟩⟩
  have := Config.impl_valid.timerRes_range
  have e : started.lfoInc = 1 := by decide
  rw [e, Nat.gcd_one_right, Nat.div_one]
  omega

theorem witness_ShapePre : InUnit State.reset.depth ∧ State.reset.lfoSecondary.toNat < 65536 ∧
    InUnit 0x3F800000 ∧ (65535 : Q16).toNat < 65536 := by decide

theorem witness_LookupIsMonotone : (0x80000000 : Word).toInt ≤ (0x7FFFFFFF : Word).toInt := by decide

/-- The first and the last entry boundary. -/
theorem witness_LookupHasNoSeam :
    (0 < 1024 ∧ (255 : Word).toInt = 256 * (0 : Nat) + 255 ∧ (256 : Word).toInt = 256 * (0 : Nat) + 256) ∧
    (1023 < 1024 ∧ (262143 : Word).toInt = 256 * (1023 : Nat) + 255 ∧
      (262144 : Word).toInt = 256 * (1023 : Nat) + 256) := by decide

theorem witness_CoefStaysInItsRange :
    (0 ≤ (0 : Q16).toInt ∧ (0 : Q16).toInt ≤ 65536) ∧ (0 ≤ (65536 : Q16).toInt ∧ (65536 : Q16).toInt ≤ 65536) := by decide

theorem witness_StageUpdatesOneCell :
    (1 ≤ staging.k.toNat ∧ staging.k.toNat ≤ 8) ∧ (1 ≤ (1 : BitVec 4).toNat ∧ (1 : BitVec 4).toNat ≤ 8) := by decide

theorem witness_AccessesToNothingStop :
    ¬(1 ≤ State.reset.k.toNat ∧ State.reset.k.toNat ≤ 8) ∧ ¬(1 ≤ (9 : BitVec 4).toNat ∧ (9 : BitVec 4).toNat ≤ 8) ∧
    ∃ s : State, Config.impl.maxFrames ≤ s.n.toNat :=
  ⟨by decide, by decide, { State.reset with n := 65535 }, Config.impl_valid.maxFrames_range.2⟩

theorem witness_LimitNeverExceedsTheKnee :
    Binary32.isNaN State.reset.out[1] = false ∧ Binary32.isNaN 0x7F800000 = false ∧ Binary32.isNaN 0xFF7FFFFF = false := by
  decide

theorem witness_GainRampReachesUnity : State.reset.gain = 0 ∧ 168 ≤ 168 := ⟨rfl, Nat.le_refl _⟩

/-- A finite word in frame 0 and one that is not, whatever the memory held at power-on. -/
theorem witness_InReadTakesAFiniteSample :
    (∃ s : State, s.n.toNat < Config.impl.maxFrames ∧
      (Memory.readWord Config.impl s.mem (8 * s.n.toNat)).extractLsb' 23 8 ≠ 0xFF) ∧
    ∃ s : State, s.n.toNat < Config.impl.maxFrames ∧
      (Memory.readWord Config.impl s.mem (8 * s.n.toNat)).extractLsb' 23 8 = 0xFF := by
  have same (v : Word) : Memory.readWord Config.impl (Memory.writeWord Config.impl [] 0 v) 0 = v :=
    Memory.readWord_writeWord_same Config.impl [] 0 v rfl
  refine ⟨⟨{ State.reset with mem := Memory.writeWord Config.impl [] 0 0x3F800000 }, reset_fits, ?_⟩,
    ⟨{ State.reset with mem := Memory.writeWord Config.impl [] 0 0x7F800000 }, reset_fits, ?_⟩⟩
  · show (Memory.readWord Config.impl (Memory.writeWord Config.impl [] 0 0x3F800000) 0).extractLsb' 23 8 ≠ 0xFF
    rw [same]
    decide
  · show (Memory.readWord Config.impl (Memory.writeWord Config.impl [] 0 0x7F800000) 0).extractLsb' 23 8 = 0xFF
    rw [same]
    decide

/-- Frame 0 and the last frame; a stored word and an address outside the stored ones. -/
theorem witness_OutWriteStoresTheFrame :
    State.reset.n.toNat < Config.impl.maxFrames ∧ Memory.wf State.reset.mem = true ∧
    (BitVec.ofNat 16 (Config.impl.maxFrames - 1)).toNat < Config.impl.maxFrames ∧
    (∀ (r : Region) (k : Nat), (r = .mainOut ∨ r = .subOut) → (k = 2 * 0 ∨ k = 2 * 0 + 1) →
      ¬(wordAddr Config.impl r k ≤ 0 ∧ 0 < wordAddr Config.impl r k + 4)) := by
  have h := Config.impl_valid.maxFrames_range
  refine ⟨reset_fits, rfl, ?_, ?_⟩
  · rw [BitVec.toNat_ofNat, Nat.mod_eq_of_lt (by omega)]
    omega
  · rintro r k (rfl | rfl) - <;> simp only [wordAddr, regionBase] <;> omega

theorem witness_NextEndsTheFrame :
    State.reset.n.toNat < 65535 ∧ (65534 : BitVec 16).toNat < 65535 ∧ State.reset.n.toNat + 1 < (2 : BitVec 16).toNat ∧
    ¬State.reset.n.toNat + 1 < State.reset.nfr.toNat := by decide

/-- The address of the last clause is in MAIN_IN: it lies in no output word. -/
theorem witness_NothingWritesOutsideTheWriterTable :
    (∃ t, exec .mix started = .next t) ∧ (∃ t, exec .load started = .next t) ∧
    (∃ t, exec .outWrite started = .next t) ∧
    (∀ (r : Region) (k : Nat), (r = .mainOut ∨ r = .subOut) →
      (k = 2 * started.n.toNat ∨ k = 2 * started.n.toNat + 1) →
      ¬(wordAddr Config.impl r k ≤ 0 ∧ 0 < wordAddr Config.impl r k + 4)) ∧
    ∃ s t : State, s.host = .hardReset :: [] ∧ step s = .next t := by
  have h := reset_fits
  refine ⟨⟨_, rfl⟩, ⟨_, rfl⟩, ⟨_, rfl⟩, ?_, { started with host := [.hardReset] }, _, rfl, rfl⟩
  rintro r k (rfl | rfl) - <;> simp only [wordAddr, regionBase] <;> omega

theorem witness_ParametersAreReadWhereTheRulesSay :
    Instr.mix ≠ .blkSetup ∧ Instr.coef ≠ .shapePre ∧ Instr.coef ≠ .mix ∧ Instr.coef ≠ .gainStep := by decide

theorem witness_StepRunsTheDecodedInstruction :
    (started.faulted = false ∧ decode (.seq started.seq) = .instr .blkSetup ∧ started.host = []) ∧
    (∃ s : State, s.faulted = false ∧ decode (.seq s.seq) = .instr .stage ∧ s.host = [.sequencer]) ∧
    (∃ s : State, s.faulted = false ∧ decode (.seq s.seq) = .instr .stage ∧ s.host = [.wait] ∧ s.busy = true) ∧
    (∃ s : State, s.host = [.command 0x00000001 9] ∧ decode (.cmd 0x00000001 9) = .instr .load) :=
  ⟨⟨rfl, rfl, rfl⟩, ⟨{ staging with host := [.sequencer] }, rfl, rfl, rfl⟩,
    ⟨{ staging with host := [.wait] }, rfl, rfl, rfl, rfl⟩,
    ⟨{ State.reset with host := [.command 0x00000001 9] }, rfl, rfl⟩⟩

theorem witness_IdleSequencerDoesNothing :
    State.reset.faulted = false ∧ State.reset.seq = 0x0 ∧ State.reset.host = [] ∧
    (∃ s : State, s.faulted = false ∧ s.seq = 0x0 ∧ s.host = [.sequencer]) ∧
    (∃ s : State, s.faulted = false ∧ 0xD ≤ s.seq.toNat ∧ s.host = []) :=
  ⟨rfl, rfl, rfl, ⟨{ State.reset with host := [.sequencer] }, rfl, rfl, rfl⟩,
    ⟨{ State.reset with seq := 0xD }, rfl, by decide, rfl⟩⟩

theorem witness_EveryStepKeepsTheInvariant : BlockInvariant staging ∧ ∃ t, step staging = .next t :=
  ⟨staging_invariant, _, rfl⟩

theorem witness_MachineNeverStops : ∃ s : State, BlockInvariant s ∧ HostOk s ∧ s.host ≠ [] := by
  refine ⟨{ staging with host := [.bufferWrite .mainIn 1 5, .wait] }, { staging_invariant with }, ?_, ?_⟩
  · intro r k v h
    have hk : k = 1 := by simp at h; exact h.2.1
    have := reset_fits
    show k < 2 * _
    omega
  · exact fun h => by cases h

/-- A memory that lists one byte, other than the one at power-on. -/
theorem witness_MemoryStaysCanonical : ∃ s t : State, Memory.wf s.mem = true ∧ s.mem ≠ [] ∧ step s = .next t := by
  refine ⟨{ staging with mem := [(7, Config.impl.initialByte 7 + 1)] }, _, ?_, by simp, rfl⟩
  simp [Memory.wfWith, Memory.wfFrom, blankByte]

/-- The started block with the input +0.0 in its one frame. -/
def loaded : State := { started with mem := storeWord Config.impl [] .mainIn 0 0 }

/-- A block of one frame whose input word is +0.0; a frame below `nfr`, and a word past the block's: this statement and
BlockWritesOneSampleToAllChannels. -/
theorem witness_BlockRunsToCompletion :
    BlockInvariant loaded ∧ loaded.host = [] ∧ loaded.seq = 0x1 ∧ InputsFinite loaded ∧
    0 < 1 + 18 * loaded.nfr.toNat ∧ 0 < loaded.nfr.toNat ∧ 2 * loaded.nfr.toNat ≤ 2 := by
  refine ⟨{ started_invariant with mem_wf := wf_storeWord Config.impl [] _ _ _ rfl }, rfl, rfl, ?_, by decide, by decide,
    by decide⟩
  intro j hj
  have hj0 : j = 0 := by
    have : j < 1 := hj
    omega
  subst hj0
  show Binary32.isFinite (Memory.readWord Config.impl (storeWord Config.impl [] .mainIn 0 0)
    (wordAddr Config.impl .mainIn 0)) = true
  unfold storeWord
  rw [Memory.readWord_writeWord_same Config.impl [] _ 0 rfl]
  decide

/-- A block of no frames. -/
theorem witness_BlockOfNoFrames :
    ∃ s : State, BlockInvariant s ∧ s.host = [] ∧ s.seq = 0x1 ∧ s.nfr = 0 ∧ InputsFinite s :=
  ⟨{ started with nfr := 0 }, { started_invariant with
    frame_le := by decide
    frames_le := Nat.zero_le _
    frame_lt := by decide }, rfl, rfl, rfl, fun _ h => absurd h (Nat.not_lt_zero _)⟩

theorem witness_RegisterWindowShowsTheRegisters :
    (0x30 % 4 = 0 ∧ 0x30 ≤ 0xFC ∧ 0x2C < 0x30 ∧ 0x30 < 0x40) ∧ (0x64 % 4 = 0 ∧ 0x60 < 0x64 ∧ 0x64 < 0x80) ∧
    (0xA4 % 4 = 0 ∧ 0xA0 < 0xA4 ∧ 0xFC ≤ 0xFC) ∧ (0x41 % 4 ≠ 0 ∧ 0xFC < 0x100) ∧
    ∃ s : State, s.host = [.windowWrite 0x08 7] :=
  ⟨by decide, by decide, by decide, by decide, { State.reset with host := [.windowWrite 0x08 7] }, rfl⟩

theorem witness_BufferWordsLieApart :
    0 < 2 * Config.impl.maxFrames ∧ 2 * Config.impl.maxFrames - 1 < 2 * Config.impl.maxFrames ∧
    ¬(Region.mainIn = Region.mainOut ∧ 0 = 0) := by
  have := reset_fits
  exact ⟨by omega, by omega, by decide⟩

theorem witness_HostWriteTakesEffectAtItsStep :
    (∃ s : State, s.host = [.bufferWrite .subOut 0 1] ∧ Memory.wf s.mem = true ∧ s.busy = true) ∧
    0 < 2 * Config.impl.maxFrames ∧ 0 < 4 ∧ ¬(Region.mainIn = Region.subOut ∧ 0 = 0) ∧
    2 * Config.impl.maxFrames ≤ 2 * Config.impl.maxFrames := by
  have := reset_fits
  exact ⟨⟨{ started with host := [.bufferWrite .subOut 0 1] }, rfl, rfl, rfl⟩, by omega, by decide, by decide, le_rfl⟩

theorem witness_FloatResultsAreNearest :
    Binary32.isFinite 0x3F800001 = true ∧ Binary32.isFinite 0x34000000 = true ∧
    Binary32.isFinite (Binary32.add .ieee 0x3F800001 0x34000000) = true ∧
    Binary32.isFinite (Binary32.sub .ieee 0x3F800001 0x34000000) = true ∧
    Binary32.isFinite (Binary32.mul .ieee 0x3F800001 0x34000000) = true := by decide

theorem witness_FloatNaNsAreCanonical :
    Binary32.isNaN 0xFF800001 = true ∧ Binary32.isNaN (Binary32.add .ftz 0x7F800000 0xFF800000) = true ∧
    Binary32.isNaN (Binary32.sub .ieee 0x7F800000 0x7F800000) = true ∧
    Binary32.isNaN (Binary32.mul .ieee 0x7F800000 0x00000000) = true ∧
    Binary32.isNaN (Binary32.div .ieee 0x00000000 0x80000000) = true := by decide

end Sys2Proof.Tests
end

section
/-! The command decoder by the OP field: one equation for each operation, from which the statements about
reserved encodings and about the data word follow (30_encoding.md R92 to R96). -/

namespace Sys2Proof.Decoding

/-- A numeric field is the number of the bit slice of the same place. -/
theorem field_eq_toNat_extractLsb' (v : Word) (hi lo : Nat) :
    field v hi lo = (v.extractLsb' lo (hi + 1 - lo)).toNat := by
  simp [field, BitVec.extractLsb'_toNat, Nat.shiftRight_eq_div_pow]

/-- A field's number is zero exactly when the bit slice of the same place is. -/
theorem field_eq_zero_iff (v : Word) (hi lo : Nat) :
    field v hi lo = 0 ↔ v.extractLsb' lo (hi + 1 - lo) = 0 := by
  rw [field_eq_toNat_extractLsb']
  exact BitVec.toNat_inj (y := 0)

/-- The part of R95 that all four operations share: an instruction, unless `RSV` or the fields its operation does
not use are not 0. -/
def unlessReserved {w : Nat} (rsv : BitVec 4) (unused : BitVec w) (i : Instr) : Decoded :=
  if rsv ≠ 0 then .reject .reservedBits
  else if unused ≠ 0 then .reject .unusedField
  else .instr i

section UnlessReserved
variable {w : Nat} {rsv : BitVec 4} {unused : BitVec w} {i j : Instr} {r : Reject}

theorem unlessReserved_eq_instr_iff :
    unlessReserved rsv unused i = .instr j ↔ rsv = 0 ∧ unused = 0 ∧ i = j := by
  unfold unlessReserved
  split_ifs <;> simp_all

theorem unlessReserved_eq_reject_iff :
    unlessReserved rsv unused i = .reject r ↔
      (rsv ≠ 0 ∧ .reservedBits = r) ∨ (rsv = 0 ∧ unused ≠ 0 ∧ .unusedField = r) := by
  unfold unlessReserved
  split_ifs <;> simp_all

theorem exists_unlessReserved_eq_reject_iff :
    (∃ r, unlessReserved rsv unused i = .reject r) ↔ rsv ≠ 0 ∨ unused ≠ 0 := by
  simp only [unlessReserved_eq_reject_iff]
  by_cases rsv = 0 <;> simp_all

end UnlessReserved

/-- OP is reserved or names one of the four operations (R92). -/
theorem op_cases (op : BitVec 4) :
    (op = 0 ∨ 5 ≤ op.toNat) ∨ op = 1 ∨ op = 2 ∨ op = 3 ∨ op = 4 := by
  bv_omega

section ByOp
variable {cw : Word} (dw : Word)

theorem decode_of_op_load (hop : cw.extractLsb' 0 4 = 1) :
    decode (.cmd cw dw) = unlessReserved (cw.extractLsb' 4 4) (cw.extractLsb' 8 24) .load := by
  have h : field cw 3 0 = 1 := by rw [field_eq_toNat_extractLsb', hop]; rfl
  simp [decode, decodeCmd, unlessReserved, h, field_eq_zero_iff]

theorem decode_of_op_proc (hop : cw.extractLsb' 0 4 = 2) :
    decode (.cmd cw dw) = unlessReserved (cw.extractLsb' 4 4) (cw.extractLsb' 8 8)
      (.proc (cw.extractLsb' 16 16).toNat) := by
  have h : field cw 3 0 = 2 := by rw [field_eq_toNat_extractLsb', hop]; rfl
  simp [decode, decodeCmd, unlessReserved, h, field_eq_zero_iff, field_eq_toNat_extractLsb' cw 31 16]

theorem decode_of_op_setp (hop : cw.extractLsb' 0 4 = 3) :
    decode (.cmd cw dw) = unlessReserved (cw.extractLsb' 4 4) (cw.extractLsb' 16 16)
      (.setp (cw.extractLsb' 8 8).toNat dw.toInt) := by
  have h : field cw 3 0 = 3 := by rw [field_eq_toNat_extractLsb', hop]; rfl
  simp [decode, decodeCmd, unlessReserved, h, field_eq_zero_iff, field_eq_toNat_extractLsb' cw 15 8]

theorem decode_of_op_resume (hop : cw.extractLsb' 0 4 = 4) :
    decode (.cmd cw dw) = unlessReserved (cw.extractLsb' 4 4) (cw.extractLsb' 8 24) .resume := by
  have h : field cw 3 0 = 4 := by rw [field_eq_toNat_extractLsb', hop]; rfl
  simp [decode, decodeCmd, unlessReserved, h, field_eq_zero_iff]

theorem decode_of_op_reserved (hop : cw.extractLsb' 0 4 = 0 ∨ 5 ≤ (cw.extractLsb' 0 4).toNat) :
    decode (.cmd cw dw) = .reject .reservedOp := by
  have h : field cw 3 0 = 0 ∨ 5 ≤ field cw 3 0 := by
    rw [field_eq_zero_iff, field_eq_toNat_extractLsb']
    exact hop
  simp only [decode, decodeCmd]
  split
  case h_5 => rfl
  all_goals omega

end ByOp

/-- The data word is not read when OP is not SETP (R93). -/
theorem decode_cmd_eq_of_op_ne_setp {cw : Word} (hop : cw.extractLsb' 0 4 ≠ 3) (dw dw' : Word) :
    decode (.cmd cw dw) = decode (.cmd cw dw') := by
  rcases op_cases (cw.extractLsb' 0 4) with h | h | h | h | h
  · rw [decode_of_op_reserved dw h, decode_of_op_reserved dw' h]
  · rw [decode_of_op_load dw h, decode_of_op_load dw' h]
  · rw [decode_of_op_proc dw h, decode_of_op_proc dw' h]
  · exact absurd h hop
  · rw [decode_of_op_resume dw h, decode_of_op_resume dw' h]

/-- The command words of a SETP and the operands it carries (R92 to R94). -/
theorem decode_cmd_eq_setp_iff {cw dw : Word} {idx : Nat} {value : Int} :
    decode (.cmd cw dw) = .instr (.setp idx value) ↔
      cw.extractLsb' 0 4 = 3 ∧ cw.extractLsb' 4 4 = 0 ∧ cw.extractLsb' 16 16 = 0 ∧
      (cw.extractLsb' 8 8).toNat = idx ∧ dw.toInt = value := by
  rcases op_cases (cw.extractLsb' 0 4) with h | h | h | h | h
  · have hne : cw.extractLsb' 0 4 ≠ 3 := by bv_omega
    simp only [decode_of_op_reserved dw h, reduceCtorEq, hne, false_and]
  · simp [decode_of_op_load dw h, unlessReserved_eq_instr_iff, h]
  · simp [decode_of_op_proc dw h, unlessReserved_eq_instr_iff, h]
  · simp [decode_of_op_setp dw h, unlessReserved_eq_instr_iff, h]
  · simp [decode_of_op_resume dw h, unlessReserved_eq_instr_iff, h]

/-- No data word changes why a command is illegal (R248). -/
theorem decode_cmd_eq_reject_of_data {cw dw : Word} {r : Reject} (dw' : Word)
    (h : decode (.cmd cw dw) = .reject r) : decode (.cmd cw dw') = .reject r := by
  by_cases hop : cw.extractLsb' 0 4 = 3
  · rw [decode_of_op_setp _ hop, unlessReserved_eq_reject_iff] at h ⊢
    exact h
  · rw [← decode_cmd_eq_of_op_ne_setp hop dw dw', h]

/-- Settles O4, by the operation that OP names. -/
theorem reservedEncodingsAreIllegal : Obligations.ReservedEncodingsAreIllegal := by
  intro cw dw
  rcases op_cases (cw.extractLsb' 0 4) with h | h | h | h | h
  · simp only [decode_of_op_reserved dw h, h, true_or, iff_true]
    exact ⟨_, rfl⟩
  · rw [decode_of_op_load dw h, exists_unlessReserved_eq_reject_iff]
    simp [h]
  · rw [decode_of_op_proc dw h, exists_unlessReserved_eq_reject_iff]
    simp [h]
  · rw [decode_of_op_setp dw h, exists_unlessReserved_eq_reject_iff]
    simp [h]
  · rw [decode_of_op_resume dw h, exists_unlessReserved_eq_reject_iff]
    simp [h]

/-- Settles O5, from the words that decode to a SETP and the data word's irrelevance elsewhere. -/
theorem dataWordIsReadBySetpAlone : Obligations.DataWordIsReadBySetpAlone := by
  refine fun cw dw dw' => ⟨fun hop => decode_cmd_eq_of_op_ne_setp hop dw dw', fun idx value h => ?_,
    fun r h => decode_cmd_eq_reject_of_data dw' h⟩
  obtain ⟨hop, hrsv, hnfr, hidx, hvalue⟩ := decode_cmd_eq_setp_iff.1 h
  exact ⟨hvalue.symm, decode_cmd_eq_setp_iff.2 ⟨hop, hrsv, hnfr, hidx, rfl⟩⟩

end Sys2Proof.Decoding
end

section
/-! The interpolating lookup on the integers: the table's order, the value of LOOKUP in each of its three cases, and
its range, by which the 32 bits of `L_q` hold it exactly (41_saturation_lookup.md R122, R123, R125). -/

namespace Sys2Proof.Machine

theorem shl_two (v : Int) : shl v 2 = 4 * v := Int.mul_comm v 4

theorem asr_eight (v : Int) : asr v 8 = v / 256 := rfl

section Table
variable {c : Config} (hc : c.Valid) {i j : Nat}
include hc

/-- The table is non-decreasing from any entry to any later one (R122). -/
theorem tableRead_mono (hij : i ≤ j) (hj : j ≤ 1024) : tableRead c i ≤ tableRead c j := by
  induction j, hij using Nat.le_induction with
  | base => exact le_rfl
  | succ j _ ih => exact (ih (by omega)).trans (hc.table_mono j (by omega))

theorem tableRead_first : tableRead c 0 = 0 := by
  rw [tableRead, hc.table_first]
  rfl

theorem tableRead_last : tableRead c 1024 = 16384 := by
  rw [tableRead, hc.table_last]
  rfl

/-- Every entry lies between the two ends (R122). -/
theorem tableRead_range (hi : i ≤ 1024) : 0 ≤ tableRead c i ∧ tableRead c i ≤ 16384 :=
  ⟨tableRead_first hc ▸ tableRead_mono hc (Nat.zero_le i) hi, tableRead_last hc ▸ tableRead_mono hc hi le_rfl⟩

end Table

/-- A point of an interval, some 256ths of the way along, is in the interval. -/
theorem interpolation_range {a b f : Int} (hab : a ≤ b) (hf : 0 ≤ f) (hf' : f < 256) :
    a ≤ a + (b - a) * f / 256 ∧ a + (b - a) * f / 256 ≤ b := by
  have hlo : 0 ≤ (b - a) * f := mul_nonneg (by omega) hf
  have hhi : (b - a) * f ≤ (b - a) * 256 := mul_le_mul_of_nonneg_left hf'.le (by omega)
  omega

section LookupValue
variable {c : Config} {u : Int}

theorem lookupValue_of_neg (hu : u < 0) : lookupValue c u = 4 * tableRead c 0 := by
  rw [lookupValue, if_pos hu, shl_two]

theorem lookupValue_of_span_le (hu : 262144 ≤ u) : lookupValue c u = 4 * tableRead c 1024 := by
  have hspan : lookupSpan ≤ u := hu
  rw [lookupValue, if_neg (by omega), if_pos hspan, shl_two]

theorem lookupValue_of_inside (hu : 0 ≤ u) (hu' : u < 262144) :
    lookupValue c u = 4 * tableRead c (u / 256).toNat
      + (4 * tableRead c ((u / 256).toNat + 1) - 4 * tableRead c (u / 256).toNat) * (u % 256) / 256 := by
  have hspan : ¬lookupSpan ≤ u := not_le.2 hu'
  simp only [lookupValue, if_neg (not_lt.2 hu), if_neg hspan, shl_two, asr_eight]

/-- Inside the domain the lookup lies between the two entries around its input. -/
theorem lookupValue_between (hc : c.Valid) (hu : 0 ≤ u) (hu' : u < 262144) :
    4 * tableRead c (u / 256).toNat ≤ lookupValue c u ∧
      lookupValue c u ≤ 4 * tableRead c ((u / 256).toNat + 1) := by
  have hstep : tableRead c (u / 256).toNat ≤ tableRead c ((u / 256).toNat + 1) :=
    hc.table_mono _ (by omega)
  rw [lookupValue_of_inside hu hu']
  exact interpolation_range (by omega) (by omega) (by omega)

/-- The lookup stays within full scale (R125): outside the domain it is an end of the table, inside it lies between
two entries. -/
theorem lookupValue_range (hc : c.Valid) (u : Int) : 0 ≤ lookupValue c u ∧ lookupValue c u ≤ 65536 := by
  rcases lt_or_ge u 0 with hneg | hnonneg
  · rw [lookupValue_of_neg hneg, tableRead_first hc]
    decide
  rcases lt_or_ge u 262144 with hlt | hge
  · obtain ⟨hlo, hhi⟩ := lookupValue_between hc hnonneg hlt
    have hfirst := (tableRead_range hc (i := (u / 256).toNat) (by omega)).1
    have hlast := (tableRead_range hc (i := (u / 256).toNat + 1) (by omega)).2
    omega
  · rw [lookupValue_of_span_le hge, tableRead_last hc]
    decide

/-- The 32 bits of `L_q` hold the lookup's value exactly. -/
theorem toInt_ofInt_lookupValue (hc : c.Valid) (u : Int) :
    (BitVec.ofInt 32 (lookupValue c u)).toInt = lookupValue c u := by
  obtain ⟨hlo, hhi⟩ := lookupValue_range hc u
  exact BitVec.toInt_ofInt_eq_self (by decide) (by omega) (by omega)

end LookupValue

/-- Settles O24: `L_q` holds the lookup's value exactly, and the value is read off in each of R123's three cases. -/
theorem lookupInterpolatesTheTable : Obligations.LookupInterpolatesTheTable := by
  refine ⟨rfl, fun s => ⟨BitVec.ofInt 32 (lookupValue Config.impl s.uQ.toInt), rfl, ?_⟩⟩
  rw [toInt_ofInt_lookupValue Config.impl_valid]
  dsimp only
  split_ifs with hneg hspan
  · exact lookupValue_of_neg hneg
  · exact lookupValue_of_span_le hspan
  · exact lookupValue_of_inside (not_lt.1 hneg) (not_le.1 hspan)

end Sys2Proof.Machine
end

section
/-! The LFO's phase accumulator: the reduced phase is below `TIMER_RES`, by which the 32 bits of `lfo_phase` hold it
exactly and the waveform generator's contract holds of it (42_lfo.md R139, R140). -/

namespace Sys2Proof.Machine

section NextPhase
variable {c : Config} (hc : c.Valid) (s : State)
include hc

theorem nextPhase_lt_timerRes : nextPhase c s < c.timerRes :=
  Nat.mod_lt _ (by have := hc.timerRes_range; omega)

/-- The 32 bits of `lfo_phase` hold the new phase exactly, `TIMER_RES` = 2^32 included. -/
theorem toNat_ofNat_nextPhase : (BitVec.ofNat 32 (nextPhase c s)).toNat = nextPhase c s := by
  rw [BitVec.toNat_ofNat, Nat.mod_eq_of_lt ((nextPhase_lt_timerRes hc s).trans_le hc.timerRes_range.2)]

end NextPhase

/-- Settles O20: `lfo_phase` holds the reduced sum exactly, so the waveform generator sees it, and sees it within the
range of its contract. -/
theorem lfoStepAdvancesThePhase : Obligations.LfoStepAdvancesThePhase := by
  refine ⟨rfl, fun s => ⟨BitVec.ofNat 32 (nextPhase Config.impl s), ?_⟩⟩
  rw [toNat_ofNat_nextPhase Config.impl_valid]
  have hshape := Config.impl_valid.shape_range s.lfoAux _ s.lfoThreshold (nextPhase_lt_timerRes Config.impl_valid s)
  exact ⟨rfl, rfl, hshape⟩

end Sys2Proof.Machine
end

section
/-! The depth conversion of SHAPE_PRE: the product with 2^16 of a depth in [0, 1] that is not subnormal is exact, 16
exponent steps up, and a subnormal depth truncates to 0 in either mode, so the conversion is one floor of the depth's
exact value (43_shaper.md R158). -/

namespace Sys2Proof.Binary32

/-- `k` exponent steps up, the value of a normal pattern is 2^k times as large. -/
theorem magUnits_add_exponent {p : Nat} (hp : 2 ^ 23 ≤ p) (k : Nat) :
    magUnits (p + k * 2 ^ 23) = magUnits p * 2 ^ k := by
  obtain ⟨e, m, rfl, hm, he⟩ := pack_of_magnitude p
  have hstep : e * 2 ^ 23 + m + k * 2 ^ 23 = (e + k) * 2 ^ 23 + m := by ring
  rw [hstep, magUnits_pack _ m hm.le (by omega), magUnits_pack e m hm.le he, pow_add, mul_assoc]

/-- Only a subnormal is flushed. -/
theorem flush_of_normal (m : DenormalMode) {x : F32} (hx : 2 ^ 23 ≤ magnitude x) : flush m x = x := by
  cases m with
  | ieee => rfl
  | ftz => exact if_neg (not_lt.2 hx)

theorem flushKey_of_normal (m : DenormalMode) {k : Int} (hk : 2 ^ 23 ≤ k.natAbs) : flushKey m k = k := by
  cases m with
  | ieee => rfl
  | ftz => exact if_neg (not_lt.2 hk)

theorem units_eq_of_orderKey_eq {x y : F32} (h : orderKey x = orderKey y) : units x = units y :=
  le_antisymm (units_le_iff.2 h.le) (units_le_iff.2 h.ge)

/-- The order key of a representable value is its own pattern. -/
theorem roundKey_exact {p den : Nat} (hd : 0 < den) (hp : p ≤ 0x7F800000) :
    roundKey (magUnits p * den : Nat) den = p := by
  rw [roundKey, if_neg (by omega), Int.natAbs_natCast, roundMag_exact p den hd hp]

theorem truncFinite_mono {x y : F32} (h : orderKey x ≤ orderKey y) : truncFinite x ≤ truncFinite y :=
  Int.tdiv_le_tdiv (by decide) (units_le_iff.2 h)

section InUnit
variable {t : F32} (ht : InUnit t) (m : DenormalMode)
include ht

theorem magnitude_of_inUnit : magnitude t = t.toNat := by
  have h : t.toNat ≤ 0x3F800000 := ht
  exact Nat.mod_eq_of_lt (by omega)

theorem orderKey_range_of_inUnit : orderKey 0 ≤ orderKey t ∧ orderKey t ≤ orderKey one := by
  obtain ⟨hsign, hone⟩ := (inUnit_iff t).1 ht
  exact ⟨orderKey_nonneg hsign, hone⟩

theorem isFinite_of_inUnit : isFinite t = true := by
  obtain ⟨hzero, hone⟩ := orderKey_range_of_inUnit ht
  exact isFinite_between (by decide) (by decide) hzero hone

theorem units_of_inUnit : units t = magUnits t.toNat := by
  simp [units, ((inUnit_iff t).1 ht).1, magnitude_of_inUnit ht]

/-- The depth in Q16.16, before its fraction is dropped, is a finite value. -/
theorem isFinite_mul_of_inUnit : isFinite (mul m t 0x47800000) = true := by
  have hfin := isFinite_of_inUnit ht
  obtain ⟨hzero, hone⟩ := orderKey_range_of_inUnit ht
  refine isFinite_between (x := mul m 0 0x47800000) (z := mul m one 0x47800000) ?_ ?_
    (mul_mono m (by decide) hfin (by decide) (by decide) hzero)
    (mul_mono m hfin (by decide) (by decide) (by decide) hone)
  all_goals cases m <;> decide

/-- The multiplication by 2^16 is exact for a depth that is not subnormal. -/
theorem units_mul_of_normal (hnormal : 2 ^ 23 ≤ t.toNat) : units (mul m t 0x47800000) = units t * 2 ^ 16 := by
  have hunit : t.toNat ≤ 0x3F800000 := ht
  have hlt : t.toNat + 16 * 2 ^ 23 < 2 ^ 31 := by omega
  have hexact : units t * units 0x47800000 = (magUnits (t.toNat + 16 * 2 ^ 23) * 2 ^ 149 : Nat) := by
    have hscale : units 0x47800000 = 2 ^ 16 * 2 ^ 149 := by decide
    rw [units_of_inUnit ht, magUnits_add_exponent hnormal, hscale]
    push_cast
    ring
  have hround : roundKey (units t * units 0x47800000) (2 ^ 149) = (t.toNat + 16 * 2 ^ 23 : Nat) := by
    rw [hexact, roundKey_exact (Nat.two_pow_pos _) (by omega)]
  have hkey : orderKey (mul m t 0x47800000) = orderKey (withSign false (t.toNat + 16 * 2 ^ 23)) := by
    rw [orderKey_mul m (isFinite_of_inUnit ht) (by decide),
      flush_of_normal m (by rw [magnitude_of_inUnit ht]; exact hnormal), flush_of_normal m (by decide), hround,
      flushKey_of_normal m (by omega), orderKey_withSign _ _ hlt]
    rfl
  rw [units_eq_of_orderKey_eq hkey, units_withSign _ _ hlt, units_of_inUnit ht, magUnits_add_exponent hnormal]
  rfl

/-- A subnormal depth truncates to 0, flushed or not: it is not above the smallest normal number, which does. -/
theorem truncFinite_mul_of_subnormal (hsub : t.toNat < 2 ^ 23) : truncFinite (mul m t 0x47800000) = 0 := by
  have hfin := isFinite_of_inUnit ht
  have hnormal : orderKey t ≤ orderKey 0x00800000 := by
    rw [← units_le_iff, units_of_inUnit ht, show units 0x00800000 = magUnits (2 ^ 23) by decide]
    exact_mod_cast magUnits_le_iff.2 hsub.le
  have hlo := truncFinite_mono
    (mul_mono m (b := 0x47800000) (by decide) hfin (by decide) (by decide) (orderKey_range_of_inUnit ht).1)
  have hhi := truncFinite_mono (mul_mono m (b := 0x47800000) hfin (by decide) (by decide) (by decide) hnormal)
  have hends : truncFinite (mul m 0 0x47800000) = 0 ∧ truncFinite (mul m 0x00800000 0x47800000) = 0 := by
    cases m <;> decide
  omega

/-- `trunc(depth *f 65536.0f)` is the exact value of the depth, floored at 2^-16 (R158). In units of 2^-149, 2^-16 is
2^133 of them. -/
theorem truncFinite_mul_of_inUnit : truncFinite (mul m t 0x47800000) = units t / 2 ^ 133 := by
  have hunits := units_of_inUnit ht
  rcases lt_or_ge t.toNat (2 ^ 23) with hsub | hnormal
  · have hvalue : magUnits t.toNat ≤ magUnits (2 ^ 23) := magUnits_le_iff.2 hsub.le
    have hsmallest : magUnits (2 ^ 23) = 2 ^ 23 := by decide
    rw [truncFinite_mul_of_subnormal ht m hsub]
    omega
  · have hpos : 0 ≤ units t := by omega
    rw [truncFinite, units_mul_of_normal ht m hnormal, Int.tdiv_eq_ediv_of_nonneg (by positivity)]
    omega

end InUnit

end Sys2Proof.Binary32
end

section
/-! SHAPE_PRE and COEF: the depth's Q16.16 value and its range, and the 32 bits of `u_q`, which hold a saturated value
exactly (43_shaper.md R157, R158, R160). -/

namespace Sys2Proof.Machine

/-- `d` of R157 for a depth in [0, 1], in either mode. -/
theorem depthFixed_of_inUnit (c : Config) {depth : F32} (h : InUnit depth) :
    depthFixed c depth = Binary32.units depth / 2 ^ 133 := by
  rw [depthFixed, truncate, if_pos (Binary32.isFinite_mul_of_inUnit h _), Binary32.truncFinite_mul_of_inUnit h]

/-- The range of `d` (R158). -/
theorem depth_floor_range {depth : F32} (h : InUnit depth) :
    0 ≤ Binary32.units depth / 2 ^ 133 ∧ Binary32.units depth / 2 ^ 133 ≤ 65536 := by
  obtain ⟨hzero, hone⟩ := Binary32.orderKey_range_of_inUnit h
  have hlo : Binary32.units 0 ≤ Binary32.units depth := Binary32.units_le_iff.2 hzero
  have hhi : Binary32.units depth ≤ Binary32.units Binary32.one := Binary32.units_le_iff.2 hone
  have hends : Binary32.units 0 = 0 ∧ Binary32.units Binary32.one = 2 ^ 149 := by decide
  omega

/-- 32 bits hold a saturated value exactly. -/
theorem toInt_ofInt_sat32 (v : Int) : (BitVec.ofInt 32 (sat32 v)).toInt = sat32 v := by
  have hrange : -2147483648 ≤ sat32 v ∧ sat32 v ≤ 2147483647 := by
    unfold sat32
    omega
  exact BitVec.toInt_ofInt_eq_self (by decide) (by omega) (by omega)

/-- Settles O22: `u_q` holds the saturated index exactly, and its depth factor is the depth's exact value, floored. -/
theorem shapePreFormsTheLookupIndex : Obligations.ShapePreFormsTheLookupIndex := by
  refine ⟨rfl, fun s hdepth =>
    ⟨BitVec.ofInt 32 (shapeIndex Config.impl s.lfoSecondary s.depth), exec_shapePre s, ?_⟩⟩
  obtain ⟨hlo, hhi⟩ := depth_floor_range hdepth
  refine ⟨hlo, hhi, ?_⟩
  rw [shapeIndex, toInt_ofInt_sat32, depthFixed_of_inUnit Config.impl hdepth]
  rfl

/-- Settles O28: COEF's meaning, with `coefficient` written out. -/
theorem coefMapsTheLookupResult : Obligations.CoefMapsTheLookupResult :=
  ⟨rfl, exec_coef⟩

end Sys2Proof.Machine
end

section
/-! The all-pass cascade: MIX in every state, and STAGE at each stage there is (44_allpass_cascade.md R172, R174). -/

namespace Sys2Proof.Machine

/-- Settles O30: MIX's meaning, with `mixValue` and its two weights written out. -/
theorem mixFormsTheCascadeInput : Obligations.MixFormsTheCascadeInput :=
  ⟨rfl, exec_mix⟩

/-- Settles O31: a `k` that names a stage takes the branch of STAGE's meaning that writes the two cells, with
`stageState` and `stageOut` written out. -/
theorem stageUpdatesOneCell : Obligations.StageUpdatesOneCell := by
  refine ⟨rfl, fun s hstage => ?_⟩
  rw [exec_stage]
  exact dif_pos hstage

end Sys2Proof.Machine
end

section
/-! The output conditioner: LIMIT on the configured threshold, and GAIN_STEP (45_conditioner.md R191 to R193). -/

namespace Sys2Proof.Machine

/-- Settles O33: LIMIT's meaning, with `limitValue` and the threshold written out; that the threshold is positive is
a constraint every configuration meets. -/
theorem limitSoftLimitsTheTap : Obligations.LimitSoftLimitsTheTap :=
  ⟨rfl, fun s => ⟨Config.impl_valid.threshold_pos, exec_limit s⟩⟩

/-- Settles O35: GAIN_STEP's meaning, with `nextGain` and `rampedGain` written out. -/
theorem gainStepRampsTheGain : Obligations.GainStepRampsTheGain :=
  ⟨rfl, exec_gainStep⟩

end Sys2Proof.Machine
end

section
/-! The pipeline controller: the four words of a stored frame and the bytes beside them (OUT_WRITE), the exponent
test of an input word (IN_READ), and the frame count (NEXT) (46_pipeline.md R203 to R205). -/

namespace Sys2Proof.Machine

/-- Both words of a frame that exists in a region exist (R61). -/
theorem wordExists_of_frame {c : Config} {frame k : Nat} (hframe : frame < c.maxFrames)
    (hk : k = 2 * frame ∨ k = 2 * frame + 1) : WordExists c k := by
  unfold WordExists
  omega

/-- Each of the four words of a stored frame reads the sample (R204). -/
theorem readWord_storeFrame {c : Config} {m : Memory} {frame : Nat} {r : Region} {k : Nat} (v : F32)
    (hm : Memory.wfWith c m = true) (hframe : frame < c.maxFrames) (hr : r = .mainOut ∨ r = .subOut)
    (hk : k = 2 * frame ∨ k = 2 * frame + 1) :
    Memory.readWord c (storeFrame c m frame v) (wordAddr c r k) = v := by
  have left := wordExists_of_frame hframe (.inl rfl)
  have right := wordExists_of_frame hframe (.inr rfl)
  have exists_k := wordExists_of_frame hframe hk
  have hm₁ := wf_storeWord c m .mainOut (2 * frame) v hm
  have hm₂ := wf_storeWord c _ .mainOut (2 * frame + 1) v hm₁
  have hm₃ := wf_storeWord c _ .subOut (2 * frame) v hm₂
  rw [storeFrame, readWord_storeWord c _ _ _ _ _ v hm₃ right exists_k,
    readWord_storeWord c _ _ _ _ _ v hm₂ left exists_k, readWord_storeWord c _ _ _ _ _ v hm₁ right exists_k,
    readWord_storeWord c _ _ _ _ _ v hm left exists_k]
  rcases hr with rfl | rfl <;> rcases hk with rfl | rfl <;> simp

/-- The host reads the sample in each of the four words of a stored frame (R204). -/
theorem hostRead_of_mem_eq_storeFrame {s : State} {m : Memory} {frame : Nat} {r : Region} {k : Nat} {v : F32}
    (hm : Memory.wf m = true) (hframe : frame < Config.impl.maxFrames)
    (hmem : s.mem = storeFrame Config.impl m frame v) (hr : r = .mainOut ∨ r = .subOut)
    (hk : k = 2 * frame ∨ k = 2 * frame + 1) : hostRead s r k = some v := by
  rw [hostRead, hostReadWith, if_pos (wordExists_of_frame hframe hk), bufferWord, hmem,
    readWord_storeFrame v hm hframe hr hk]

/-- Where its frame exists, OUT_WRITE stores it, and changes `seq` and nothing else beside the memory. -/
theorem exec_outWrite_of_frame {s : State} (hframe : s.n.toNat < Config.impl.maxFrames) :
    ∃ t, exec .outWrite s = .next t ∧
      t = { s with
        mem := t.mem
        seq := 0xB } ∧
      t.mem = storeFrame Config.impl s.mem s.n.toNat s.y :=
  ⟨_, if_pos (wordExists_of_frame hframe (.inr rfl)), rfl, rfl⟩

/-- Settles O38: the memory after OUT_WRITE is the one with the frame stored, which keeps the canonical form, reads `y`
in the frame's four words, and reads as before outside them. -/
theorem outWriteStoresTheFrame : Obligations.OutWriteStoresTheFrame := by
  refine ⟨rfl, fun s hframe hwf => ?_⟩
  obtain ⟨t, hexec, hregs, hmem⟩ := exec_outWrite_of_frame hframe
  refine ⟨t, hexec, hregs, ?canonical, ?words, ?outside⟩
  case canonical =>
    rw [hmem]
    exact wf_storeFrame _ _ _ _ hwf
  case words => exact fun _ _ hr hk => hostRead_of_mem_eq_storeFrame hwf hframe hmem hr hk
  case outside =>
    rw [hmem]
    exact read_storeFrame_outside _ _ _ _

/-- A pattern is finite exactly if its exponent field is not all ones (R251). -/
theorem isFinite_iff_exponent (w : F32) : Binary32.isFinite w = true ↔ w.extractLsb' 23 8 ≠ 0xFF := by
  have hfield : (w.extractLsb' 23 8).toNat = w.toNat / 2 ^ 23 % 2 ^ 8 := by
    rw [BitVec.extractLsb'_toNat, Nat.shiftRight_eq_div_pow]
  rw [ne_eq, ← BitVec.toNat_inj, hfield, Binary32.isFinite, Binary32.magnitude, decide_eq_true_eq]
  change _ ↔ ¬w.toNat / 2 ^ 23 % 2 ^ 8 = 255
  omega

/-- A word whose exponent is not all ones is the input sample (R203). -/
theorem takeSample_of_exponent_ne {w : Word} (hw : w.extractLsb' 23 8 ≠ 0xFF) (s : State) :
    takeSample w s = { s with
      xIn := w
      seq := 0x3 } :=
  if_pos ((isFinite_iff_exponent w).2 hw)

/-- Any other word is the fault NONFINITE_INPUT, with the frame's index (R251). -/
theorem takeSample_of_exponent_eq {w : Word} (hw : w.extractLsb' 23 8 = 0xFF) (s : State) :
    takeSample w s = raiseFault .nonfiniteInput (BitVec.ofNat 32 s.n.toNat) s := by
  rw [BitVec.ofNat_toNat]
  exact if_neg fun h => (isFinite_iff_exponent w).1 h hw

/-- Where its frame exists, IN_READ takes the word of `MAIN_IN[2n]`, at byte 8n (R64, R203). -/
theorem exec_inRead_of_frame {s : State} (hframe : s.n.toNat < Config.impl.maxFrames) :
    exec .inRead s = .next (takeSample (Memory.readWord Config.impl s.mem (8 * s.n.toNat)) s) := by
  have haddr : wordAddr Config.impl .mainIn (2 * s.n.toNat) = 8 * s.n.toNat := by
    simp only [wordAddr, regionBase]
    omega
  rw [exec_inRead, execInRead, inReadWith, if_pos (wordExists_of_frame hframe (.inl rfl)), bufferWord, haddr]

/-- Settles O37: IN_READ takes the word at byte 8n, and its test for a finite pattern is the exponent's. -/
theorem inReadTakesAFiniteSample : Obligations.InReadTakesAFiniteSample := by
  refine ⟨rfl, fun s hframe => ?_⟩
  rw [exec_inRead_of_frame hframe]
  exact ⟨fun h => congrArg Host.Outcome.next (takeSample_of_exponent_ne h s),
    fun h => congrArg Host.Outcome.next (takeSample_of_exponent_eq h s)⟩

/-- Settles O39: below 65535 the 16-bit count holds the next frame's index exactly, and NEXT's own comparison then
chooses between the two outcomes. -/
theorem nextEndsTheFrame : Obligations.NextEndsTheFrame := by
  refine ⟨rfl, fun s hn => ⟨s.n + 1, ?_, ?_⟩⟩
  · rw [BitVec.toNat_add, show (1 : BitVec 16).toNat = 1 from rfl, Nat.mod_eq_of_lt (by omega)]
  · rw [exec_next, execNext, apply_ite Host.Outcome.next]
    rfl

end Sys2Proof.Machine
end

section
/-! The host commands: SETP of a block that is not halted, idle or running (47_host_commands.md R224 to R228). -/

namespace Sys2Proof.Machine

/-- Unless the block is halted, SETP writes its parameter, during a block too (R230). -/
theorem exec_setp_of_not_faulted (idx : Nat) (value : Int) {s : State} (hf : s.faulted = false) :
    exec (.setp idx value) s = .next (setParam Config.impl idx value s) := by
  rw [exec_setp]
  exact acceptCommand_acts _ false s _ hf (Bool.false_and _)

section SetParam
variable (c : Config) (value : Int) (s : State)

theorem setParam_time : setParam c 0 value s = { s with time := paramValue c.denormalMode value } := rfl

theorem setParam_depth : setParam c 1 value s = { s with depth := paramValue c.denormalMode value } := rfl

/-- An index that names no parameter changes nothing (R228). -/
theorem setParam_other {idx : Nat} (htime : idx ≠ 0) (hdepth : idx ≠ 1) : setParam c idx value s = s :=
  (if_neg htime).trans (if_neg hdepth)

end SetParam

/-- Settles O10: the command acts, and what it writes is `setParam`'s three cases, with `paramValue` written out. -/
theorem setpWritesTheParameterItNames : Obligations.SetpWritesTheParameterItNames := by
  intro value s hf
  refine ⟨?time, ?depth, fun idx htime hdepth => ?other⟩
  case time =>
    rw [exec_setp_of_not_faulted 0 value hf, setParam_time]
    rfl
  case depth =>
    rw [exec_setp_of_not_faulted 1 value hf, setParam_depth]
    rfl
  case other => rw [exec_setp_of_not_faulted idx value hf, setParam_other _ _ _ htime hdepth]

end Sys2Proof.Machine
end

section
/-! The commands the port runs, and what a step of a halted block can do, said once (60_exceptions.md R254,
R255). -/

namespace Sys2Proof.Machine

/-- The part of the decoder that the four operations share gives the operation's own instruction. -/
theorem isCommand_of_unlessReserved {w : Nat} {rsv : BitVec 4} {unused : BitVec w} {i j : Instr}
    (hi : isCommand i = true) (h : Decoding.unlessReserved rsv unused i = .instr j) : isCommand j = true := by
  obtain ⟨-, -, rfl⟩ := Decoding.unlessReserved_eq_instr_iff.1 h
  exact hi

/-- What the command port decodes is one of the four host commands (R91, R95). -/
theorem isCommand_of_decode_cmd {cw dw : Word} {i : Instr} (h : decode (.cmd cw dw) = .instr i) :
    isCommand i = true := by
  rcases Decoding.op_cases (cw.extractLsb' 0 4) with hop | hop | hop | hop | hop
  · simp [Decoding.decode_of_op_reserved dw hop] at h
  · exact isCommand_of_unlessReserved rfl ((Decoding.decode_of_op_load dw hop).symm.trans h)
  · exact isCommand_of_unlessReserved rfl ((Decoding.decode_of_op_proc dw hop).symm.trans h)
  · exact isCommand_of_unlessReserved rfl ((Decoding.decode_of_op_setp dw hop).symm.trans h)
  · exact isCommand_of_unlessReserved rfl ((Decoding.decode_of_op_resume dw hop).symm.trans h)

/-- PROC's checks, with what an accepted one does (R223, R250). -/
theorem exec_proc_eq_acceptCommand (nfr : Nat) (s : State) :
    exec (.proc nfr) s = acceptCommand (commandWord (.proc nfr)) true s fun s =>
      if Config.impl.maxFrames < nfr then raiseFault .framesTooLarge (commandWord (.proc nfr)) s
      else startBlock nfr s := rfl

section Halted
variable {s : State} (hf : s.faulted = true)
include hf

/-- A command has no effect (R229). -/
theorem exec_command_of_faulted {i : Instr} (hi : isCommand i = true) : exec i s = .next s := by
  cases i with
  | proc nfr => rw [exec_proc_eq_acceptCommand, acceptCommand_halted _ _ s _ hf]
  | load | setp idx value | resume => exact acceptCommand_halted _ _ s _ hf
  | _ => exact absurd hi Bool.false_ne_true

/-- A transaction is ignored, legal or not (R254). -/
theorem portTurn_of_faulted (cw dw : Word) : portTurn cw dw s = .next s := by
  rcases portTurn_cases cw dw s with ⟨i, hi, hport⟩ | ⟨-, -, -, hport⟩ | ⟨-, -, hrun, -⟩
  · rw [hport, exec_command_of_faulted hf (isCommand_of_decode_cmd hi)]
  · exact hport
  · simp [hf] at hrun

/-- The sequencer takes no micro-operation (R254). -/
theorem sequencerTurn_of_faulted : sequencerTurn s = .next s := if_pos hf

/-- A step is hardware reset, a host write to the buffer memory, or changes at most the list of actions. -/
theorem step_cases_of_faulted :
    (∃ rest, s.host = .hardReset :: rest) ∨
    (∃ r k v rest, s.host = .bufferWrite r k v :: rest ∧
      step s = bufferWriteTurn r k v { s with host := rest }) ∨
    (∃ rest, step s = .next { s with host := rest }) := by
  rcases step_cases s with ⟨-, hstep⟩ | ⟨a, rest, hhost, hstep⟩
  · exact .inr (.inr ⟨s.host, hstep.trans (sequencerTurn_of_faulted hf)⟩)
  · cases a with
    | hardReset => exact .inl ⟨rest, hhost⟩
    | bufferWrite r k v => exact .inr (.inl ⟨r, k, v, rest, hhost, hstep⟩)
    | windowWrite offset v => exact .inr (.inr ⟨rest, hstep⟩)
    | sequencer =>
      exact .inr (.inr ⟨rest, hstep.trans (sequencerTurn_of_faulted (s := { s with host := rest }) hf)⟩)
    | command cw dw =>
      exact .inr (.inr ⟨rest, hstep.trans (portTurn_of_faulted (s := { s with host := rest }) hf cw dw)⟩)
    | wait =>
      rw [hstep, actionTurn, sequencerTurn_of_faulted hf]
      split
      · exact .inr (.inr ⟨s.host, rfl⟩)
      · exact .inr (.inr ⟨rest, rfl⟩)

end Halted

/-- A host write that answers a next state changes the buffer memory alone (R73). -/
theorem bufferWriteTurn_eq_next {r : Region} {k : Nat} {v : Word} {s t : State}
    (h : bufferWriteTurn r k v s = .next t) : t = { s with mem := storeWord Config.impl s.mem r k v } := by
  unfold bufferWriteTurn at h
  split at h
  · exact (Host.Outcome.next.inj h).symm
  · cases h

/-- Settles O16, from the three things a step of a halted block can be. -/
theorem onlyHardResetLeavesTheHaltedState : Obligations.OnlyHardResetLeavesTheHaltedState := by
  intro s t hf hreset hstep
  rcases step_cases_of_faulted hf with ⟨rest, hhost⟩ | ⟨r, k, v, rest, hhost, hwrite⟩ | ⟨rest, hskip⟩
  · exact absurd hhost (hreset rest)
  · obtain rfl := bufferWriteTurn_eq_next (hwrite.symm.trans hstep)
    exact ⟨rfl, fun hnoWrite => absurd hhost (hnoWrite r k v rest)⟩
  · obtain rfl := Host.Outcome.next.inj (hskip.symm.trans hstep)
    exact ⟨rfl, fun _ => rfl⟩

end Sys2Proof.Machine
end

section
/-! The faults of the command port in a block that is not halted (60_exceptions.md R248 to R250). -/

namespace Sys2Proof.Machine

/-- SETP leaves STATUS and the sequencer as they are, whatever its operands. -/
theorem setParam_status (c : Config) (idx : Nat) (value : Int) (s : State) :
    (setParam c idx value s).faulted = s.faulted ∧ (setParam c idx value s).busy = s.busy ∧
    (setParam c idx value s).seq = s.seq := by
  unfold setParam
  split_ifs <;> exact ⟨rfl, rfl, rfl⟩

/-- Settles O9: whether the frames fit decides what the accepted command does. -/
theorem procStartsABlockThatFits : Obligations.ProcStartsABlockThatFits := by
  intro nfr s hf hb
  rw [exec_proc_eq_acceptCommand, acceptCommand_acts _ true s _ hf hb]
  refine ⟨fun hfits => ?fits, fun hlarge => ?large⟩
  case fits =>
    rw [if_neg (Nat.not_lt.2 hfits)]
    rfl
  case large =>
    rw [if_pos hlarge]
    rfl

/-- Settles O14: LOAD, PROC and RESUME fail the busy check; SETP does not make it and acts. -/
theorem commandsDuringABlockHaltIt : Obligations.CommandsDuringABlockHaltIt := by
  intro nfr s hf hb
  refine ⟨acceptCommand_busy _ s _ hf hb, ?proc, acceptCommand_busy _ s _ hf hb,
    fun idx value => ⟨_, exec_setp_of_not_faulted idx value hf, ?setp⟩⟩
  case proc =>
    rw [exec_proc_eq_acceptCommand, acceptCommand_busy _ s _ hf hb]
    rfl
  case setp =>
    obtain ⟨hfaulted, hbusy, hseq⟩ := setParam_status Config.impl idx value s
    exact ⟨hfaulted.trans hf, hbusy.trans hb, hseq⟩

/-- An illegal transaction is the fault ILLEGAL_CMD, in an idle block or a busy one (R248). -/
theorem portTurn_of_reject {cw dw : Word} {s : State} (hf : s.faulted = false)
    (h : ∃ r, decode (.cmd cw dw) = .reject r) :
    portTurn cw dw s = .next (raiseFault .illegalCmd cw s) := by
  obtain ⟨r, hr⟩ := h
  simp [portTurn, hr, hf]

/-- Settles O17: R248's list is R96's, with the reserved operations named by what they are not. -/
theorem illegalTransactionHaltsTheBlock : Obligations.IllegalTransactionHaltsTheBlock := by
  intro s cw dw rest hf hhost hlist
  have hreject : ∃ r, decode (.cmd cw dw) = .reject r := by
    refine (Decoding.reservedEncodingsAreIllegal cw dw).2 (hlist.imp_left fun hop => ?_)
    exact (Decoding.op_cases (cw.extractLsb' 0 4)).resolve_right (by tauto)
  have hstep : step s = portTurn cw dw { s with host := rest } := by
    rw [step, turn, hhost]
    rfl
  rw [hstep, portTurn_of_reject (s := { s with host := rest }) hf hreject]
  rfl

end Sys2Proof.Machine
end

section
/-! Hardware reset at a step (R276). -/

namespace Sys2Proof.Machine

/-- While the host's list is not empty, the step is its first action, whatever the block does. -/
theorem step_eq_actionTurn {s : State} {a : HostAction} {rest : List HostAction} (hhost : s.host = a :: rest) :
    step s = actionTurn a rest s := by
  rw [step, turn, hhost]

/-- The action is the operation itself, with no check of STATUS or of the sequencer before it. -/
theorem actionTurn_hardReset (rest : List HostAction) (s : State) :
    actionTurn .hardReset rest s = .next (hardResetWith Config.impl { s with host := rest }) := rfl

/-- Hardware reset takes the buffer memory and the host's list from the state, and every register from reset. -/
theorem hardResetWith_impl (s : State) :
    hardResetWith Config.impl s = { State.reset with mem := s.mem, host := s.host } := rfl

/-- Settles O7: the step is hardware reset with the action taken off the list, which it does not look into. -/
theorem hardResetKeepsTheBufferMemory : Obligations.HardResetKeepsTheBufferMemory := by
  intro s rest hhost
  rw [step_eq_actionTurn hhost, actionTurn_hardReset, hardResetWith_impl]

end Sys2Proof.Machine
end

section
/-! Decoding and encoding: the fields of a command word determine it, and a sequencer code is the code of the
micro-operation it decodes to (30_encoding.md R92 to R98, R103). -/

namespace Sys2Proof.Decoding

/-- A bit slice as a number. -/
theorem toNat_extractLsb'_eq_div_mod (v : Word) (lo w : Nat) : (v.extractLsb' lo w).toNat = v.toNat / 2 ^ lo % 2 ^ w := by
  rw [BitVec.extractLsb'_toNat, Nat.shiftRight_eq_div_pow]

/-- A bit slice of known value, as a fact about the number of the word. -/
theorem div_mod_of_extractLsb'_eq {v : Word} {lo w : Nat} {x : BitVec w} (h : v.extractLsb' lo w = x) :
    v.toNat / 2 ^ lo % 2 ^ w = x.toNat := by
  rw [← toNat_extractLsb'_eq_div_mod, h]

/-- Every well-formed instruction decodes from its own code. -/
theorem decode_encode {i : Instr} (h : WellFormed i) : decode (encode i) = .instr i := by
  cases i with
  | load => exact Laws.RoundTrip.load h
  | proc nfr => exact Laws.RoundTrip.proc nfr h
  | setp idx value => exact Laws.RoundTrip.setp idx value h
  | resume => exact Laws.RoundTrip.resume h
  | _ => rfl

/-- What a transaction carries: its command is well-formed, its command word is the command's own, and its data word
is the value of a SETP. -/
def Carries (cw dw : Word) (i : Instr) : Prop :=
  WellFormed i ∧ isCommand i = true ∧ commandWord i = cw ∧
    ∀ idx value, i = .setp idx value → dw = BitVec.ofInt 32 value

section Carries
variable {cw : Word} (dw : Word)

/-- A word whose bits above OP are 0 is OP alone. -/
theorem eq_of_op_alone (hrsv : cw.extractLsb' 4 4 = 0) (hrest : cw.extractLsb' 8 24 = 0) :
    cw.toNat = (cw.extractLsb' 0 4).toNat := by
  have hrsv' : cw.toNat / 2 ^ 4 % 2 ^ 4 = 0 := div_mod_of_extractLsb'_eq hrsv
  have hrest' : cw.toNat / 2 ^ 8 % 2 ^ 24 = 0 := div_mod_of_extractLsb'_eq hrest
  rw [toNat_extractLsb'_eq_div_mod]
  omega

theorem carries_load (hop : cw.extractLsb' 0 4 = 1) (hrsv : cw.extractLsb' 4 4 = 0)
    (hrest : cw.extractLsb' 8 24 = 0) : Carries cw dw .load := by
  refine ⟨trivial, rfl, BitVec.eq_of_toNat_eq ?_, nofun⟩
  rw [eq_of_op_alone hrsv hrest, hop]
  rfl

theorem carries_resume (hop : cw.extractLsb' 0 4 = 4) (hrsv : cw.extractLsb' 4 4 = 0)
    (hrest : cw.extractLsb' 8 24 = 0) : Carries cw dw .resume := by
  refine ⟨trivial, rfl, BitVec.eq_of_toNat_eq ?_, nofun⟩
  rw [eq_of_op_alone hrsv hrest, hop]
  rfl

theorem carries_proc (hop : cw.extractLsb' 0 4 = 2) (hrsv : cw.extractLsb' 4 4 = 0)
    (hunused : cw.extractLsb' 8 8 = 0) : Carries cw dw (.proc (cw.extractLsb' 16 16).toNat) := by
  refine ⟨(cw.extractLsb' 16 16).isLt, rfl, BitVec.eq_of_toNat_eq ?_, nofun⟩
  have hop' : cw.toNat / 2 ^ 0 % 2 ^ 4 = 2 := div_mod_of_extractLsb'_eq hop
  have hrsv' : cw.toNat / 2 ^ 4 % 2 ^ 4 = 0 := div_mod_of_extractLsb'_eq hrsv
  have hunused' : cw.toNat / 2 ^ 8 % 2 ^ 8 = 0 := div_mod_of_extractLsb'_eq hunused
  rw [commandWord, BitVec.toNat_ofNat, toNat_extractLsb'_eq_div_mod]
  omega

theorem carries_setp (hop : cw.extractLsb' 0 4 = 3) (hrsv : cw.extractLsb' 4 4 = 0)
    (hunused : cw.extractLsb' 16 16 = 0) : Carries cw dw (.setp (cw.extractLsb' 8 8).toNat dw.toInt) := by
  refine ⟨⟨(cw.extractLsb' 8 8).isLt, BitVec.le_toInt dw, BitVec.toInt_lt⟩, rfl, BitVec.eq_of_toNat_eq ?_, ?_⟩
  · have hop' : cw.toNat / 2 ^ 0 % 2 ^ 4 = 3 := div_mod_of_extractLsb'_eq hop
    have hrsv' : cw.toNat / 2 ^ 4 % 2 ^ 4 = 0 := div_mod_of_extractLsb'_eq hrsv
    have hunused' : cw.toNat / 2 ^ 16 % 2 ^ 16 = 0 := div_mod_of_extractLsb'_eq hunused
    rw [commandWord, BitVec.toNat_ofNat, toNat_extractLsb'_eq_div_mod]
    omega
  · rintro idx value ⟨⟩
    exact BitVec.ofInt_toInt.symm

end Carries

/-- A transaction that decodes to a command carries it (R92 to R95). -/
theorem carries_of_decode_cmd {cw dw : Word} {i : Instr} (h : decode (.cmd cw dw) = .instr i) : Carries cw dw i := by
  rcases op_cases (cw.extractLsb' 0 4) with hop | hop | hop | hop | hop
  · simp [decode_of_op_reserved dw hop] at h
  · rw [decode_of_op_load dw hop] at h
    obtain ⟨hrsv, hunused, rfl⟩ := unlessReserved_eq_instr_iff.1 h
    exact carries_load dw hop hrsv hunused
  · rw [decode_of_op_proc dw hop] at h
    obtain ⟨hrsv, hunused, rfl⟩ := unlessReserved_eq_instr_iff.1 h
    exact carries_proc dw hop hrsv hunused
  · rw [decode_of_op_setp dw hop] at h
    obtain ⟨hrsv, hunused, rfl⟩ := unlessReserved_eq_instr_iff.1 h
    exact carries_setp dw hop hrsv hunused
  · rw [decode_of_op_resume dw hop] at h
    obtain ⟨hrsv, hunused, rfl⟩ := unlessReserved_eq_instr_iff.1 h
    exact carries_resume dw hop hrsv hunused

/-- A sequencer code that decodes to an instruction is the code of that micro-operation (R98). -/
theorem seqCode_of_decode_seq {code : BitVec 4} {i : Instr} (h : decode (.seq code) = .instr i) :
    isCommand i = false ∧ seqCode i = code := by
  obtain ⟨x, hx⟩ := code
  have hx' : x < 16 := hx
  interval_cases x <;> cases h <;> exact ⟨rfl, rfl⟩

/-- The code of a micro-operation is its encoding, and its operands have no range to keep (R98, R102). -/
theorem encode_of_microOperation {i : Instr} (hi : isCommand i = false) : WellFormed i ∧ encode i = .seq (seqCode i) := by
  cases i with
  | load | proc _ | setp _ _ | resume => exact absurd hi Bool.true_eq_false_eq_False
  | _ => exact ⟨trivial, rfl⟩

/-- Settles O1: the encoder's code decodes to its instruction, a transaction carries its command, and a sequencer code
is its micro-operation's own. -/
theorem decodeAndEncodeAgree : Obligations.DecodeAndEncodeAgree := by
  refine ⟨fun i h => decode_encode h, fun cw dw i h => carries_of_decode_cmd h, fun code i h => ?_⟩
  obtain ⟨hi, rfl⟩ := seqCode_of_decode_seq h
  obtain ⟨hwf, hencode⟩ := encode_of_microOperation hi
  exact ⟨hwf, hi, hencode⟩

end Sys2Proof.Decoding
end

section
/-! NaNs and subnormals: the operations return one NaN, and under FTZ read and write no subnormal (00_scope.md R25,
R29). -/

namespace Sys2Proof.Binary32

/-! ## The one NaN -/

/-- If it is a NaN, it is the one that arithmetic returns. -/
abbrev NaNCanonical (x : F32) : Prop := isNaN x = true → x = canonicalNaN

theorem nanCanonical_canonicalNaN : NaNCanonical canonicalNaN := fun _ => rfl

theorem nanCanonical_of_not_isNaN {x : F32} (h : isNaN x = false) : NaNCanonical x := by
  simp [NaNCanonical, h]

theorem isNaN_of_isInf {x : F32} (h : isInf x = true) : isNaN x = false := by
  simp only [isInf, isNaN, decide_eq_true_eq, decide_eq_false_iff_not] at *
  omega

theorem isNaN_withSign (neg : Bool) {mag : Nat} (h : mag ≤ 0x7F800000) : isNaN (withSign neg mag) = false := by
  rw [isNaN, magnitude_withSign neg mag (by omega), decide_eq_false_iff_not]
  omega

theorem isNaN_roundMag (neg : Bool) (num den : Nat) : isNaN (withSign neg (roundMag num den)) = false :=
  isNaN_withSign neg (roundMag_le_infinity num den)

theorem magnitude_flush_ftz (x : F32) :
    magnitude (flush .ftz x) = if magnitude x < 2 ^ 23 then 0 else magnitude x := by
  simp only [flush]
  split
  · exact magnitude_withSign _ _ (by decide)
  · rfl

theorem isNaN_flush (m : DenormalMode) (x : F32) : isNaN (flush m x) = isNaN x := by
  cases m with
  | ieee => rfl
  | ftz =>
    rw [isNaN, isNaN, magnitude_flush_ftz]
    split_ifs
    · exact decide_eq_decide.2 (by omega)
    · rfl

theorem isNaN_negate (x : F32) : isNaN (negate x) = isNaN x := by
  rw [isNaN, isNaN, magnitude_negate]

theorem flush_canonicalNaN (m : DenormalMode) : flush m canonicalNaN = canonicalNaN := by
  cases m <;> decide

theorem nanCanonical_flush (m : DenormalMode) {x : F32} (h : NaNCanonical x) : NaNCanonical (flush m x) := by
  intro hn
  rw [isNaN_flush] at hn
  rw [h hn, flush_canonicalNaN]

theorem nanCanonical_addKept (a b : F32) : NaNCanonical (addKept a b) := by
  unfold addKept
  split_ifs with hnan ha hab hb
  · exact nanCanonical_canonicalNaN
  · exact nanCanonical_canonicalNaN
  · exact nanCanonical_of_not_isNaN (isNaN_of_isInf ha)
  · exact nanCanonical_of_not_isNaN (isNaN_of_isInf hb)
  · exact nanCanonical_of_not_isNaN (isNaN_withSign _ (by decide))
  · exact nanCanonical_of_not_isNaN (isNaN_roundMag _ _ _)

theorem nanCanonical_mulKept (a b : F32) : NaNCanonical (mulKept a b) := by
  unfold mulKept
  split_ifs
  · exact nanCanonical_canonicalNaN
  · exact nanCanonical_canonicalNaN
  · exact nanCanonical_of_not_isNaN (isNaN_withSign _ le_rfl)
  · exact nanCanonical_of_not_isNaN (isNaN_roundMag _ _ _)

theorem nanCanonical_divKept (a b : F32) : NaNCanonical (divKept a b) := by
  unfold divKept
  split_ifs
  · exact nanCanonical_canonicalNaN
  · exact nanCanonical_canonicalNaN
  · exact nanCanonical_of_not_isNaN (isNaN_withSign _ le_rfl)
  · exact nanCanonical_of_not_isNaN (isNaN_withSign _ (by decide))
  · exact nanCanonical_of_not_isNaN (isNaN_roundMag _ _ _)

section NaNOperand
variable (m : DenormalMode) {a b : F32} (h : isNaN a = true ∨ isNaN b = true)
include h

theorem flushed_operand_isNaN : (isNaN (flush m a) || isNaN (flush m b)) = true := by
  rw [isNaN_flush, isNaN_flush, Bool.or_eq_true]
  exact h

theorem add_of_isNaN : add m a b = canonicalNaN := by
  rw [add, addKept, if_pos (flushed_operand_isNaN m h), flush_canonicalNaN]

theorem sub_of_isNaN : sub m a b = canonicalNaN :=
  add_of_isNaN m (h.imp_right fun hb => (isNaN_negate b).trans hb)

theorem mul_of_isNaN : mul m a b = canonicalNaN := by
  rw [mul, mulKept, if_pos (flushed_operand_isNaN m h), flush_canonicalNaN]

theorem div_of_isNaN : div m a b = canonicalNaN := by
  rw [div, divKept, if_pos (flushed_operand_isNaN m h), flush_canonicalNaN]

theorem lt_of_isNaN : lt m a b = false := by
  rcases h with h | h <;> simp [lt, h]

end NaNOperand

/-- Settles O55: each operation's branches give the canonical NaN or a pattern that is none, and a NaN operand takes
the first branch. -/
theorem floatNaNsAreCanonical : Obligations.FloatNaNsAreCanonical := fun m _ _ =>
  ⟨nanCanonical_flush m (nanCanonical_addKept _ _), nanCanonical_flush m (nanCanonical_addKept _ _),
    nanCanonical_flush m (nanCanonical_mulKept _ _), nanCanonical_flush m (nanCanonical_divKept _ _),
    fun h => ⟨add_of_isNaN m h, sub_of_isNaN m h, mul_of_isNaN m h, div_of_isNaN m h, lt_of_isNaN m h⟩⟩

/-! ## Flushing -/

/-- A pattern is determined by its sign and its magnitude. -/
theorem eq_of_sign_of_magnitude {x y : F32} (hs : sign x = sign y) (hm : magnitude x = magnitude y) : x = y := by
  rw [← withSign_self x, ← withSign_self y, hs, hm]

theorem flush_flush (m : DenormalMode) (x : F32) : flush m (flush m x) = flush m x := by
  cases m with
  | ieee => rfl
  | ftz =>
    refine eq_of_sign_of_magnitude (sign_flush _ _) ?_
    simp only [magnitude_flush_ftz]
    split_ifs <;> omega

theorem flush_negate (m : DenormalMode) (x : F32) : flush m (negate x) = negate (flush m x) := by
  cases m with
  | ieee => rfl
  | ftz =>
    refine eq_of_sign_of_magnitude ?_ ?_
    · rw [sign_flush, sign_negate, sign_negate, sign_flush]
    · rw [magnitude_flush_ftz, magnitude_negate, magnitude_negate, magnitude_flush_ftz]

section FlushedOperands
variable (m : DenormalMode) (a b : F32)

theorem add_flush : add m (flush m a) (flush m b) = add m a b := by
  rw [add, add, flush_flush, flush_flush]

theorem sub_flush : sub m (flush m a) (flush m b) = sub m a b := by
  rw [sub, sub, ← flush_negate, add_flush]

theorem mul_flush : mul m (flush m a) (flush m b) = mul m a b := by
  rw [mul, mul, flush_flush, flush_flush]

theorem div_flush : div m (flush m a) (flush m b) = div m a b := by
  rw [div, div, flush_flush, flush_flush]

end FlushedOperands

/-- An exponent field of 0 is the magnitude of a zero or a subnormal. -/
theorem exponent_eq_zero_iff (x : F32) : x.extractLsb' 23 8 = 0 ↔ magnitude x < 2 ^ 23 := by
  rw [← BitVec.toNat_inj, Decoding.toNat_extractLsb'_eq_div_mod, magnitude]
  change x.toNat / 2 ^ 23 % 2 ^ 8 = 0 ↔ _
  omega

theorem magnitude_and_signBit (x : F32) : magnitude (x &&& 0x80000000) = 0 := by
  rw [magnitude, BitVec.toNat_and, Nat.and_mod_two_pow, show (0x80000000 : F32).toNat % 2 ^ 31 = 0 from rfl, Nat.and_zero]

theorem sign_and_signBit (x : F32) : sign (x &&& 0x80000000) = sign x := by
  rw [sign, sign, BitVec.msb_and, show (0x80000000 : F32).msb = true by decide, Bool.and_true]

/-- Flushing replaces a subnormal by the zero of its sign (R25). -/
theorem flush_ftz_eq (x : F32) : flush .ftz x = if x.extractLsb' 23 8 = 0 then x &&& 0x80000000 else x := by
  refine eq_of_sign_of_magnitude ?_ ?_
  · rw [sign_flush, apply_ite sign, sign_and_signBit, ite_self]
  · rw [magnitude_flush_ftz, apply_ite magnitude, magnitude_and_signBit]
    simp only [exponent_eq_zero_iff]

/-- A flushed pattern is no subnormal. -/
theorem flush_ftz_normal (x : F32) :
    (flush .ftz x).extractLsb' 23 8 ≠ 0 ∨ (flush .ftz x).extractLsb' 0 23 = 0 := by
  rw [ne_eq, exponent_eq_zero_iff, ← BitVec.toNat_inj, Decoding.toNat_extractLsb'_eq_div_mod]
  have hmag : magnitude (flush .ftz x) = 0 ∨ ¬magnitude (flush .ftz x) < 2 ^ 23 := by
    rw [magnitude_flush_ftz]
    split_ifs with hsub
    · exact .inl rfl
    · exact .inr hsub
  change _ ∨ (flush .ftz x).toNat / 2 ^ 0 % 2 ^ 23 = 0
  unfold magnitude at *
  omega

/-- Settles O56: every operation flushes its operands and its result, and flushing twice is flushing once. -/
theorem flushedResultsAreNoSubnormals : Obligations.FlushedResultsAreNoSubnormals := by
  intro a b zeroed normal
  have hzeroed : ∀ x, zeroed x = flush .ftz x := fun x => (flush_ftz_eq x).symm
  rw [hzeroed, hzeroed, add_flush, sub_flush, mul_flush, div_flush]
  exact ⟨flush_ftz_normal _, flush_ftz_normal _, flush_ftz_normal _, flush_ftz_normal _, rfl, rfl, rfl, rfl⟩

end Sys2Proof.Binary32
end

section
/-! The results of the operations as values: the value behind an order key, no binary32 nearer than a rounded one, and
from it the bounds by which the shaper, the conditioner and SETP stay in their ranges (00_scope.md R18, R25). -/

namespace Sys2Proof.Binary32

/-! ## The value of an order key -/

/-- The value of the pattern at a place in the order, in units of 2^-149. -/
def keyUnits (k : Int) : Int := if k < 0 then -(magUnits k.natAbs : Int) else magUnits k.natAbs

theorem magUnits_zero : magUnits 0 = 0 := by decide

theorem units_eq_keyUnits (x : F32) : units x = keyUnits (orderKey x) := by
  unfold units orderKey keyUnits
  cases sign x
  · simp
  · rcases Nat.eq_zero_or_pos (magnitude x) with h | h
    · simp [h, magUnits_zero]
    · simp [h]

theorem keyUnits_neg (k : Int) : keyUnits (-k) = -keyUnits k := by
  unfold keyUnits
  rcases lt_trichotomy k 0 with h | rfl | h
  · simp [h, h.le]
  · simp [magUnits_zero]
  · simp [h, h.le]

theorem keyUnits_of_nonneg {k : Int} (h : 0 ≤ k) : keyUnits k = magUnits k.natAbs := if_neg (not_lt.2 h)

theorem keyUnits_nonneg {k : Int} (h : 0 ≤ k) : 0 ≤ keyUnits k := by
  rw [keyUnits_of_nonneg h]
  omega

theorem keyUnits_nonpos {k : Int} (h : k ≤ 0) : keyUnits k ≤ 0 := by
  have := keyUnits_nonneg (Int.neg_nonneg_of_nonpos h)
  rw [keyUnits_neg] at this
  omega

/-- An order key that is no NaN's is rounded to itself. -/
theorem roundKey_keyUnits {k : Int} (h : 0 ≤ k) (hk : k ≤ 0x7F800000) : roundKey (keyUnits k) 1 = k := by
  have hexact := roundKey_exact (p := k.natAbs) (den := 1) (by decide) (by omega)
  rw [Nat.mul_one] at hexact
  rw [keyUnits_of_nonneg h, hexact]
  omega

/-! ## No binary32 is nearer -/

section Round
variable {v : Int} {den : Nat} (hd : 0 < den)
include hd

theorem roundKey_neg : roundKey (-v) den = -roundKey v den := by
  rcases lt_trichotomy v 0 with h | rfl | h
  · simp [roundKey, h, h.le]
  · simp [roundKey_zero den hd]
  · simp [roundKey, h, h.le]

theorem roundKey_nonneg (hv : 0 ≤ v) : 0 ≤ roundKey v den := roundKey_zero den hd ▸ roundKey_mono hd hv

/-- Among the values of all order keys, none is nearer to a value that is not negative than the rounded one. -/
theorem roundKey_nearest_of_nonneg (hv : 0 ≤ v) (hfin : roundKey v den < 0x7F800000) (k : Int) :
    |keyUnits (roundKey v den) * den - v| ≤ |keyUnits k * den - v| := by
  obtain ⟨n, rfl⟩ := Int.eq_ofNat_of_zero_le hv
  have hround : roundKey n den = roundMag n den := by
    rw [roundKey, if_neg (not_lt.2 hv), Int.natAbs_natCast]
  rw [hround] at hfin ⊢
  have hnearest := fun p => roundMag_nearest n den p hd (by omega)
  rw [keyUnits_of_nonneg (by omega), Int.natAbs_natCast]
  rcases le_or_gt 0 k with hk | hk
  · rw [keyUnits_of_nonneg hk]
    exact hnearest _
  · have hneg : keyUnits k * den ≤ 0 :=
      mul_nonpos_of_nonpos_of_nonneg (keyUnits_nonpos hk.le) (Int.natCast_nonneg den)
    refine (hnearest 0).trans ?_
    rw [magUnits_zero, abs_of_nonpos (by omega), abs_of_nonpos (by omega)]
    omega

/-- Among the values of all order keys, none is nearer than the rounded one, when it did not overflow. -/
theorem roundKey_nearest (hlow : -0x7F800000 < roundKey v den) (hhigh : roundKey v den < 0x7F800000) (k : Int) :
    |keyUnits (roundKey v den) * den - v| ≤ |keyUnits k * den - v| := by
  rcases le_or_gt 0 v with hv | hv
  · exact roundKey_nearest_of_nonneg hd hv hhigh k
  · have hneg := roundKey_neg (v := v) hd
    have h := roundKey_nearest_of_nonneg (v := -v) hd (by omega) (by omega) (-k)
    have hflip : ∀ a : Int, |-a * den - -v| = |a * den - v| := fun a => by
      rw [show -a * (den : Int) - -v = -(a * den - v) by ring, abs_neg]
    rwa [hneg, keyUnits_neg, keyUnits_neg, hflip, hflip] at h

/-- No binary32 is nearer to `v / den` than a finite one that stands where rounding puts it. -/
theorem units_nearest {x : F32} (hkey : orderKey x = roundKey v den) (hfin : isFinite x = true) (y : F32) :
    |units x * den - v| ≤ |units y * den - v| := by
  obtain ⟨hlow, hhigh⟩ := (isFinite_iff x).1 hfin
  rw [units_eq_keyUnits x, units_eq_keyUnits y, hkey]
  exact roundKey_nearest hd (hkey ▸ hlow) (hkey ▸ hhigh) _

end Round

theorem flush_ieee (x : F32) : flush .ieee x = x := rfl

theorem isFinite_negate (x : F32) : isFinite (negate x) = isFinite x := by
  rw [isFinite, isFinite, magnitude_negate]

section Kept
variable {a b : F32} (ha : isFinite a = true) (hb : isFinite b = true) (x : F32)
include ha hb

theorem add_nearest (hfin : isFinite (add .ieee a b) = true) :
    |units (add .ieee a b) - (units a + units b)| ≤ |units x - (units a + units b)| := by
  have h := units_nearest Nat.one_pos (orderKey_add .ieee ha hb) hfin x
  rwa [flush_ieee, flush_ieee, Nat.cast_one, mul_one, mul_one] at h

theorem sub_nearest (hfin : isFinite (sub .ieee a b) = true) :
    |units (sub .ieee a b) - (units a - units b)| ≤ |units x - (units a - units b)| := by
  have h := add_nearest ha ((isFinite_negate b).trans hb) x hfin
  rwa [units_negate, ← sub_eq_add_neg] at h

theorem mul_nearest (hfin : isFinite (mul .ieee a b) = true) :
    |units (mul .ieee a b) * 2 ^ 149 - units a * units b| ≤ |units x * 2 ^ 149 - units a * units b| := by
  exact_mod_cast units_nearest (Nat.two_pow_pos 149) (orderKey_mul .ieee ha hb) hfin x

end Kept

/-- Settles O54: each result stands where rounding puts the exact one, and no binary32 is nearer than that. -/
theorem floatResultsAreNearest : Obligations.FloatResultsAreNearest := fun _ _ x ha hb _ =>
  ⟨add_nearest ha hb x, sub_nearest ha hb x, mul_nearest ha hb x⟩

end Sys2Proof.Binary32
end

section
/-! The range of the coefficient: each operation of COEF keeps the order, so its results lie between those of the two
ends of the lookup (43_shaper.md R160, R161). -/

namespace Sys2Proof.Binary32

/-- A value between two finite ones, ends included, in the order of the values. -/
structure Between (lo hi x : F32) : Prop where
  lo_finite : isFinite lo = true
  hi_finite : isFinite hi = true
  lo_le : orderKey lo ≤ orderKey x
  le_hi : orderKey x ≤ orderKey hi

namespace Between
variable {lo hi x c : F32} (h : Between lo hi x) (m : DenormalMode)
include h

theorem finite : isFinite x = true := isFinite_between h.lo_finite h.hi_finite h.lo_le h.le_hi

/-- Between the products of the ends with a factor that is not negative. -/
theorem mul (hc : isFinite c = true ∧ 0 ≤ orderKey c)
    (hends : isFinite (mul m lo c) = true ∧ isFinite (mul m hi c) = true) :
    Between (mul m lo c) (mul m hi c) (mul m x c) where
  lo_finite := hends.1
  hi_finite := hends.2
  lo_le := mul_mono m h.lo_finite h.finite hc.1 hc.2 h.lo_le
  le_hi := mul_mono m h.finite h.hi_finite hc.1 hc.2 h.le_hi

/-- Between the sums of the ends with a constant. -/
theorem add (hc : isFinite c = true) (hends : isFinite (add m lo c) = true ∧ isFinite (add m hi c) = true) :
    Between (add m lo c) (add m hi c) (add m x c) where
  lo_finite := hends.1
  hi_finite := hends.2
  lo_le := add_mono m h.lo_finite h.finite hc hc h.lo_le le_rfl
  le_hi := add_mono m h.finite h.hi_finite hc hc h.le_hi le_rfl

/-- Between the differences of the ends and a constant. -/
theorem sub (hc : isFinite c = true) (hends : isFinite (sub m lo c) = true ∧ isFinite (sub m hi c) = true) :
    Between (sub m lo c) (sub m hi c) (sub m x c) :=
  h.add m ((isFinite_negate c).trans hc) hends

end Between

/-- An integer between two others, as a float. -/
theorem between_ofInt {lo hi n : Int} (hlo : lo ≤ n) (hhi : n ≤ hi)
    (hends : isFinite (ofInt lo) = true ∧ isFinite (ofInt hi) = true) : Between (ofInt lo) (ofInt hi) (ofInt n) where
  lo_finite := hends.1
  hi_finite := hends.2
  lo_le := ofInt_mono hlo
  le_hi := ofInt_mono hhi

end Sys2Proof.Binary32

namespace Sys2Proof.Machine

/-- The coefficients of the two ends of the lookup. -/
theorem coefficient_ends (m : DenormalMode) :
    -0x3F6B851F ≤ Binary32.orderKey (coefficient m 0) ∧ Binary32.orderKey (coefficient m 65536) ≤ 0x3F7851EB := by
  cases m <;> decide

/-- The coefficient of a lookup result lies between those of the two ends. -/
theorem coefficient_between (m : DenormalMode) {l : Q16} (hlo : 0 ≤ l.toInt) (hhi : l.toInt ≤ 65536) :
    Binary32.Between (coefficient m 0) (coefficient m 65536) (coefficient m l) := by
  have hint := Binary32.between_ofInt hlo hhi (by decide)
  have hscaled := hint.mul (c := 0x37800000) m (by decide) (by cases m <;> decide)
  have hcentred := hscaled.sub (c := 0x3F000000) m (by decide) (by cases m <;> decide)
  have hstretched := hcentred.mul (c := 0x3FF1EB85) m (by decide) (by cases m <;> decide)
  exact hstretched.add (c := 0x3CCCCCCD) m (by decide) (by cases m <;> decide)

/-- The range of the coefficient (R161). -/
theorem coefRange_coefficient (m : DenormalMode) {l : Q16} (hlo : 0 ≤ l.toInt) (hhi : l.toInt ≤ 65536) :
    CoefRange (coefficient m l) :=
  have hbetween := coefficient_between m hlo hhi
  ⟨(coefficient_ends m).1.trans hbetween.lo_le, hbetween.le_hi.trans (coefficient_ends m).2⟩

/-- Settles O29, by the order that each of COEF's operations keeps. -/
theorem coefStaysInItsRange : Obligations.CoefStaysInItsRange := fun s hlo hhi =>
  ⟨_, exec_coef s, coefRange_coefficient Config.impl.denormalMode hlo hhi⟩

end Sys2Proof.Machine
end

section
/-! The gain ramp: a rounded value is at most twice the exact one, by which the ramp never passes 1.0, and its
trajectory from 0 (45_conditioner.md R193, R194). -/

namespace Sys2Proof.Binary32

theorem keyUnits_mono {k k' : Int} (h : k ≤ k') : keyUnits k ≤ keyUnits k' := by
  unfold keyUnits
  split <;> split
  · have := magUnits_le_iff.2 (show k'.natAbs ≤ k.natAbs by omega)
    omega
  · omega
  · omega
  · exact_mod_cast magUnits_le_iff.2 (show k.natAbs ≤ k'.natAbs by omega)

theorem units_nonneg_iff {x : F32} : 0 ≤ units x ↔ 0 ≤ orderKey x := units_le_iff (x := 0)

/-- Flushing moves a key that is not negative toward 0. -/
theorem flushKey_range (m : DenormalMode) {k : Int} (h : 0 ≤ k) : 0 ≤ flushKey m k ∧ flushKey m k ≤ k := by
  cases m with
  | ieee => exact ⟨h, le_rfl⟩
  | ftz =>
    simp only [flushKey]
    split <;> omega

/-- Flushing moves a value that is not negative toward 0. -/
theorem units_flush_range (m : DenormalMode) {x : F32} (h : 0 ≤ orderKey x) :
    0 ≤ units (flush m x) ∧ units (flush m x) ≤ units x := by
  obtain ⟨hlo, hhi⟩ := flushKey_range m h
  rw [units_eq_keyUnits, units_eq_keyUnits, orderKey_flush]
  exact ⟨keyUnits_nonneg hlo, keyUnits_mono hhi⟩

/-- A rounded and flushed value that is not negative is at most twice the exact one, 0 being a binary32. -/
theorem units_le_double (m : DenormalMode) {v : Int} {den : Nat} (hd : 0 < den) (hv : 0 ≤ v) {x : F32}
    (hkey : orderKey x = flushKey m (roundKey v den)) (hfin : roundKey v den < 0x7F800000) :
    0 ≤ units x ∧ units x * den ≤ 2 * v := by
  obtain ⟨hlo, hhi⟩ := flushKey_range m (roundKey_nonneg hd hv)
  rw [units_eq_keyUnits, hkey]
  refine ⟨keyUnits_nonneg hlo, ?_⟩
  have hnearest := roundKey_nearest_of_nonneg hd hv hfin 0
  rw [show keyUnits 0 = 0 by decide, Int.zero_mul, Int.zero_sub, abs_neg, abs_of_nonneg hv] at hnearest
  have hflushed := Int.mul_le_mul_of_nonneg_right (keyUnits_mono hhi) (Int.natCast_nonneg den)
  have hround := (abs_le.1 hnearest).2
  omega

/-- Where the difference of two finite values stands. -/
theorem orderKey_sub (m : DenormalMode) {a b : F32} (ha : isFinite a = true) (hb : isFinite b = true) :
    orderKey (sub m a b) = flushKey m (roundKey (units (flush m a) - units (flush m b)) 1) := by
  rw [sub, orderKey_add m ha ((isFinite_negate b).trans hb), flush_negate, units_negate, ← sub_eq_add_neg]

theorem flush_one (m : DenormalMode) : flush m one = one := flush_of_normal m (by decide)

section Gain
variable {g : F32} (hg : InUnit g) (m : DenormalMode)
include hg

/-- The value of a parameter register as an operation reads it. -/
theorem units_flush_of_inUnit : 0 ≤ units (flush m g) ∧ units (flush m g) ≤ 2 ^ 149 := by
  obtain ⟨hzero, hone⟩ := orderKey_range_of_inUnit hg
  obtain ⟨hlo, hhi⟩ := units_flush_range m (x := g) hzero
  exact ⟨hlo, hhi.trans (units_le_iff.2 hone)⟩

/-- What is left to 1.0, rounded, is at most twice what is left. -/
theorem sub_one_of_inUnit :
    isFinite (sub m one g) = true ∧ 0 ≤ units (sub m one g) ∧
    units (sub m one g) ≤ 2 * (2 ^ 149 - units (flush m g)) := by
  obtain ⟨hlo, hhi⟩ := units_flush_of_inUnit hg m
  have hkey := orderKey_sub m (a := one) (by decide) (isFinite_of_inUnit hg)
  rw [flush_one, show units one = 2 ^ 149 by decide] at hkey
  have hround : roundKey (2 ^ 149 - units (flush m g)) 1 ≤ orderKey one :=
    roundKey_mono (v' := 2 ^ 149) Nat.one_pos (by omega)
  have hone : orderKey one < 0x7F800000 := by decide
  obtain ⟨hnonneg, hdouble⟩ := units_le_double m Nat.one_pos (by omega) hkey (by omega)
  obtain ⟨hflo, hfhi⟩ := flushKey_range m (roundKey_nonneg (v := 2 ^ 149 - units (flush m g)) Nat.one_pos (by omega))
  refine ⟨(isFinite_iff _).2 ⟨by omega, by omega⟩, hnonneg, ?_⟩
  rwa [Nat.cast_one, mul_one] at hdouble

/-- A 16th of what is left, rounded, is at most a quarter of what is left. -/
theorem mul_sub_one_of_inUnit :
    isFinite (mul m (sub m one g) 0x3D800000) = true ∧ 0 ≤ units (mul m (sub m one g) 0x3D800000) ∧
    4 * units (mul m (sub m one g) 0x3D800000) ≤ 2 ^ 149 - units (flush m g) := by
  obtain ⟨hfin, hnonneg, hdouble⟩ := sub_one_of_inUnit hg m
  obtain ⟨hlo, -⟩ := units_flush_of_inUnit hg m
  generalize sub m one g = d at *
  obtain ⟨hlo', hhi'⟩ := units_flush_range m (x := d) (units_nonneg_iff.1 hnonneg)
  have hkey := orderKey_mul m (b := 0x3D800000) hfin (by decide)
  rw [flush_of_normal m (x := 0x3D800000) (by decide), show units 0x3D800000 = 2 ^ 145 by decide] at hkey
  have hround : roundKey (units (flush m d) * 2 ^ 145) (2 ^ 149) ≤ roundKey (2 ^ 150 * 2 ^ 145) (2 ^ 149) :=
    roundKey_mono (Nat.two_pow_pos _) (by omega)
  have hlarge : roundKey (2 ^ 150 * 2 ^ 145) (2 ^ 149) < 0x7F800000 := by decide
  have hpos : (0 : Int) ≤ units (flush m d) * 2 ^ 145 := by omega
  obtain ⟨hflo, hfhi⟩ := flushKey_range m (roundKey_nonneg (Nat.two_pow_pos 149) hpos)
  obtain ⟨hnonneg', hdouble'⟩ := units_le_double m (Nat.two_pow_pos 149) hpos hkey (by omega)
  refine ⟨(isFinite_iff _).2 ⟨by omega, by omega⟩, hnonneg', ?_⟩
  rw [Nat.cast_pow, Nat.cast_ofNat] at hdouble'
  omega

end Gain

end Sys2Proof.Binary32

namespace Sys2Proof.Machine
open Binary32

/-- The ramp stays in [0, 1]: the gain and what is added to it are together at most 1.0 before they are rounded. -/
theorem inUnit_rampedGain (m : DenormalMode) {g : F32} (hg : InUnit g) : InUnit (rampedGain m g) := by
  obtain ⟨hfin, hnonneg, hquarter⟩ := mul_sub_one_of_inUnit hg m
  obtain ⟨hlo, -⟩ := units_flush_of_inUnit hg m
  have hg' := isFinite_of_inUnit hg
  unfold rampedGain
  generalize mul m (sub m one g) 0x3D800000 = q at *
  obtain ⟨hlo', hhi'⟩ := units_flush_range m (x := q) (units_nonneg_iff.1 hnonneg)
  have hround : roundKey (units (flush m g) + units (flush m q)) 1 ≤ orderKey one :=
    roundKey_mono (v' := 2 ^ 149) Nat.one_pos (by omega)
  refine (inUnit_iff _).2 ⟨sign_add m hg' hfin ((inUnit_iff g).1 hg).1 (by omega), ?_⟩
  rw [orderKey_add m hg' hfin]
  exact (flushKey_range m (roundKey_nonneg Nat.one_pos (by omega))).2.trans hround

theorem inUnit_nextGain (m : DenormalMode) {g : F32} (hg : InUnit g) : InUnit (nextGain m g) := by
  unfold nextGain
  split
  · exact show InUnit one by decide
  · exact inUnit_rampedGain m hg

/-- Repeated GAIN_STEPs repeat the update of the gain. -/
theorem repeatExec_gainStep (steps : Nat) (s : State) : ∃ t, repeatExec .gainStep steps s = .next t ∧
    t.gain = (nextGain Config.impl.denormalMode)^[steps] s.gain := by
  induction steps generalizing s with
  | zero => exact ⟨s, rfl, rfl⟩
  | succ steps ih => exact ih { s with gain := nextGain Config.impl.denormalMode s.gain, seq := seqCode .next }

/-- The ramp from 0: the gain after 0 to 167 samples (R194). -/
def gainRamp : List F32 :=
  [ 0x00000000, 0x3D800000, 0x3DF80000, 0x3E344000, 0x3E68FC00, 0x3E8D3620, 0x3EA462BE, 0x3EBA1C92, 0x3ECE7AC9,
    0x3EE1931C, 0x3EF379EA, 0x3F022126, 0x3F09FF14, 0x3F115F23, 0x3F184931, 0x3F1EC49E, 0x3F24D854, 0x3F2A8ACF,
    0x3F2FE222, 0x3F34E400, 0x3F3995C0, 0x3F3DFC64, 0x3F421C9E, 0x3F45FAD4, 0x3F499B27, 0x3F4D0175, 0x3F50315E,
    0x3F532E48, 0x3F55FB64, 0x3F589BAE, 0x3F5B11F3, 0x3F5D60D4, 0x3F5F8AC7, 0x3F61921B, 0x3F6378F9, 0x3F654169,
    0x3F66ED52, 0x3F687E7D, 0x3F69F695, 0x3F6B572C, 0x3F6CA1B9, 0x3F6DD79D, 0x3F6EFA23, 0x3F700A81, 0x3F7109D9,
    0x3F71F93B, 0x3F72D9A7, 0x3F73AC0D, 0x3F74714C, 0x3F752A37, 0x3F75D794, 0x3F767A1B, 0x3F771279, 0x3F77A151,
    0x3F78273C, 0x3F78A4C8, 0x3F791A7C, 0x3F7988D4, 0x3F79F047, 0x3F7A5143, 0x3F7AAC2F, 0x3F7B016C, 0x3F7B5155,
    0x3F7B9C40, 0x3F7BE27C, 0x3F7C2454, 0x3F7C620F, 0x3F7C9BEE, 0x3F7CD22F, 0x3F7D050C, 0x3F7D34BB, 0x3F7D616F,
    0x3F7D8B58, 0x3F7DB2A2, 0x3F7DD778, 0x3F7DFA00, 0x3F7E1A60, 0x3F7E38BA, 0x3F7E552E, 0x3F7E6FDB, 0x3F7E88DD,
    0x3F7EA04F, 0x3F7EB64A, 0x3F7ECAE5, 0x3F7EDE37, 0x3F7EF054, 0x3F7F014F, 0x3F7F113A, 0x3F7F2026, 0x3F7F2E24,
    0x3F7F3B42, 0x3F7F478E, 0x3F7F5315, 0x3F7F5DE4, 0x3F7F6806, 0x3F7F7186, 0x3F7F7A6E, 0x3F7F82C7, 0x3F7F8A9B,
    0x3F7F91F1, 0x3F7F98D2, 0x3F7F9F45, 0x3F7FA551, 0x3F7FAAFC, 0x3F7FB04C, 0x3F7FB547, 0x3F7FB9F3, 0x3F7FBE54,
    0x3F7FC26F, 0x3F7FC648, 0x3F7FC9E4, 0x3F7FCD46, 0x3F7FD072, 0x3F7FD36B, 0x3F7FD634, 0x3F7FD8D1, 0x3F7FDB44,
    0x3F7FDD90, 0x3F7FDFB7, 0x3F7FE1BC, 0x3F7FE3A0, 0x3F7FE566, 0x3F7FE710, 0x3F7FE89F, 0x3F7FEA15, 0x3F7FEB74,
    0x3F7FECBD, 0x3F7FEDF1, 0x3F7FEF12, 0x3F7FF021, 0x3F7FF11F, 0x3F7FF20D, 0x3F7FF2EC, 0x3F7FF3BD, 0x3F7FF481,
    0x3F7FF539, 0x3F7FF5E5, 0x3F7FF687, 0x3F7FF71F, 0x3F7FF7AD, 0x3F7FF832, 0x3F7FF8AF, 0x3F7FF924, 0x3F7FF992,
    0x3F7FF9F9, 0x3F7FFA59, 0x3F7FFAB3, 0x3F7FFB08, 0x3F7FFB58, 0x3F7FFBA2, 0x3F7FFBE8, 0x3F7FFC2A, 0x3F7FFC67,
    0x3F7FFCA1, 0x3F7FFCD7, 0x3F7FFD0A, 0x3F7FFD39, 0x3F7FFD65, 0x3F7FFD8F, 0x3F7FFDB6, 0x3F7FFDDB, 0x3F7FFDFD,
    0x3F7FFE1D, 0x3F7FFE3B, 0x3F7FFE57, 0x3F7FFE72, 0x3F7FFE8B, 0x3F7FFEA2 ]

/-- Each gain of the ramp is the update of the one before, evaluated. -/
theorem isChain_gainRamp (m : DenormalMode) : gainRamp.IsChain fun g g' => nextGain m g = g' := by
  unfold gainRamp
  repeat refine .cons_cons (by cases m <;> decide) ?_
  exact .singleton _

/-- After the last gain of the ramp the gain snaps to 1.0, and stays there. -/
theorem nextGain_snaps (m : DenormalMode) : nextGain m 0x3F7FFEA2 = one ∧ nextGain m one = one := by
  cases m <;> decide

theorem nextGain_iterate_167 (m : DenormalMode) : (nextGain m)^[167] 0 = 0x3F7FFEA2 := by
  have hlen : gainRamp.length = 168 := rfl
  exact (isChain_gainRamp m).iterate_eq_of_apply_eq 167 (hlen ▸ Nat.lt_succ_self 167)

/-- From the 168th sample on the gain is 1.0, which GAIN_STEP keeps. -/
theorem nextGain_iterate_of_168_le (m : DenormalMode) {steps : Nat} (h : 168 ≤ steps) :
    (nextGain m)^[steps] 0 = one := by
  obtain ⟨hsnap, hone⟩ := nextGain_snaps m
  obtain ⟨later, rfl⟩ := Nat.exists_eq_add_of_le' h
  rw [Function.iterate_add_apply, Function.iterate_succ_apply', nextGain_iterate_167, hsnap, Function.iterate_fixed hone]

/-- Settles O36, by the trajectory of the update of the gain and by the range that it keeps. -/
theorem gainRampReachesUnity : Obligations.GainRampReachesUnity := by
  intro s hs
  have hsteps := fun steps => hs ▸ repeatExec_gainStep steps s
  refine ⟨?last, fun steps h => ?later, fun steps => ?range⟩
  case last =>
    obtain ⟨t, hrun, hgain⟩ := hsteps 167
    exact ⟨t, hrun, hgain.trans (nextGain_iterate_167 _)⟩
  case later =>
    obtain ⟨t, hrun, hgain⟩ := hsteps steps
    exact ⟨t, hrun, hgain.trans (nextGain_iterate_of_168_le _ h)⟩
  case range =>
    obtain ⟨t, hrun, hgain⟩ := hsteps steps
    refine ⟨t, hrun, hgain ▸ ?_⟩
    exact Function.Iterate.rec (fun g => InUnit g) (show InUnit 0 by decide) (fun _ => inUnit_nextGain _) steps

end Sys2Proof.Machine
end

section
/-! The bound of the limiter: the threshold is finite and not above the knee, the excess over it is no NaN, and the
threshold with the soft-clipped excess is at most the knee before it is rounded (45_conditioner.md R189 to R192). -/

namespace Sys2Proof.Binary32

theorem orderKey_of_sign {x : F32} (h : sign x = false) : orderKey x = magnitude x := by
  simp [orderKey, h]

theorem orderKey_fabs (x : F32) : orderKey (fabs x) = magnitude x := by
  rw [orderKey_of_sign (sign_fabs x), magnitude_fabs]

/-- A pattern without a sign is its magnitude. -/
theorem toNat_of_sign {x : F32} (h : sign x = false) : x.toNat = magnitude x := by
  have hmsb : x.msb = false := h
  rw [BitVec.msb_eq_decide, decide_eq_false_iff_not] at hmsb
  exact (Nat.mod_eq_of_lt (by omega)).symm

theorem lt_eq_false_iff {m : DenormalMode} {x y : F32} (hx : isNaN x = false) (hy : isNaN y = false) :
    lt m x y = false ↔ orderKey (flush m y) ≤ orderKey (flush m x) := by
  simp [lt, hx, hy]

theorem lt_eq_true_iff {m : DenormalMode} {x y : F32} (hx : isNaN x = false) (hy : isNaN y = false) :
    lt m x y = true ↔ orderKey (flush m x) < orderKey (flush m y) := by
  simp [lt, hx, hy]

/-- What is less after flushing was less before. -/
theorem lt_of_flushKey_lt {m : DenormalMode} {k k' : Int} (h : flushKey m k < flushKey m k') : k < k' :=
  not_le.1 fun hle => not_le.2 h (flushKey_mono m hle)

theorem natAbs_orderKey (x : F32) : (orderKey x).natAbs = magnitude x := by
  unfold orderKey
  split <;> omega

theorem roundKey_le_infinity (v : Int) (den : Nat) : roundKey v den ≤ 0x7F800000 := by
  have := roundMag_le_infinity v.natAbs den
  unfold roundKey
  split <;> omega

/-- An infinity less a finite value is that infinity. -/
theorem sub_of_isInf (m : DenormalMode) {x y : F32} (hx : isInf x = true) (hy : isFinite y = true) : sub m x y = x := by
  have hmag : magnitude x = 0x7F800000 := by simpa [isInf] using hx
  have hflush : flush m x = x := flush_of_normal m (by omega)
  have hy' : isFinite (flush m (negate y)) = true := by rw [isFinite_flush, isFinite_negate, hy]
  simp [sub, add, addKept, hflush, hx, isNaN_of_isInf hx, not_isNaN_of_isFinite hy']

end Sys2Proof.Binary32

namespace Sys2Proof.Machine
open Binary32

section Limiter
variable {c : Config} (hc : c.Valid)
include hc

/-- The threshold is between 0 and the knee (R191). -/
theorem limTh_range : 0 < orderKey c.limTh ∧ orderKey c.limTh ≤ orderKey c.limKnee ∧ isFinite c.limTh = true := by
  obtain ⟨-, hlo, hhi⟩ := hc.softclip_range 0 (by decide)
  have hpos : 0 < orderKey c.limTh := not_le.1 fun h => not_le.2 hc.threshold_pos (units_le_iff (y := 0).2 h)
  have hknee : orderKey c.limTh ≤ orderKey c.limKnee := units_le_iff.1 (by omega)
  have hfin := (isFinite_iff _).1 hc.knee_finite
  exact ⟨hpos, hknee, (isFinite_iff _).2 ⟨by omega, by omega⟩⟩

/-- The excess over the threshold of a tap that is no NaN is neither negative nor a NaN (R192). -/
theorem excess_range {x : F32} (hx : isNaN x = false) (hlt : lt c.denormalMode (fabs x) c.limTh = false) :
    (sub c.denormalMode (fabs x) c.limTh).toNat ≤ 0x7F800000 := by
  obtain ⟨-, -, hth⟩ := limTh_range hc
  rcases Bool.eq_false_or_eq_true (isInf (fabs x)) with hinf | hinf
  · have hmag : magnitude (fabs x) = 0x7F800000 := by simpa [isInf] using hinf
    rw [sub_of_isInf _ hinf hth, toNat_of_sign (sign_fabs x), hmag]
  · have hfin : isFinite (fabs x) = true := by
      simp only [isNaN, isInf, isFinite, magnitude_fabs, decide_eq_true_eq, decide_eq_false_iff_not] at *
      omega
    rw [lt_eq_false_iff (not_isNaN_of_isFinite hfin).1 (not_isNaN_of_isFinite hth).1, ← units_le_iff] at hlt
    have hneg := isFinite_negate c.limTh ▸ hth
    have hsign : sign (sub c.denormalMode (fabs x) c.limTh) = false := by
      refine sign_add _ hfin hneg (sign_fabs x) ?_
      rw [flush_negate, units_negate]
      omega
    have hkey := orderKey_sub c.denormalMode hfin hth
    rw [orderKey_of_sign hsign] at hkey
    rw [toNat_of_sign hsign]
    have hround := roundKey_le_infinity (units (flush c.denormalMode (fabs x)) - units (flush c.denormalMode c.limTh)) 1
    have hflush := flushKey_range c.denormalMode (roundKey_nonneg
      (v := units (flush c.denormalMode (fabs x)) - units (flush c.denormalMode c.limTh)) Nat.one_pos (by omega))
    omega

/-- The threshold with the soft-clipped excess is at most the knee: their sum is, before it is rounded. -/
theorem add_softclip_range {e : F32} (he : e.toNat ≤ 0x7F800000) :
    0 ≤ orderKey (add c.denormalMode c.limTh (c.softclip e)) ∧
    orderKey (add c.denormalMode c.limTh (c.softclip e)) ≤ orderKey c.limKnee := by
  obtain ⟨hpos, hknee, hth⟩ := limTh_range hc
  obtain ⟨hclip, hlo, hhi⟩ := hc.softclip_range e he
  obtain ⟨hlo₁, hhi₁⟩ := units_flush_range c.denormalMode hpos.le
  obtain ⟨hlo₂, hhi₂⟩ := units_flush_range c.denormalMode (units_nonneg_iff.1 hlo)
  have hfin := (isFinite_iff _).1 hc.knee_finite
  have hround : roundKey (units (flush c.denormalMode c.limTh) + units (flush c.denormalMode (c.softclip e))) 1
      ≤ orderKey c.limKnee := by
    rw [← roundKey_keyUnits (k := orderKey c.limKnee) (by omega) (by omega), ← units_eq_keyUnits]
    exact roundKey_mono Nat.one_pos (by omega)
  obtain ⟨hnonneg, hle⟩ := flushKey_range c.denormalMode (roundKey_nonneg
    (v := units (flush c.denormalMode c.limTh) + units (flush c.denormalMode (c.softclip e))) Nat.one_pos (by omega))
  rw [orderKey_add _ hth hclip]
  exact ⟨hnonneg, hle.trans hround⟩

/-- The limited sample is at most the knee in magnitude (R189). -/
theorem magnitude_limitValue_le {x : F32} (hx : isNaN x = false) :
    magnitude (limitValue c x) ≤ magnitude c.limKnee := by
  obtain ⟨-, hknee, hth⟩ := limTh_range hc
  have hx' : isNaN (fabs x) = false := by rw [isNaN, magnitude_fabs, ← isNaN, hx]
  have habs := natAbs_orderKey c.limKnee
  unfold limitValue
  split
  · rename_i hlt
    rw [lt_eq_true_iff hx' (not_isNaN_of_isFinite hth).1, orderKey_flush, orderKey_flush] at hlt
    have hbelow := lt_of_flushKey_lt hlt
    rw [orderKey_fabs] at hbelow
    omega
  · rename_i hlt
    obtain ⟨hlo, hhi⟩ := add_softclip_range hc (excess_range hc hx (Bool.eq_false_iff.2 hlt))
    rw [magnitude_copysign, ← natAbs_orderKey]
    omega

end Limiter

/-- Settles O34: the limited sample is no larger than the knee, which is finite. -/
theorem limitNeverExceedsTheKnee : Obligations.LimitNeverExceedsTheKnee := by
  intro s hx
  have hbound := magnitude_limitValue_le Config.impl_valid hx
  have hknee := Config.impl_valid.knee_finite
  refine ⟨_, exec_limit s, ?_, hbound⟩
  simp only [isFinite, decide_eq_true_eq] at hknee ⊢
  exact hbound.trans_lt hknee

end Sys2Proof.Machine
end

section
/-! What SETP stores: the conversion rounds the integer once, the multiplication by 2^-31 is exact, and the clip acts
on negative values alone (47_host_commands.md R226, R227). -/

namespace Sys2Proof.Binary32

/-- `e` exponent steps up, a normal value is 2^e times as large. -/
theorem keyUnits_add_exponent {k : Int} (hk : 2 ^ 23 ≤ k) (e : Nat) :
    keyUnits (k + e * 2 ^ 23) = keyUnits k * 2 ^ e := by
  have hstep : (k + e * 2 ^ 23).natAbs = k.natAbs + e * 2 ^ 23 := by omega
  rw [keyUnits_of_nonneg (by omega), keyUnits_of_nonneg (by omega), hstep, magUnits_add_exponent (by omega)]
  push_cast
  rfl

/-- The multiplication by 2^-31 of a value of at least 1.0 is exact. -/
theorem units_mul_two_pow_neg_31 (m : DenormalMode) {x : F32} (hfin : isFinite x = true)
    (hone : orderKey one ≤ orderKey x) : units (mul m x 0x30000000) * 2 ^ 31 = units x := by
  obtain ⟨-, hhi⟩ := (isFinite_iff x).1 hfin
  have h1 : orderKey one = 127 * 2 ^ 23 := by decide
  have hmag := natAbs_orderKey x
  obtain ⟨k, hk⟩ : ∃ k, orderKey x = k + (31 : Nat) * 2 ^ 23 := ⟨orderKey x - 31 * 2 ^ 23, by omega⟩
  have hx : units x = keyUnits k * 2 ^ 31 := by
    rw [units_eq_keyUnits, hk, keyUnits_add_exponent (by omega)]
  have hexact : units x * units 0x30000000 = (magUnits k.natAbs * 2 ^ 149 : Nat) := by
    rw [hx, keyUnits_of_nonneg (by omega), show units 0x30000000 = 2 ^ 118 by decide]
    push_cast
    ring
  have hkey : orderKey (mul m x 0x30000000) = k := by
    rw [orderKey_mul m hfin (by decide), flush_of_normal m (by omega), flush_of_normal m (by decide), hexact,
      roundKey_exact (Nat.two_pow_pos _) (by omega), flushKey_of_normal m (by omega), Int.natAbs_of_nonneg (by omega)]
  rw [units_eq_keyUnits (mul m x 0x30000000), hkey, hx]

end Sys2Proof.Binary32

namespace Sys2Proof.Machine
open Binary32

/-- The Q1.31 value as a float lies between those of any two values around it. -/
theorem q31ToF32_between (m : DenormalMode) {lo hi value : Int} (hlo : lo ≤ value) (hhi : value ≤ hi)
    (hint : isFinite (ofInt lo) = true ∧ isFinite (ofInt hi) = true)
    (hends : isFinite (q31ToF32 m lo) = true ∧ isFinite (q31ToF32 m hi) = true) :
    Between (q31ToF32 m lo) (q31ToF32 m hi) (q31ToF32 m value) :=
  (between_ofInt hlo hhi hint).mul m (by decide) hends

/-- A negative value is clipped to +0.0: as a float it is at most -2^-31, which no mode flushes. -/
theorem paramValue_of_neg (m : DenormalMode) {value : Int} (hlo : -2147483648 ≤ value) (hneg : value < 0) :
    paramValue m value = 0 := by
  have hq : Between (q31ToF32 m (-2147483648)) (q31ToF32 m (-1)) (q31ToF32 m value) :=
    q31ToF32_between m hlo (by omega) (by decide) (by cases m <;> decide)
  have hends : orderKey (flush m (q31ToF32 m (-1))) < orderKey (flush m 0) := by cases m <;> decide
  have hlt : lt m (q31ToF32 m value) 0 = true := by
    rw [lt_eq_true_iff (not_isNaN_of_isFinite hq.finite).1 (by decide)]
    refine lt_of_le_of_lt ?_ hends
    rw [orderKey_flush, orderKey_flush]
    exact flushKey_mono m hq.le_hi
  rw [paramValue, clip01, if_pos hlt]

theorem paramValue_zero (m : DenormalMode) : paramValue m 0 = 0 := by
  cases m <;> decide

section Positive
variable (m : DenormalMode) {value : Int} (hpos : 0 < value) (hhi : value < 2147483648)
include hpos hhi

/-- A positive value as a float is from 2^-31 to 1.0. -/
theorem q31ToF32_between_of_pos : Between (q31ToF32 m 1) (q31ToF32 m 2147483647) (q31ToF32 m value) :=
  q31ToF32_between m hpos (by omega) (by decide) (by cases m <;> decide)

/-- A positive value is stored as it is. -/
theorem paramValue_of_pos : paramValue m value = q31ToF32 m value := by
  have hq := q31ToF32_between_of_pos m hpos hhi
  have hnan := (not_isNaN_of_isFinite hq.finite).1
  have hends : orderKey (flush m 0) ≤ orderKey (flush m (q31ToF32 m 1)) ∧
      orderKey (flush m (q31ToF32 m 2147483647)) ≤ orderKey (flush m one) := by cases m <;> decide
  have hzero : lt m (q31ToF32 m value) 0 = false := by
    rw [lt_eq_false_iff hnan (by decide)]
    refine hends.1.trans ?_
    rw [orderKey_flush, orderKey_flush]
    exact flushKey_mono m hq.lo_le
  have hone : lt m one (q31ToF32 m value) = false := by
    rw [lt_eq_false_iff (by decide) hnan]
    refine le_trans ?_ hends.2
    rw [orderKey_flush, orderKey_flush]
    exact flushKey_mono m hq.le_hi
  rw [paramValue, clip01, if_neg (by rw [hzero]; decide), if_neg (by rw [hone]; decide)]

/-- It is a positive number in [0, 1]. -/
theorem q31ToF32_inUnit : InUnit (q31ToF32 m value) ∧ 0 < (q31ToF32 m value).toNat := by
  have hq := q31ToF32_between_of_pos m hpos hhi
  have hends : 0 < orderKey (q31ToF32 m 1) ∧ orderKey (q31ToF32 m 2147483647) ≤ orderKey one := by
    cases m <;> decide
  have hsign : sign (q31ToF32 m value) = false := by
    have hint := between_ofInt (lo := 1) (hi := 2147483647) hpos (by omega) (by decide)
    rw [q31ToF32, sign_mul m hint.finite (by decide), sign_ofInt, decide_eq_false (by omega)]
    decide
  have hkey := orderKey_of_sign hsign
  refine ⟨(inUnit_iff _).2 ⟨hsign, hq.le_hi.trans hends.2⟩, ?_⟩
  have := hq.lo_le
  rw [toNat_of_sign hsign]
  omega

/-- No binary32 is nearer to `value / 2^31`: 31 exponent steps up, it is the integer's nearest. -/
theorem q31ToF32_nearest (x : F32) :
    |units (q31ToF32 m value) - value * 2 ^ 118| ≤ |units x - value * 2 ^ 118| := by
  have hint := between_ofInt (lo := 1) (hi := 2147483647) hpos (by omega) (by decide)
  obtain ⟨hlow, hhigh⟩ := (isFinite_iff _).1 hint.finite
  have hscaled : units (q31ToF32 m value) * 2 ^ 31 = units (ofInt value) :=
    units_mul_two_pow_neg_31 m hint.finite ((show orderKey one ≤ orderKey (ofInt 1) by decide).trans hint.lo_le)
  have hkey := orderKey_ofInt value
  have hnearest : ∀ k, |units (ofInt value) - value * 2 ^ 149| ≤ |keyUnits k - value * 2 ^ 149| := fun k => by
    have := roundKey_nearest Nat.one_pos (hkey ▸ hlow) (hkey ▸ hhigh) k
    rwa [← hkey, ← units_eq_keyUnits, Nat.cast_one, mul_one, mul_one] at this
  have hscale : ∀ u : Int, |u * 2 ^ 31 - value * 2 ^ 149| = |u - value * 2 ^ 118| * 2 ^ 31 := fun u => by
    rw [show u * 2 ^ 31 - value * 2 ^ 149 = (u - value * 2 ^ 118) * 2 ^ 31 by ring, abs_mul]
    rfl
  suffices h : |units (ofInt value) - value * 2 ^ 149| ≤ |units x * 2 ^ 31 - value * 2 ^ 149| by
    rw [← hscaled, hscale, hscale] at h
    omega
  rcases le_or_gt (2 ^ 23) (orderKey x) with hx | hx
  · rw [units_eq_keyUnits x, ← keyUnits_add_exponent hx 31]
    exact hnearest _
  · have hsmall : units x ≤ 2 ^ 23 := by
      rw [units_eq_keyUnits]
      exact (keyUnits_mono hx.le).trans (by decide)
    have h := hnearest (32 * 2 ^ 23)
    rw [show keyUnits (32 * 2 ^ 23) = 2 ^ 54 by decide, abs_of_nonpos (a := 2 ^ 54 - value * 2 ^ 149) (by omega)] at h
    rw [abs_of_nonpos (a := units x * 2 ^ 31 - value * 2 ^ 149) (by omega)]
    omega

end Positive

/-- What SETP stores is in [0, 1]. -/
theorem inUnit_paramValue (m : DenormalMode) {value : Int} (hlo : -2147483648 ≤ value) (hhi : value < 2147483648) :
    InUnit (paramValue m value) := by
  rcases lt_trichotomy value 0 with h | rfl | h
  · rw [paramValue_of_neg m hlo h]
    decide
  · rw [paramValue_zero]
    decide
  · rw [paramValue_of_pos m h hhi]
    exact (q31ToF32_inUnit m h hhi).1

/-- Settles O11: a negative value is clipped, and a positive one is stored as its nearest float. -/
theorem setpStoresTheNearestUnitValue : Obligations.SetpStoresTheNearestUnitValue := by
  intro value s hf hlo hhi
  refine ⟨paramValue Config.impl.denormalMode value, exec_setp_of_not_faulted 0 value hf,
    exec_setp_of_not_faulted 1 value hf, inUnit_paramValue _ hlo hhi, fun hle => ?_, fun hpos => ?_⟩
  · rcases hle.lt_or_eq with hneg | rfl
    · exact paramValue_of_neg _ hlo hneg
    · exact paramValue_zero _
  · rw [paramValue_of_pos _ hpos hhi]
    exact ⟨(q31ToF32_inUnit _ hpos hhi).2, fun x _ => q31ToF32_nearest _ hpos hhi x⟩

end Sys2Proof.Machine
end

section
/-! The lookup's range, order and boundaries (41_saturation_lookup.md R125 to R127). -/

namespace Sys2Proof.Machine

/-- LOOKUP leaves the lookup's value in `L_q`. -/
theorem exec_lookup_value (s : State) :
    ∃ t, exec .lookup s = .next t ∧ t.lQ.toInt = lookupValue Config.impl s.uQ.toInt :=
  ⟨_, exec_lookup s, toInt_ofInt_lookupValue Config.impl_valid _⟩

/-- Settles O25, by the range of the lookup's value. -/
theorem lookupStaysWithinFullScale : Obligations.LookupStaysWithinFullScale := by
  intro s
  obtain ⟨t, hexec, hvalue⟩ := exec_lookup_value s
  exact ⟨t, hexec, hvalue ▸ lookupValue_range Config.impl_valid _⟩

/-- Between two points of the same interval, the interpolation keeps order. -/
theorem interpolation_mono {a b f f' : Int} (hab : a ≤ b) (hf : f ≤ f') :
    a + (b - a) * f / 256 ≤ a + (b - a) * f' / 256 := by
  have hprod : (b - a) * f ≤ (b - a) * f' := mul_le_mul_of_nonneg_left hf (by omega)
  omega

/-- The lookup keeps order (R126): within one interval the interpolation does, and between two of them lies an entry. -/
theorem lookupValue_mono {c : Config} (hc : c.Valid) {u u' : Int} (h : u ≤ u') : lookupValue c u ≤ lookupValue c u' := by
  rcases lt_or_ge u 0 with hneg | hnonneg
  · rw [lookupValue_of_neg hneg, tableRead_first hc]
    exact (lookupValue_range hc u').1
  rcases le_or_gt 262144 u' with hspan | hlt
  · rw [lookupValue_of_span_le hspan, tableRead_last hc]
    exact (lookupValue_range hc u).2
  rcases (Int.ediv_le_ediv (by decide) h : u / 256 ≤ u' / 256).eq_or_lt with hsame | hless
  · have hstep : tableRead c (u / 256).toNat ≤ tableRead c ((u / 256).toNat + 1) := hc.table_mono _ (by omega)
    rw [lookupValue_of_inside hnonneg (by omega), lookupValue_of_inside (by omega) hlt, ← hsame]
    exact interpolation_mono (by omega) (by omega)
  · have hentry : tableRead c ((u / 256).toNat + 1) ≤ tableRead c (u' / 256).toNat :=
      tableRead_mono hc (by omega) (by omega)
    have hbelow := (lookupValue_between hc hnonneg (by omega)).2
    have habove := (lookupValue_between hc (by omega) hlt).1
    omega

/-- Settles O26, by the order that the lookup's value keeps. -/
theorem lookupIsMonotone : Obligations.LookupIsMonotone := by
  intro s s' h
  obtain ⟨t, hexec, hvalue⟩ := exec_lookup_value s
  obtain ⟨t', hexec', hvalue'⟩ := exec_lookup_value s'
  refine ⟨t, t', hexec, hexec', ?_⟩
  rw [hvalue, hvalue']
  exact lookupValue_mono Config.impl_valid h

/-- At an entry boundary the lookup is the entry, the last one included. -/
theorem lookupValue_of_boundary (c : Config) {i : Nat} (hi : i < 1024) :
    lookupValue c (256 * i + 256) = 4 * tableRead c (i + 1) := by
  rcases Nat.lt_or_ge (i + 1) 1024 with hlt | hge
  · have hentry : ((256 * i + 256 : Int) / 256).toNat = i + 1 := by omega
    have hfraction : (256 * i + 256 : Int) % 256 = 0 := by omega
    rw [lookupValue_of_inside (by omega) (by omega), hentry, hfraction]
    simp
  · rw [lookupValue_of_span_le (by omega), show i + 1 = 1024 by omega]

/-- The last point before an entry boundary. -/
theorem lookupValue_before_boundary (c : Config) {i : Nat} (hi : i < 1024) :
    lookupValue c (256 * i + 255)
      = 4 * tableRead c i + (4 * tableRead c (i + 1) - 4 * tableRead c i) * 255 / 256 := by
  have hentry : ((256 * i + 255 : Int) / 256).toNat = i := by omega
  have hfraction : (256 * i + 255 : Int) % 256 = 255 := by omega
  rw [lookupValue_of_inside (by omega) (by omega), hentry, hfraction]

/-- Settles O27, by the lookup's values at the boundary and at the point before it. -/
theorem lookupHasNoSeam : Obligations.LookupHasNoSeam := by
  intro s s' i hi hu hu'
  obtain ⟨t, hexec, hvalue⟩ := exec_lookup_value s
  obtain ⟨t', hexec', hvalue'⟩ := exec_lookup_value s'
  rw [hu, lookupValue_before_boundary _ hi] at hvalue
  rw [hu', lookupValue_of_boundary _ hi] at hvalue'
  refine ⟨t, t', hexec, hexec', hvalue', ?_⟩
  rw [hvalue, hvalue']
  simp only [tableRead]
  omega

end Sys2Proof.Machine
end

section
/-! SHAPE_PRE on the LFO's range: the product is small enough for every shift the configuration allows (43_shaper.md
R157, R159). -/

namespace Sys2Proof.Machine

/-- A value of the LFO's range, recentred and scaled by a depth in [0, 1]. -/
theorem scaled_range {x d : Int} (hx : -17695 ≤ x ∧ x ≤ 47840) (hd : 0 ≤ d ∧ d ≤ 65536) :
    -17695 ≤ x * d / 65536 ∧ x * d / 65536 ≤ 47840 := by
  have hlo : -17695 * d ≤ x * d := mul_le_mul_of_nonneg_right hx.1 hd.1
  have hhi : x * d ≤ 47840 * d := mul_le_mul_of_nonneg_right hx.2 hd.1
  omega

/-- Shifted left by at most 15 it stays below 2^31 with room for the offset. -/
theorem shifted_left_range {m : Int} (hm : -17695 ≤ m ∧ m ≤ 47840) {k : Nat} (hk : k ≤ 15) :
    -579829760 ≤ m * 2 ^ k ∧ m * 2 ^ k ≤ 1567621120 := by
  have hpow : (2 : Int) ^ k ≤ 2 ^ 15 := pow_le_pow_right₀ (by decide) hk
  have hpos : (0 : Int) ≤ 2 ^ k := by positivity
  have hlo : -17695 * 2 ^ k ≤ m * 2 ^ k := mul_le_mul_of_nonneg_right hm.1 hpos
  have hhi : m * 2 ^ k ≤ 47840 * 2 ^ k := mul_le_mul_of_nonneg_right hm.2 hpos
  omega

/-- Shifted right it stays in its range. -/
theorem shifted_right_range {m : Int} (hm : -17695 ≤ m ∧ m ≤ 47840) (k : Nat) :
    -17695 ≤ m / 2 ^ k ∧ m / 2 ^ k ≤ 47840 := by
  have hpos : (1 : Int) ≤ 2 ^ k := one_le_pow₀ (by decide)
  exact ⟨(Int.le_ediv_iff_mul_le (by omega)).2 (by nlinarith), Int.ediv_le_of_le_mul (by omega) (by nlinarith)⟩

/-- Settles O23: neither saturation of `u_q` acts on the ranges of the shifted product. -/
theorem shapePreNeverSaturates : Obligations.ShapePreNeverSaturates := by
  intro s hdepth hsecondary
  obtain ⟨u, hexec, hd, hd', hu⟩ := shapePreFormsTheLookupIndex.2 s hdepth
  refine ⟨_, hexec, ?_⟩
  have hshift := Config.impl_valid.shift_range
  have hsec : s.lfoSecondary.toInt = s.lfoSecondary.toNat := BitVec.toInt_eq_toNat_of_lt (by omega)
  have hm := scaled_range (x := s.lfoSecondary.toInt - 1311 - 16384) (by omega) ⟨hd, hd'⟩
  have hleft := shifted_left_range hm (k := Config.impl.shShift.toNat) (by omega)
  have hright := shifted_right_range hm (-Config.impl.shShift).toNat
  dsimp only at hu ⊢
  rw [hu]
  split <;> omega

end Sys2Proof.Machine
end

section
/-! The phase after many samples: the increment does not change, so the phase advances by its multiples, and it is back
when the modulus divides one (42_lfo.md R139, R141). -/

namespace Sys2Proof.Machine

/-- After `j` LFO_STEPs the phase has advanced by `j` increments. -/
theorem repeatExec_lfoStep (j : Nat) (s : State) (hphase : s.lfoPhase.toNat < Config.impl.timerRes) :
    ∃ t, repeatExec .lfoStep j s = .next t ∧
      t.lfoPhase.toNat = (s.lfoPhase.toNat + j * s.lfoInc) % Config.impl.timerRes := by
  induction j generalizing s with
  | zero => exact ⟨s, rfl, by rw [Nat.zero_mul, Nat.add_zero, Nat.mod_eq_of_lt hphase]⟩
  | succ j ih =>
    obtain ⟨phase, hnext, hexec, -, -⟩ := lfoStepAdvancesThePhase.2 s
    have hlt : phase.toNat < Config.impl.timerRes := hnext ▸ nextPhase_lt_timerRes Config.impl_valid s
    obtain ⟨t, hrun, ht⟩ := ih { s with
      lfoPhase := phase
      lfoAux := _
      lfoPrimary := _
      lfoSecondary := _
      seq := _ } hlt
    refine ⟨t, by rw [repeatExec, hexec]; exact hrun, ht.trans ?_⟩
    change (phase.toNat + j * s.lfoInc) % _ = _
    rw [hnext, Nat.mod_add_mod]
    congr 1
    ring

/-- A phase is back after an advance exactly if the modulus divides the advance. -/
theorem add_mod_eq_self_iff {p x T : Nat} (hp : p < T) : (p + x) % T = p ↔ T ∣ x := by
  rw [← Nat.modEq_zero_iff_dvd]
  constructor
  · intro h
    exact Nat.ModEq.add_left_cancel' p (h.trans (Nat.mod_eq_of_lt hp).symm)
  · intro h
    rw [Nat.add_mod, Nat.mod_eq_zero_of_dvd (Nat.modEq_zero_iff_dvd.1 h), Nat.add_zero, Nat.mod_mod, Nat.mod_eq_of_lt hp]

/-- The modulus divides a multiple of the increment exactly if the period divides the factor. -/
theorem dvd_mul_iff_period_dvd {T inc : Nat} (hT : 0 < T) (j : Nat) : T ∣ j * inc ↔ T / Nat.gcd T inc ∣ j := by
  constructor
  · intro h
    have hzero : inc * j ≡ inc * 0 [MOD T] := Nat.modEq_zero_iff_dvd.2 (Nat.mul_comm j inc ▸ h)
    exact Nat.modEq_zero_iff_dvd.1 (hzero.cancel_left_div_gcd hT)
  · rintro ⟨q, rfl⟩
    have hcommon : T / Nat.gcd T inc * inc = T * (inc / Nat.gcd T inc) := by
      rw [Nat.div_mul_right_comm (Nat.gcd_dvd_left T inc), Nat.mul_div_assoc _ (Nat.gcd_dvd_right T inc)]
    rw [Nat.mul_right_comm, hcommon]
    exact ⟨inc / Nat.gcd T inc * q, Nat.mul_assoc _ _ _⟩

/-- Settles O21: the phase is back exactly after the multiples of the period. -/
theorem phaseHasThePeriodOfTheRule : Obligations.PhaseHasThePeriodOfTheRule := by
  intro s hphase
  have hT : 0 < Config.impl.timerRes := Nat.zero_lt_of_lt hphase
  have hback : ∀ j t, repeatExec .lfoStep j s = .next t → (t.lfoPhase = s.lfoPhase ↔
      Config.impl.timerRes / Nat.gcd Config.impl.timerRes s.lfoInc ∣ j) := by
    intro j t hrun
    obtain ⟨t', hrun', hadvance⟩ := repeatExec_lfoStep j s hphase
    obtain rfl := Host.Outcome.next.inj (hrun'.symm.trans hrun)
    rw [← BitVec.toNat_inj, hadvance, add_mod_eq_self_iff hphase, dvd_mul_iff_period_dvd hT]
  refine ⟨fun j => repeatExec_lfoStep j s hphase, ?_, fun j t hj hlt hrun hsame => ?_⟩
  · obtain ⟨t, hrun, -⟩ := repeatExec_lfoStep _ s hphase
    exact ⟨t, hrun, (hback _ t hrun).2 dvd_rfl⟩
  · exact absurd (Nat.le_of_dvd hj ((hback j t hrun).1 hsame)) (not_le.2 hlt)

end Sys2Proof.Machine
end

section
/-! The encodings written out in the spec's tables (95_test_vectors.md 2.7, 30_encoding.md R98). -/

namespace Sys2Proof.Decoding

/-- Settles O2: the eight words of the table, decoded. -/
theorem specCommandWordsDecode : Obligations.SpecCommandWordsDecode := by
  unfold Obligations.SpecCommandWordsDecode
  decide

/-- Settles O3: the sixteen codes of the table, decoded. -/
theorem sequencerCodesDecode : Obligations.SequencerCodesDecode := by
  unfold Obligations.SequencerCodesDecode
  decide

end Sys2Proof.Decoding
end

section
/-! Reset, LOAD and RESUME, and the order of the command port's checks (10_state.md R53, 47_host_commands.md R222 to
R231, 60_exceptions.md R252). -/

namespace Sys2Proof.Machine

/-- Settles O6: the table of R53 is the reset state field by field, and the increment of a `time` in [0, 1] is R137's
quotient. -/
theorem resetPutsEveryRegisterAtItsValue : Obligations.ResetPutsEveryRegisterAtItsValue := by
  have hinc : State.reset.lfoInc = Config.impl.timerRes / Config.impl.period 0x3E800000 :=
    lfoIncrementLessOne_of_unit 0x3E800000 (by decide)
  exact ⟨fun i => ⟨Vector.getElem_replicate i.isLt, Vector.getElem_replicate i.isLt⟩, rfl, rfl, rfl, hinc,
    (lfoInc_range State.reset).1, rfl, rfl, rfl, rfl, rfl, rfl, rfl, rfl, rfl, rfl, rfl, rfl, rfl, rfl, rfl, rfl⟩

section Idle
variable {s : State} (hf : s.faulted = false) (hb : s.busy = false)
include hf hb

theorem exec_load_of_idle : exec .load s = .next (loadRegisters Config.impl s) :=
  acceptCommand_acts _ true s _ hf hb

theorem exec_resume_of_idle : exec .resume s = .next (clearFilter s) :=
  acceptCommand_acts _ true s _ hf hb

end Idle

/-- Settles O8: the accepted command writes `loadRegisters`, the reset state but for STATUS and FAULT_INFO. -/
theorem loadIsResetWithoutTheStatus : Obligations.LoadIsResetWithoutTheStatus :=
  fun _ hf hb => exec_load_of_idle hf hb

/-- Settles O12: the accepted command writes `clearFilter`, the cells and the gain. -/
theorem resumeClearsTheFilter : Obligations.ResumeClearsTheFilter :=
  fun _ hf hb => exec_resume_of_idle hf hb

/-- Settles O13: what each of the two writes does not depend on what it overwrites, and leaves the block idle. -/
theorem clearingTwiceIsClearingOnce : Obligations.ClearingTwiceIsClearingOnce := fun s hf hb =>
  ⟨⟨clearFilter s, exec_resume_of_idle hf hb, exec_resume_of_idle (s := clearFilter s) hf hb⟩,
    ⟨loadRegisters Config.impl s, exec_load_of_idle hf hb, exec_load_of_idle (s := loadRegisters Config.impl s) hf hb⟩⟩

/-- The checks after the halt (R252): a command that needs an idle block, during a block, is a busy violation. -/
theorem acceptCommand_of_not_faulted (cw : Word) (needsIdle : Bool) {s : State} (act : State → State)
    (hf : s.faulted = false) : acceptCommand cw needsIdle s act =
      if needsIdle = true ∧ s.busy = true then .next (raiseFault .busyViolation cw s) else .next (act s) := by
  simp [acceptCommand, hf]

/-- Settles O18: after the halt and the decode, the operation that OP names makes its checks and acts, with its own
command word as the fault information. -/
theorem portChecksInTheOrderOfTheRule : Obligations.PortChecksInTheOrderOfTheRule := by
  intro s cw dw op nfr
  rcases Bool.eq_false_or_eq_true s.faulted with hf | hf
  · rw [if_pos hf, portTurn_of_faulted hf]
  rw [if_neg (by simp [hf])]
  cases hd : decode (.cmd cw dw) with
  | reject r => exact portTurn_of_reject hf ⟨r, hd⟩
  | instr i =>
    have hport : portTurn cw dw s = exec i s := by simp [portTurn, hd]
    obtain ⟨-, -, hcw, -⟩ := Decoding.carries_of_decode_cmd hd
    rw [hport]
    rcases Decoding.op_cases op with hop | hop | hop | hop | hop
    · rw [Decoding.decode_of_op_reserved dw hop] at hd
      exact absurd hd (by simp)
    · rw [Decoding.decode_of_op_load dw hop, Decoding.unlessReserved_eq_instr_iff] at hd
      obtain ⟨-, -, rfl⟩ := hd
      rw [exec_load, execLoad, loadWith, hcw, acceptCommand_of_not_faulted _ _ _ hf]
      simp [hop]
    · rw [Decoding.decode_of_op_proc dw hop, Decoding.unlessReserved_eq_instr_iff] at hd
      obtain ⟨-, -, rfl⟩ := hd
      rw [exec_proc_eq_acceptCommand, hcw, acceptCommand_of_not_faulted _ _ _ hf, apply_ite Host.Outcome.next]
      simp [hop, nfr]
    · rw [Decoding.decode_of_op_setp dw hop, Decoding.unlessReserved_eq_instr_iff] at hd
      obtain ⟨-, -, rfl⟩ := hd
      rw [exec_setp_of_not_faulted _ _ hf]
      simp [hop]
    · rw [Decoding.decode_of_op_resume dw hop, Decoding.unlessReserved_eq_instr_iff] at hd
      obtain ⟨-, -, rfl⟩ := hd
      rw [exec_resume, execResume, hcw, acceptCommand_of_not_faulted _ _ _ hf]
      simp [hop]

end Sys2Proof.Machine
end

section
/-! The step: which turn it is, and what the sequencer's turn does (00_scope.md R28, 30_encoding.md R98 to R100,
46_pipeline.md R207, R210). -/

namespace Sys2Proof.Machine

theorem step_of_no_action {s : State} (hhost : s.host = []) : step s = sequencerTurn s := by
  rw [step, turn, hhost]

theorem actionTurn_sequencer (rest : List HostAction) (s : State) :
    actionTurn .sequencer rest s = sequencerTurn { s with host := rest } := rfl

theorem actionTurn_command (cw dw : Word) (rest : List HostAction) (s : State) :
    actionTurn (.command cw dw) rest s = portTurn cw dw { s with host := rest } := rfl

/-- A host that waits leaves the turn to the sequencer while the block is busy. -/
theorem actionTurn_wait_of_busy (rest : List HostAction) {s : State} (hb : s.busy = true) :
    actionTurn .wait rest s = sequencerTurn s := if_pos hb

/-- The micro-operation of `seq` runs (R207). -/
theorem sequencerTurn_of_instr {s : State} {i : Instr} (hf : s.faulted = false) (hd : decode (.seq s.seq) = .instr i) :
    sequencerTurn s = exec i s := by
  simp [sequencerTurn, hf, hd]

/-- In IDLE there is none (R100). -/
theorem sequencerTurn_of_idle {s : State} (hf : s.faulted = false) (hseq : s.seq = idleCode) :
    sequencerTurn s = .next s := by
  have hd : decode (.seq s.seq) = .reject .idle := by rw [hseq]; rfl
  simp [sequencerTurn, hf, hd]

/-- A reserved code decodes to nothing (R99). -/
theorem decode_seq_of_reserved {code : BitVec 4} (h : 0xD ≤ code.toNat) :
    decode (.seq code) = .reject .reservedSeq := by
  have hcode : code = 0xD ∨ code = 0xE ∨ code = 0xF := by bv_omega
  rcases hcode with rfl | rfl | rfl <;> rfl

/-- A reserved code is stuck (R99, I14). -/
theorem sequencerTurn_of_reserved {s : State} (hf : s.faulted = false) (h : 0xD ≤ s.seq.toNat) :
    sequencerTurn s = .fault .reservedSeqCode := by
  simp [sequencerTurn, hf, decode_seq_of_reserved h]

/-- Settles O15: in each of the three turns the halted block answers the state it had. -/
theorem haltedBlockIgnoresCommands : Obligations.HaltedBlockIgnoresCommands := by
  intro s hf
  refine ⟨fun i hi => exec_command_of_faulted hf hi, fun cw dw rest hhost => ?command,
    fun rest hhost => ?sequencer, fun hhost => ?none⟩
  case command =>
    rw [step_eq_actionTurn hhost, actionTurn_command, portTurn_of_faulted (s := { s with host := rest }) hf]
  case sequencer =>
    rw [step_eq_actionTurn hhost, actionTurn_sequencer, sequencerTurn_of_faulted (s := { s with host := rest }) hf]
  case none => rw [step_of_no_action hhost, sequencerTurn_of_faulted hf]

/-- Settles O42: each of the four turns runs what it decodes. -/
theorem stepRunsTheDecodedInstruction : Obligations.StepRunsTheDecodedInstruction := by
  refine fun s i => ⟨fun hf hd => ⟨fun hhost => ?none, fun rest hhost => ?sequencer, fun rest hhost hb => ?wait⟩,
    fun cw dw rest hhost hd => ?command⟩
  case none => rw [step_of_no_action hhost, sequencerTurn_of_instr hf hd]
  case sequencer =>
    rw [step_eq_actionTurn hhost, actionTurn_sequencer, sequencerTurn_of_instr (s := { s with host := rest }) hf hd]
  case wait => rw [step_eq_actionTurn hhost, actionTurn_wait_of_busy _ hb, sequencerTurn_of_instr hf hd]
  case command => simp [step_eq_actionTurn hhost, actionTurn_command, portTurn, hd]

/-- Settles O43: IDLE is a turn that changes nothing, a reserved code one that stops. -/
theorem idleSequencerDoesNothing : Obligations.IdleSequencerDoesNothing := by
  refine fun s hf => ⟨fun hseq => ⟨fun hhost => ?none, fun rest hhost => ?sequencer⟩, fun hseq hhost => ?reserved⟩
  case none => rw [step_of_no_action hhost, sequencerTurn_of_idle hf hseq]
  case sequencer =>
    rw [step_eq_actionTurn hhost, actionTurn_sequencer, sequencerTurn_of_idle (s := { s with host := rest }) hf hseq]
  case reserved => rw [step_of_no_action hhost, sequencerTurn_of_reserved hf hseq]

/-- Settles O19: BLK_SETUP's two outcomes, with the increment as State holds it. -/
theorem blkSetupComputesTheIncrement : Obligations.BlkSetupComputesTheIncrement := by
  refine ⟨rfl, fun s => ⟨lfoIncrementLessOne Config.impl s.time, ?_, lfoIncrementLessOne_of_unit s.time⟩⟩
  rw [apply_ite Host.Outcome.next]
  rfl

/-- Settles O32: outside their ranges the tests of the three micro-operations fail. -/
theorem accessesToNothingStop : Obligations.AccessesToNothingStop := by
  intro s
  refine ⟨fun hk => dif_neg hk, fun hn => ⟨if_neg ?_, if_neg ?_⟩⟩ <;> simp only [WordExists] <;> omega

end Sys2Proof.Machine
end

section
/-! What the host sees: the status word, the register window, and the words of the buffer memory (10_state.md R48, R50,
20_memory.md R64, R65, R72, R73). -/

namespace Sys2Proof.Machine

/-- The four fields of the status word, in its number. -/
theorem toNat_statusWord (s : State) :
    (statusWord s).toNat = s.busy.toNat + 2 * s.faulted.toNat + 16 * s.fcode.toNat + 256 * s.seq.toNat := by
  have hfcode := s.fcode.isLt
  have hseq := s.seq.isLt
  rw [statusWord, BitVec.toNat_ofNat]
  cases s.busy <;> cases s.faulted <;> simp only [Bool.toNat_true, Bool.toNat_false, if_true, if_false,
    Bool.false_eq_true] <;> omega

/-- Settles O50: each field read off the number of the status word. -/
theorem statusWordHasItsFields : Obligations.StatusWordHasItsFields := by
  intro s
  have hword := toNat_statusWord s
  have hbusy := s.busy.toNat_lt
  have hfaulted := s.faulted.toNat_lt
  have hfcode := s.fcode.isLt
  have hseq := s.seq.isLt
  have slice : ∀ (lo w : Nat) (x : BitVec w), (statusWord s).toNat / 2 ^ lo % 2 ^ w = x.toNat →
      (statusWord s).extractLsb' lo w = x := fun lo w x h =>
    BitVec.eq_of_toNat_eq ((Decoding.toNat_extractLsb'_eq_div_mod _ lo w).trans h)
  have bit : ∀ (i : Nat) (b : Bool), (statusWord s).toNat / 2 ^ i % 2 = b.toNat →
      (statusWord s).getLsbD i = b := fun i b h => by
    rw [BitVec.getLsbD, Nat.testBit_eq_decide_div_mod_eq, h]
    cases b <;> rfl
  exact ⟨bit 0 _ (by omega), bit 1 _ (by omega), slice 2 2 0 (show _ = 0 by omega), slice 4 4 _ (by omega),
    slice 8 4 _ (by omega), slice 12 20 0 (show _ = 0 by omega)⟩

/-! ## The register window -/

/-- The cells of `z1` are at 0x40, the cells of `out` at 0x80 (R50). -/
theorem readWindow_cells (s : State) (i : Fin 9) :
    readWindow s (0x40 + 4 * i.val) = some s.z1[i] ∧ readWindow s (0x80 + 4 * i.val) = some s.out[i] := by
  have hi := i.isLt
  have hindex : (0x40 + 4 * i.val - 0x40) / 4 = i.val ∧ (0x80 + 4 * i.val - 0x80) / 4 = i.val := by omega
  have hcell : ∀ cells : Vector F32 9, cells.toList.getD i.val 0 = cells[i] := fun cells => by
    rw [List.getD_eq_getElem _ _ (by simp), Vector.getElem_toList]
    rfl
  constructor
  · rw [readWindow, readWindowWith, if_neg (by omega), if_pos (by omega), hindex.1, hcell]
  · rw [readWindow, readWindowWith, if_neg (by omega), if_neg (by omega), if_pos (by omega), hindex.2, hcell]

/-- An offset above 0x2C is none of a register of its own. -/
theorem windowRegister_of_large (c : Config) (s : State) {offset : Nat} (h : 0x2C < offset) :
    windowRegister c s offset = 0 := by
  unfold windowRegister
  split
  all_goals first | omega | rfl

/-- The reserved offsets read 0 (R50). -/
theorem readWindow_reserved (s : State) {offset : Nat} (halign : offset % 4 = 0) (hlast : offset ≤ 0xFC)
    (h : (0x2C < offset ∧ offset < 0x40) ∨ (0x60 < offset ∧ offset < 0x80) ∨ 0xA0 < offset) :
    readWindow s offset = some 0 := by
  rw [readWindow, readWindowWith, if_neg (by omega), if_neg (by omega), if_neg (by omega),
    windowRegister_of_large _ _ (by omega)]

/-- The 4 bits of `k` as a word: itself, and 0 above. -/
theorem slices_of_zeroExtend (k : BitVec 4) :
    (k.zeroExtend 32).extractLsb' 0 4 = k ∧ (k.zeroExtend 32).extractLsb' 4 28 = 0 := by
  have hk := k.isLt
  have hword : (k.zeroExtend 32).toNat = k.toNat := BitVec.toNat_setWidth_of_le (by decide)
  constructor <;> refine BitVec.eq_of_toNat_eq ?_ <;> rw [Decoding.toNat_extractLsb'_eq_div_mod, hword]
  · omega
  · show _ = 0
    omega

/-- Settles O51: the registers by their own offsets, and the ranges of offsets beside them. -/
theorem registerWindowShowsTheRegisters : Obligations.RegisterWindowShowsTheRegisters := by
  intro s
  have hinc := incrementWord_spec s
  exact ⟨rfl, rfl, rfl, rfl, rfl, ⟨_, rfl, hinc⟩, rfl, rfl, rfl, rfl,
    ⟨_, rfl, BitVec.extractLsb'_append_eq_right, BitVec.extractLsb'_append_eq_left⟩,
    ⟨_, rfl, slices_of_zeroExtend s.k⟩, readWindow_cells s, fun _ => readWindow_reserved s, fun _ h => if_pos h,
    fun _ _ _ => step_eq_actionTurn⟩

/-! ## The buffer memory -/

/-- Every word of a region lies within the byte view (R64). -/
theorem wordAddr_in_view (c : Config) (r : Region) {k : Nat} (hk : WordExists c k) :
    wordAddr c r k + 4 ≤ 32 * c.maxFrames := by
  unfold WordExists at hk
  cases r <;> simp only [wordAddr, regionBase] <;> omega

/-- Settles O52, by the order of the regions. -/
theorem bufferWordsLieApart : Obligations.BufferWordsLieApart := fun r r' k k' hk hk' =>
  ⟨by cases r <;> rfl, wordAddr_in_view _ r hk, wordAddr_apart _ r r' k k' hk hk'⟩

section HostWrite
variable {s : State} {r : Region} {k : Nat} {v : Word}

/-- What the host reads of a buffer word is the memory's word. -/
theorem hostRead_of_wordExists (hk : WordExists Config.impl k) :
    hostRead s r k = some (Memory.readWord Config.impl s.mem (wordAddr Config.impl r k)) := if_pos hk

theorem hostRead_of_not_wordExists (hk : ¬WordExists Config.impl k) : hostRead s r k = none := if_neg hk

/-- A stored word changes what the host reads of that word alone. -/
theorem hostRead_of_mem_eq_storeWord {t : State} {r' : Region} {k' : Nat}
    (hmem : t.mem = storeWord Config.impl s.mem r k v) (hwf : Memory.wf s.mem = true) (hk : WordExists Config.impl k) :
    hostRead t r' k' = if r' = r ∧ k' = k then some v else hostRead s r' k' := by
  by_cases hk' : WordExists Config.impl k'
  · rw [hostRead_of_wordExists hk', hostRead_of_wordExists hk', hmem, readWord_storeWord _ _ _ _ _ _ _ hwf hk hk',
      apply_ite some]
  · rw [hostRead_of_not_wordExists hk', hostRead_of_not_wordExists hk', if_neg]
    rintro ⟨-, rfl⟩
    exact hk' hk

/-- The bytes of a stored word, least significant first (R65). -/
theorem hostReadByte_of_mem_eq_storeWord {t : State} {j : Nat} (hmem : t.mem = storeWord Config.impl s.mem r k v)
    (hwf : Memory.wf s.mem = true) (hk : WordExists Config.impl k) (hj : j < 4) :
    hostReadByte t (wordAddr Config.impl r k + j) = some (v.extractLsb' (8 * j) 8) := by
  have hview := wordAddr_in_view _ r hk
  rw [hostReadByte, if_pos (by omega), hmem, Memory.read, storeWord, Memory.read_writeWord _ _ _ _ _ hwf,
    if_pos (by omega), Nat.add_sub_cancel_left]

end HostWrite

/-- Settles O53: the step stores the word, and a word that does not exist stops it. -/
theorem hostWriteTakesEffectAtItsStep : Obligations.HostWriteTakesEffectAtItsStep := by
  intro s r k v rest hhost hwf
  have hstep : step s = bufferWriteTurn r k v { s with host := rest } := step_eq_actionTurn hhost
  rw [hstep]
  refine ⟨fun hk => ⟨_, if_pos hk, rfl, ?written, fun j hj => ?bytes, fun r' k' hne => ?others⟩, fun hk => ?none⟩
  case written => rw [hostRead_of_mem_eq_storeWord rfl hwf hk, if_pos ⟨rfl, rfl⟩]
  case bytes => exact hostReadByte_of_mem_eq_storeWord rfl hwf hk hj
  case others =>
    rw [hostRead_of_mem_eq_storeWord rfl hwf hk, if_neg hne]
  case none => exact if_neg (Nat.not_lt.2 hk)

end Sys2Proof.Machine
end

section
/-! What an instruction that answers a next state has done: the commands together, and the writer table (10_state.md
R51, 47_host_commands.md, 60_exceptions.md R252). -/

namespace Sys2Proof.Machine

/-- What an accepted command writes (R222 to R225). -/
def commandEffect : Instr → State → State
  | .load => loadRegisters Config.impl
  | .proc nfr => startBlock nfr
  | .setp idx value => setParam Config.impl idx value
  | .resume => clearFilter
  | _ => id

/-- A command is performed when the block is not halted, is idle unless the command is SETP, and has room for the
frames of a PROC (R252). -/
structure Accepted (i : Instr) (s : State) : Prop where
  not_faulted : s.faulted = false
  idle : (∀ idx value, i ≠ .setp idx value) → s.busy = false
  fits : ∀ nfr, i = .proc nfr → nfr ≤ Config.impl.maxFrames

/-- A command is ignored, raises a fault, or is performed. -/
theorem exec_command_eq_next {i : Instr} {s t : State} (hi : isCommand i = true) (h : exec i s = .next t) :
    t = s ∨ (s.faulted = false ∧ ∃ f info, t = raiseFault f info s) ∨ (Accepted i s ∧ t = commandEffect i s) := by
  rcases Bool.eq_false_or_eq_true s.faulted with hf | hf
  · exact .inl (Host.Outcome.next.inj ((exec_command_of_faulted hf hi).symm.trans h)).symm
  rcases Bool.eq_false_or_eq_true s.busy with hb | hb
  · cases i with
    | setp idx value =>
      obtain rfl := Host.Outcome.next.inj ((exec_setp_of_not_faulted idx value hf).symm.trans h)
      exact .inr (.inr ⟨⟨hf, fun hne => absurd rfl (hne idx value), nofun⟩, rfl⟩)
    | proc nfr =>
      rw [exec_proc_eq_acceptCommand, acceptCommand_busy _ s _ hf hb] at h
      exact .inr (.inl ⟨hf, _, _, (Host.Outcome.next.inj h).symm⟩)
    | load | resume =>
      exact .inr (.inl ⟨hf, _, _, (Host.Outcome.next.inj ((acceptCommand_busy _ s _ hf hb).symm.trans h)).symm⟩)
    | _ => exact absurd hi Bool.false_ne_true
  · cases i with
    | proc nfr =>
      obtain ⟨hfits, hlarge⟩ := procStartsABlockThatFits nfr s hf hb
      rcases Nat.lt_or_ge Config.impl.maxFrames nfr with hlt | hle
      · obtain rfl := Host.Outcome.next.inj ((hlarge hlt).symm.trans h)
        exact .inr (.inl ⟨hf, .framesTooLarge, _, rfl⟩)
      · obtain rfl := Host.Outcome.next.inj ((hfits hle).symm.trans h)
        refine .inr (.inr ⟨⟨hf, fun _ => hb, ?_⟩, rfl⟩)
        rintro _ ⟨⟩
        exact hle
    | load | setp idx value | resume =>
      obtain rfl := Host.Outcome.next.inj ((acceptCommand_acts _ _ s _ hf (by rw [hb, Bool.and_false])).symm.trans h)
      exact .inr (.inr ⟨⟨hf, fun _ => hb, nofun⟩, rfl⟩)
    | _ => exact absurd hi Bool.false_ne_true

/-- SETP writes one of the two parameters or nothing. -/
theorem setParam_cases (c : Config) (idx : Nat) (value : Int) (s : State) :
    setParam c idx value s = { s with time := paramValue c.denormalMode value } ∨
    setParam c idx value s = { s with depth := paramValue c.denormalMode value } ∨ setParam c idx value s = s := by
  unfold setParam
  split_ifs
  · exact .inl rfl
  · exact .inr (.inl rfl)
  · exact .inr (.inr rfl)

/-- BLK_SETUP goes on to the first frame or ends the block. -/
theorem exec_blkSetup_eq_next {s t : State} (h : exec .blkSetup s = .next t) :
    (0 < s.nfr.toNat ∧ t = { s with
      lfoIncLessOne := lfoIncrementLessOne Config.impl s.time
      seq := seqCode .inRead }) ∨
    (s.nfr.toNat = 0 ∧ t = endBlock { s with lfoIncLessOne := lfoIncrementLessOne Config.impl s.time }) := by
  rw [exec_blkSetup, execBlkSetup, blkSetupWith] at h
  split at h
  · exact .inl ⟨‹_›, (Host.Outcome.next.inj h).symm⟩
  · exact .inr ⟨by omega, (Host.Outcome.next.inj h).symm⟩

/-- NEXT goes on to the next frame or ends the block. -/
theorem exec_next_eq_next {s t : State} (h : exec .next s = .next t) :
    (s.n.toNat + 1 < s.nfr.toNat ∧ t = { s with
      n := s.n + 1
      seq := seqCode .inRead }) ∨
    (¬s.n.toNat + 1 < s.nfr.toNat ∧ t = endBlock { s with n := s.n + 1 }) := by
  rw [exec_next, execNext] at h
  split at h
  · exact .inl ⟨‹_›, (Host.Outcome.next.inj h).symm⟩
  · exact .inr ⟨‹_›, (Host.Outcome.next.inj h).symm⟩

/-- STAGE that answers a next state found its cells and changed them. -/
theorem exec_stage_eq_next {s t : State} (h : exec .stage s = .next t) :
    ∃ hk : 1 ≤ s.k.toNat ∧ s.k.toNat ≤ 8, t = { s with
      out := s.out.set s.k.toNat
        (stageOut Config.impl.denormalMode s.b0 s.out[s.k.toNat - 1] s.z1[s.k.toNat])
      z1 := s.z1.set s.k.toNat
        (stageState Config.impl.denormalMode s.b0 s.out[s.k.toNat - 1] s.z1[s.k.toNat])
      k := if 1 < s.k.toNat then s.k - 1 else s.k
      seq := if 1 < s.k.toNat then seqCode .stage else seqCode .limit } := by
  have hk := (stageWith_next_iff Config.impl s).1 ⟨t, h⟩
  rw [exec_stage, execStage, stageWith, dif_pos hk] at h
  exact ⟨hk, (Host.Outcome.next.inj h).symm⟩

/-- IN_READ that answers a next state took its sample or raised the fault. -/
theorem exec_inRead_eq_next {s t : State} (h : exec .inRead s = .next t) :
    (Binary32.isFinite (bufferWord Config.impl s .mainIn (2 * s.n.toNat)) = true ∧ t = { s with
      xIn := bufferWord Config.impl s .mainIn (2 * s.n.toNat)
      seq := seqCode .lfoStep }) ∨
    (Binary32.isFinite (bufferWord Config.impl s .mainIn (2 * s.n.toNat)) = false ∧
      t = raiseFault .nonfiniteInput (s.n.zeroExtend 32) s) := by
  rcases inReadWith_cases Config.impl s with ⟨-, hfin, e⟩ | ⟨-, hfin, e⟩ | ⟨-, e⟩
  · exact .inl ⟨hfin, (Host.Outcome.next.inj (e.symm.trans h)).symm⟩
  · exact .inr ⟨hfin, (Host.Outcome.next.inj (e.symm.trans h)).symm⟩
  · cases e.symm.trans h

/-- OUT_WRITE that answers a next state stored its frame. -/
theorem exec_outWrite_eq_next {s t : State} (h : exec .outWrite s = .next t) :
    ∃ m, m = storeFrame Config.impl s.mem s.n.toNat s.y ∧ t = { s with
      mem := m
      seq := seqCode .gainStep } := by
  rcases outWriteWith_cases Config.impl s with ⟨-, e⟩ | ⟨-, e⟩
  · exact ⟨_, rfl, (Host.Outcome.next.inj (e.symm.trans h)).symm⟩
  · cases e.symm.trans h

/-- Hardware reset that has answered a next state. -/
theorem step_hardReset_eq_next {s t : State} {rest : List HostAction} (hhost : s.host = .hardReset :: rest)
    (h : step s = .next t) : t = hardResetWith Config.impl { s with host := rest } :=
  (Host.Outcome.next.inj ((step_eq_actionTurn hhost).symm.trans h)).symm

/-- Writing one cell leaves the others. -/
theorem getElem_set_of_ne (cells : Vector F32 9) {i : Nat} (hi : i < 9) (v : F32) {j : Fin 9} (h : j.val ≠ i) :
    (cells.set i v hi)[j] = cells[j] := Vector.getElem_set_ne hi j.isLt h.symm

/-- Settles O40: the commands by their three outcomes, and each micro-operation by what it answers. -/
theorem nothingWritesOutsideTheWriterTable : Obligations.NothingWritesOutsideTheWriterTable := by
  refine ⟨fun i s t h => ?_, fun s t rest hhost h => ?_⟩
  · cases i with
    | load | proc nfr | resume =>
      rcases exec_command_eq_next rfl h with rfl | ⟨-, f, info, rfl⟩ | ⟨-, rfl⟩
      · exact .inl rfl
      · exact .inr (.inl rfl)
      · exact .inr (.inr rfl)
    | setp idx value =>
      rcases exec_command_eq_next rfl h with rfl | ⟨-, f, info, rfl⟩ | ⟨-, rfl⟩
      · exact .inl rfl
      · exact .inr (.inl rfl)
      · rcases setParam_cases Config.impl idx value s with e | e | e <;> rw [commandEffect, e]
        · exact .inr (.inr (.inl rfl))
        · exact .inr (.inr (.inr rfl))
        · exact .inl rfl
    | lfoStep | shapePre | lookup | coef | limit | gainStep =>
      obtain rfl := Host.Outcome.next.inj h
      exact .inr (.inr rfl)
    | blkSetup =>
      rcases exec_blkSetup_eq_next h with ⟨-, rfl⟩ | ⟨hnfr, rfl⟩
      · exact .inr (.inr ⟨rfl, fun _ => rfl⟩)
      · exact .inr (.inr ⟨rfl, fun hpos => absurd hnfr hpos.ne'⟩)
    | inRead =>
      rcases exec_inRead_eq_next h with ⟨-, rfl⟩ | ⟨-, rfl⟩
      · exact .inr (.inr rfl)
      · exact .inr (.inl rfl)
    | mix =>
      obtain rfl := Host.Outcome.next.inj h
      exact .inr (.inr ⟨rfl, fun j hj => getElem_set_of_ne s.out (by decide) _ (Fin.val_ne_of_ne hj)⟩)
    | stage =>
      obtain ⟨hk, rfl⟩ := exec_stage_eq_next h
      have hlt : s.k.toNat < 9 := by omega
      exact .inr (.inr ⟨rfl, fun j hj => ⟨getElem_set_of_ne s.z1 hlt _ hj, getElem_set_of_ne s.out hlt _ hj⟩⟩)
    | outWrite =>
      obtain ⟨m, hm, rfl⟩ := exec_outWrite_eq_next h
      refine .inr (.inr ⟨rfl, fun a ha => ?_⟩)
      show Memory.read m a = Memory.read s.mem a
      rw [hm]
      exact read_storeFrame_outside Config.impl s.mem s.n.toNat s.y a ha
    | next =>
      rcases exec_next_eq_next h with ⟨-, rfl⟩ | ⟨-, rfl⟩ <;> exact .inr (.inr rfl)
  · obtain rfl := step_hardReset_eq_next hhost h
    exact ⟨rfl, rfl⟩

end Sys2Proof.Machine
end

section
/-! Which instruction reads which parameter: two runs that differ in a register the instruction does not read differ
in nothing else (46_pipeline.md R209, 10_state.md R36 to R38, R43). -/

namespace Sys2Proof.Machine

/-- The registers whose readers the rules list. -/
inductive Param where
  | time
  | depth
  | gain
  | primary

namespace Param

def get : Param → State → F32
  | time => State.time
  | depth => State.depth
  | gain => State.gain
  | primary => State.lfoPrimary

def set (v : F32) : Param → State → State
  | time => fun s => { s with time := v }
  | depth => fun s => { s with depth := v }
  | gain => fun s => { s with gain := v }
  | primary => fun s => { s with lfoPrimary := v }

/-- The readers of each (R209, R43). -/
def ReadBy : Param → Instr → Prop
  | time, i => i = .blkSetup
  | depth, i => i = .shapePre ∨ i = .mix
  | gain, i => i = .mix ∨ i = .gainStep
  | primary, _ => False

/-- Two outcomes are the same but for the parameter. -/
abbrev Same (p : Param) : Result → Result → Prop := SameBut fun t' t => p.set (p.get t) t'

section Set
variable (p : Param) (v : F32) (s : State)

theorem n_set : (p.set v s).n = s.n := by cases p <;> rfl

theorem y_set : (p.set v s).y = s.y := by cases p <;> rfl

theorem mem_set : (p.set v s).mem = s.mem := by cases p <;> rfl

end Set

end Param

section SameBut
variable {put : State → State → State}

theorem sameBut_ite {c : Prop} [Decidable c] {a b a' b' : Result} (h : SameBut put a a') (h' : SameBut put b b') :
    SameBut put (if c then a else b) (if c then a' else b') := by
  split
  · exact h
  · exact h'

theorem sameBut_dite {c : Prop} [Decidable c] {a a' : c → Result} {b b' : Result} (h : ∀ hc, SameBut put (a hc) (a' hc))
    (h' : SameBut put b b') : SameBut put (if hc : c then a hc else b) (if hc : c then a' hc else b') := by
  split
  · exact h _
  · exact h'

/-- A command's outcomes are the same if each of its three is. -/
theorem sameBut_acceptCommand {cw : Word} {needsIdle : Bool} {act : State → State} {s s' : State}
    (hf : s'.faulted = s.faulted) (hb : s'.busy = s.busy) (ignored : put s' s = s)
    (raised : put (raiseFault .busyViolation cw s') (raiseFault .busyViolation cw s) = raiseFault .busyViolation cw s)
    (acted : put (act s') (act s) = act s) :
    SameBut put (acceptCommand cw needsIdle s act) (acceptCommand cw needsIdle s' act) := by
  unfold acceptCommand
  rw [hf, hb]
  exact sameBut_ite ignored (sameBut_ite raised acted)

end SameBut

/-- An instruction that does not read a parameter does the same whatever the parameter holds. -/
theorem same_of_not_readBy (p : Param) (i : Instr) (s : State) (v : F32) (h : ¬p.ReadBy i) :
    p.Same (exec i s) (exec i (p.set v s)) := by
  cases i with
  | load | resume => cases p <;> exact sameBut_acceptCommand rfl rfl rfl rfl rfl
  | proc nfr =>
    rw [exec_proc_eq_acceptCommand, exec_proc_eq_acceptCommand]
    cases p <;> refine sameBut_acceptCommand rfl rfl rfl rfl ?_ <;> split <;> rfl
  | setp idx value =>
    rw [exec_setp, exec_setp, execSetp, execSetp, setpWith, setpWith]
    cases p <;> refine sameBut_acceptCommand rfl rfl rfl rfl ?_ <;> unfold setParam <;> split_ifs <;> rfl
  | lfoStep | lookup | coef | limit => cases p <;> rfl
  | shapePre =>
    cases p with
    | depth => exact absurd (.inl rfl) h
    | _ => rfl
  | mix =>
    cases p with
    | depth => exact absurd (.inr rfl) h
    | gain => exact absurd (.inl rfl) h
    | _ => rfl
  | gainStep =>
    cases p with
    | gain => exact absurd (.inr rfl) h
    | _ => rfl
  | blkSetup =>
    cases p with
    | time => exact absurd rfl h
    | _ => exact sameBut_ite rfl rfl
  | inRead =>
    rw [exec_inRead, exec_inRead, execInRead, execInRead, inReadWith, inReadWith, bufferWord, bufferWord, p.n_set,
      p.mem_set]
    generalize Memory.readWord Config.impl s.mem (wordAddr Config.impl .mainIn (2 * s.n.toNat)) = w
    refine sameBut_ite ?_ rfl
    unfold takeSample
    cases p <;> split <;> rfl
  | outWrite =>
    rw [exec_outWrite, exec_outWrite, execOutWrite, execOutWrite, outWriteWith, outWriteWith, p.n_set, p.mem_set,
      p.y_set]
    generalize storeFrame Config.impl s.mem s.n.toNat s.y = m
    cases p <;> exact sameBut_ite rfl rfl
  | next => cases p <;> exact sameBut_ite rfl rfl
  | stage => cases p <;> exact sameBut_dite (fun _ => rfl) rfl

/-- Settles O41, from the table of readers. -/
theorem parametersAreReadWhereTheRulesSay : Obligations.ParametersAreReadWhereTheRulesSay := fun i s v =>
  ⟨fun htime => same_of_not_readBy .time i s v htime,
    fun hshape hmix => same_of_not_readBy .depth i s v (not_or.2 ⟨hshape, hmix⟩),
    fun hmix hgain => same_of_not_readBy .gain i s v (not_or.2 ⟨hmix, hgain⟩),
    same_of_not_readBy .primary i s v id⟩

end Sys2Proof.Machine
end

section
/-! What a step that answers a next state has done, said once: at most one action is taken off the host's list, and one
agent has acted (00_scope.md R28). -/

namespace Sys2Proof.Machine

/-- What one agent can do to a state. -/
inductive Turned (u : State) : State → Prop where
  | nothing : Turned u u
  | microOperation {i : Instr} {t : State} (hf : u.faulted = false) (hd : decode (.seq u.seq) = .instr i)
      (hexec : exec i u = .next t) : Turned u t
  | command {cw dw : Word} {i : Instr} {t : State} (hd : decode (.cmd cw dw) = .instr i)
      (hexec : exec i u = .next t) : Turned u t
  | illegal (cw : Word) : Turned u (raiseFault .illegalCmd cw u)
  | bufferWrite (r : Region) (k : Nat) (v : Word) :
      Turned u { u with mem := storeWord Config.impl u.mem r k v }
  | hardReset : Turned u (hardResetWith Config.impl u)

theorem turned_of_sequencerTurn {s t : State} (h : sequencerTurn s = .next t) : Turned s t := by
  rcases sequencerTurn_cases s with ⟨-, e⟩ | ⟨hf, i, hd, e⟩ | ⟨-, -, e⟩
  · obtain rfl := Host.Outcome.next.inj (e.symm.trans h)
    exact .nothing
  · exact .microOperation hf hd (e.symm.trans h)
  · cases e.symm.trans h

theorem turned_of_portTurn {cw dw : Word} {s t : State} (h : portTurn cw dw s = .next t) : Turned s t := by
  rcases portTurn_cases cw dw s with ⟨i, hd, e⟩ | ⟨-, -, -, e⟩ | ⟨-, -, -, e⟩
  · exact .command hd (e.symm.trans h)
  · obtain rfl := Host.Outcome.next.inj (e.symm.trans h)
    exact .nothing
  · obtain rfl := Host.Outcome.next.inj (e.symm.trans h)
    exact .illegal cw

/-- The list is as it was or without its first action, and one agent has acted on the state with that list. -/
theorem turned_of_step {s t : State} (h : step s = .next t) :
    ∃ rest, (s.host = rest ∨ ∃ a, s.host = a :: rest) ∧ Turned { s with host := rest } t := by
  rcases step_cases s with ⟨-, e⟩ | ⟨a, rest, hhost, e⟩
  · exact ⟨s.host, .inl rfl, turned_of_sequencerTurn (e.symm.trans h)⟩
  replace h := e.symm.trans h
  have hlist : s.host = rest ∨ ∃ a, s.host = a :: rest := .inr ⟨a, hhost⟩
  cases a with
  | sequencer => exact ⟨rest, hlist, turned_of_sequencerTurn h⟩
  | command cw dw => exact ⟨rest, hlist, turned_of_portTurn h⟩
  | bufferWrite r k v =>
    obtain rfl := bufferWriteTurn_eq_next h
    exact ⟨rest, hlist, .bufferWrite r k v⟩
  | windowWrite offset v =>
    obtain rfl := Host.Outcome.next.inj h
    exact ⟨rest, hlist, .nothing⟩
  | hardReset =>
    obtain rfl := Host.Outcome.next.inj h
    exact ⟨rest, hlist, .hardReset⟩
  | wait =>
    rw [actionTurn] at h
    split at h
    · exact ⟨s.host, .inl rfl, turned_of_sequencerTurn h⟩
    · obtain rfl := Host.Outcome.next.inj h
      exact ⟨rest, hlist, .nothing⟩

end Sys2Proof.Machine
end

section
/-! The invariant of the block: it holds after reset, and every agent's turn keeps it (10_state.md R52 and the rules
named at `BlockInvariant`). -/

namespace Sys2Proof.Machine

/-! ## Reset, faults and the end of a block -/

/-- Settles O44, register by register. -/
theorem resetMeetsTheInvariant : Obligations.ResetMeetsTheInvariant where
  time_unit := by decide
  depth_unit := by decide
  gain_unit := by decide
  inc_pos := (lfoInc_range _).1
  phase_lt := lt_of_lt_of_le Nat.zero_lt_two Config.impl_valid.timerRes_range.1
  primary_lt := by decide
  secondary_lt := by decide
  frame_le := by decide
  frames_le := Nat.zero_le _
  busy_iff := by decide
  halted_idle := by decide
  seq_code := by decide
  setup_first := by decide
  frame_lt := by decide
  stage_k := by decide
  threshold_eq := rfl
  z1_zero := by decide
  input_finite := by decide
  lookup_range := by decide
  coef_range := by decide
  no_fault_zero := by decide
  fault_code := by decide
  mem_wf := rfl

theorem faultCode_range (f : BlockFault) : 1 ≤ (faultCode f).toNat ∧ (faultCode f).toNat ≤ 4 := by
  cases f <;> decide

/-- The count of a frame that exists has room for one more (R205). -/
theorem toNat_add_one_of_lt {n nfr : BitVec 16} (h : n.toNat < nfr.toNat) : (n + 1).toNat = n.toNat + 1 := by
  have := nfr.isLt
  bv_omega

section Keeps
variable {s : State} (h : BlockInvariant s)
include h

theorem invariant_hardReset : BlockInvariant (hardResetWith Config.impl s) :=
  { resetMeetsTheInvariant with mem_wf := h.mem_wf }

theorem invariant_host (rest : List HostAction) : BlockInvariant { s with host := rest } := { h with }

theorem invariant_raiseFault (f : BlockFault) (info : Word) : BlockInvariant (raiseFault f info s) :=
  { h with
    busy_iff := ⟨nofun, fun hrun => absurd rfl hrun.1⟩
    halted_idle := fun _ => rfl
    seq_code := Nat.zero_le _
    setup_first := nofun
    frame_lt := nofun
    stage_k := nofun
    no_fault_zero := nofun
    fault_code := fun _ => faultCode_range f }

/-- A block may end at any frame count up to `nfr`. -/
theorem invariant_endBlock {n : BitVec 16} (hn : n.toNat ≤ s.nfr.toNat) :
    BlockInvariant (endBlock { s with n := n }) :=
  { h with
    frame_le := hn
    busy_iff := ⟨nofun, fun hrun => absurd rfl hrun.1⟩
    halted_idle := fun _ => rfl
    seq_code := Nat.zero_le _
    setup_first := nofun
    frame_lt := nofun
    stage_k := nofun }

/-! ## The commands -/

theorem invariant_loadRegisters (ha : Accepted .load s) : BlockInvariant (loadRegisters Config.impl s) :=
  have hb : s.busy = false := ha.idle nofun
  { resetMeetsTheInvariant with
    busy_iff := ⟨fun hrun => absurd (hb.symm.trans hrun) Bool.false_ne_true, fun hrun => absurd rfl hrun.1⟩
    halted_idle := fun _ => rfl
    no_fault_zero := h.no_fault_zero
    fault_code := h.fault_code
    mem_wf := h.mem_wf }

theorem invariant_startBlock {nfr : Nat} (ha : Accepted (.proc nfr) s) : BlockInvariant (startBlock nfr s) :=
  have hfits := ha.fits nfr rfl
  have hnfr : (BitVec.ofNat 16 nfr).toNat = nfr := by
    have := Config.impl_valid.maxFrames_range
    rw [BitVec.toNat_ofNat, Nat.mod_eq_of_lt (by omega)]
  { h with
    frame_le := Nat.zero_le _
    frames_le := hnfr.trans_le hfits
    busy_iff := ⟨fun _ => ⟨(by decide : seqCode .blkSetup ≠ idleCode), ha.not_faulted⟩, fun _ => rfl⟩
    halted_idle := fun hf => absurd (ha.not_faulted.symm.trans hf) Bool.false_ne_true
    seq_code := (by decide : (seqCode .blkSetup).toNat ≤ 0xC)
    setup_first := fun _ => rfl
    frame_lt := fun hframe => absurd hframe (by decide : ¬2 ≤ (seqCode .blkSetup).toNat)
    stage_k := nofun }

theorem invariant_setParam {idx : Nat} {value : Int} (hwf : WellFormed (.setp idx value)) :
    BlockInvariant (setParam Config.impl idx value s) := by
  obtain ⟨-, hlo, hhi⟩ := hwf
  have hunit := inUnit_paramValue Config.impl.denormalMode hlo hhi
  rcases setParam_cases Config.impl idx value s with e | e | e <;> rw [e]
  · exact { h with time_unit := hunit }
  · exact { h with depth_unit := hunit }
  · exact h

theorem invariant_clearFilter : BlockInvariant (clearFilter s) :=
  { h with
    gain_unit := (by decide : InUnit 0)
    z1_zero := Vector.getElem_replicate _ }

/-- Whatever a command answers, the invariant is kept. -/
theorem invariant_exec_command {i : Instr} {t : State} (hi : isCommand i = true) (hwf : WellFormed i)
    (hexec : exec i s = .next t) : BlockInvariant t := by
  rcases exec_command_eq_next hi hexec with rfl | ⟨-, f, info, rfl⟩ | ⟨ha, rfl⟩
  · exact h
  · exact invariant_raiseFault h f info
  · cases i with
    | load => exact invariant_loadRegisters h ha
    | proc nfr => exact invariant_startBlock h ha
    | setp idx value => exact invariant_setParam h hwf
    | resume => exact invariant_clearFilter h
    | _ => exact absurd hi Bool.false_ne_true

/-! ## The micro-operations -/

/-- A running block is not halted. -/
theorem not_faulted_of_busy (hb : s.busy = true) : s.faulted = false := (h.busy_iff.1 hb).2

/-- A running block may go on to any micro-operation of its frame, to STAGE with a `k` that names one. -/
theorem invariant_advance (hb : s.busy = true) (hframe : s.n.toNat < s.nfr.toNat) {code : BitVec 4}
    (hcode : 2 ≤ code.toNat ∧ code.toNat ≤ 0xC) (hk : code = seqCode .stage → 1 ≤ s.k.toNat ∧ s.k.toNat ≤ 8) :
    BlockInvariant { s with seq := code } :=
  have hf := not_faulted_of_busy h hb
  have hidle : code ≠ idleCode := fun e => absurd (e ▸ hcode.1 : 2 ≤ idleCode.toNat) (by decide)
  have hsetup : code ≠ seqCode .blkSetup := fun e => absurd (e ▸ hcode.1 : 2 ≤ (seqCode .blkSetup).toNat) (by decide)
  { h with
    busy_iff := ⟨fun _ => ⟨hidle, hf⟩, fun _ => hb⟩
    halted_idle := fun hhalt => absurd (hf.symm.trans hhalt) Bool.false_ne_true
    seq_code := hcode.2
    setup_first := fun e => absurd e hsetup
    frame_lt := fun _ => hframe
    stage_k := hk }

/-- The two ways on from BLK_SETUP. -/
theorem invariant_exec_blkSetup {t : State} (hb : s.busy = true) (hseq : s.seq = seqCode .blkSetup)
    (hexec : exec .blkSetup s = .next t) : BlockInvariant t := by
  have h' : BlockInvariant { s with lfoIncLessOne := lfoIncrementLessOne Config.impl s.time } :=
    { h with inc_pos := (lfoInc_range _).1 }
  rcases exec_blkSetup_eq_next hexec with ⟨hnfr, rfl⟩ | ⟨-, rfl⟩
  · have hn : s.n = 0 := h.setup_first hseq
    exact invariant_advance h' hb (show s.n.toNat < s.nfr.toNat by rw [hn]; exact hnfr) (by decide) nofun
  · exact invariant_endBlock h' h.frame_le

section InFrame
variable (hb : s.busy = true) (hframe : s.n.toNat < s.nfr.toNat) {t : State}
include hb hframe

theorem invariant_exec_inRead (hexec : exec .inRead s = .next t) : BlockInvariant t := by
  rcases exec_inRead_eq_next hexec with ⟨hfin, rfl⟩ | ⟨-, rfl⟩
  · exact { invariant_advance h hb hframe (code := seqCode .lfoStep) (by decide) nofun with input_finite := hfin }
  · exact invariant_raiseFault h _ _

theorem invariant_exec_lfoStep (hexec : exec .lfoStep s = .next t) : BlockInvariant t := by
  obtain ⟨phase, hphase, hexec', hprimary, hsecondary⟩ := lfoStepAdvancesThePhase.2 s
  obtain rfl := Host.Outcome.next.inj (hexec'.symm.trans hexec)
  exact { invariant_advance h hb hframe (code := seqCode .shapePre) (by decide) nofun with
    phase_lt := hphase.trans_lt (nextPhase_lt_timerRes Config.impl_valid s)
    primary_lt := hprimary
    secondary_lt := hsecondary
    inc_pos := (lfoInc_range _).1 }

theorem invariant_exec_shapePre (hexec : exec .shapePre s = .next t) : BlockInvariant t := by
  obtain rfl := Host.Outcome.next.inj hexec
  exact { invariant_advance h hb hframe (code := seqCode .lookup) (by decide) nofun with }

theorem invariant_exec_lookup (hexec : exec .lookup s = .next t) : BlockInvariant t := by
  obtain ⟨t', hexec', hrange⟩ := lookupStaysWithinFullScale s
  obtain rfl := Host.Outcome.next.inj (hexec'.symm.trans hexec)
  obtain rfl := Host.Outcome.next.inj hexec'
  exact { invariant_advance h hb hframe (code := seqCode .coef) (by decide) nofun with lookup_range := hrange }

theorem invariant_exec_coef (hexec : exec .coef s = .next t) : BlockInvariant t := by
  obtain rfl := Host.Outcome.next.inj hexec
  exact { invariant_advance h hb hframe (code := seqCode .mix) (by decide) nofun with
    coef_range := coefRange_coefficient _ h.lookup_range.1 h.lookup_range.2 }

theorem invariant_exec_mix (hexec : exec .mix s = .next t) : BlockInvariant t := by
  obtain rfl := Host.Outcome.next.inj hexec
  have hk : 1 ≤ (8 : BitVec 4).toNat ∧ (8 : BitVec 4).toNat ≤ 8 := by decide
  have h' : BlockInvariant { s with k := 8 } := { h with stage_k := fun _ => hk }
  exact { invariant_advance h' hb hframe (code := seqCode .stage) (by decide) (fun _ => hk) with }

/-- STAGE leaves `z1[0]` alone, and a stage above the first leaves a stage below it. -/
theorem invariant_exec_stage (hexec : exec .stage s = .next t) : BlockInvariant t := by
  obtain ⟨hk, rfl⟩ := exec_stage_eq_next hexec
  have hlt : s.k.toNat < 9 := by omega
  have hz1 : ∀ v, (s.z1.set s.k.toNat v hlt)[(0 : Fin 9)] = 0 := fun v => by
    rw [getElem_set_of_ne s.z1 hlt v (show (0 : Fin 9).val ≠ s.k.toNat by simp; omega)]
    exact h.z1_zero
  split_ifs with hlast
  · have hk' : (s.k - 1).toNat = s.k.toNat - 1 := by bv_omega
    have h' : BlockInvariant { s with k := s.k - 1 } := { h with stage_k := fun _ => by rw [hk']; omega }
    exact { invariant_advance h' hb hframe (code := seqCode .stage) (by decide) (fun _ => by rw [hk']; omega) with
      z1_zero := hz1 _ }
  · exact { invariant_advance h hb hframe (code := seqCode .limit) (by decide) nofun with z1_zero := hz1 _ }

theorem invariant_exec_limit (hexec : exec .limit s = .next t) : BlockInvariant t := by
  obtain rfl := Host.Outcome.next.inj hexec
  exact { invariant_advance h hb hframe (code := seqCode .outWrite) (by decide) nofun with }

theorem invariant_exec_outWrite (hexec : exec .outWrite s = .next t) : BlockInvariant t := by
  obtain ⟨m, hm, rfl⟩ := exec_outWrite_eq_next hexec
  have hwf : Memory.wf m = true := by
    rw [hm]
    exact wf_storeFrame Config.impl s.mem s.n.toNat s.y h.mem_wf
  exact { invariant_advance h hb hframe (code := seqCode .gainStep) (by decide) nofun with mem_wf := hwf }

theorem invariant_exec_gainStep (hexec : exec .gainStep s = .next t) : BlockInvariant t := by
  obtain rfl := Host.Outcome.next.inj hexec
  exact { invariant_advance h hb hframe (code := seqCode .next) (by decide) nofun with
    gain_unit := inUnit_nextGain _ h.gain_unit }

theorem invariant_exec_next (hseq : s.seq = seqCode .next) (hexec : exec .next s = .next t) : BlockInvariant t := by
  have hn := toNat_add_one_of_lt hframe
  rcases exec_next_eq_next hexec with ⟨hmore, rfl⟩ | ⟨-, rfl⟩
  · have hless : (s.n + 1).toNat < s.nfr.toNat := by omega
    have h' : BlockInvariant { s with n := s.n + 1 } :=
      { h with
        frame_le := hless.le
        setup_first := fun e => absurd (hseq.symm.trans e) (by decide)
        frame_lt := fun _ => hless }
    exact invariant_advance h' hb hless (by decide) nofun
  · exact invariant_endBlock h (by omega)

end InFrame

/-- Whatever the micro-operation of `seq` answers, the invariant is kept. -/
theorem invariant_exec_microOperation {i : Instr} {t : State} (hf : s.faulted = false)
    (hd : decode (.seq s.seq) = .instr i) (hexec : exec i s = .next t) : BlockInvariant t := by
  obtain ⟨hi, hseq⟩ := Decoding.seqCode_of_decode_seq hd
  have hidle : s.seq ≠ idleCode := fun e => by rw [e] at hd; cases hd
  have hb : s.busy = true := h.busy_iff.2 ⟨hidle, hf⟩
  have hframe : 2 ≤ (seqCode i).toNat → s.n.toNat < s.nfr.toNat := hseq ▸ h.frame_lt
  cases i with
  | load | proc nfr | setp idx value | resume => exact absurd hi Bool.true_eq_false_eq_False
  | blkSetup => exact invariant_exec_blkSetup h hb hseq.symm hexec
  | inRead => exact invariant_exec_inRead h hb (hframe (by decide)) hexec
  | lfoStep => exact invariant_exec_lfoStep h hb (hframe (by decide)) hexec
  | shapePre => exact invariant_exec_shapePre h hb (hframe (by decide)) hexec
  | lookup => exact invariant_exec_lookup h hb (hframe (by decide)) hexec
  | coef => exact invariant_exec_coef h hb (hframe (by decide)) hexec
  | mix => exact invariant_exec_mix h hb (hframe (by decide)) hexec
  | stage => exact invariant_exec_stage h hb (hframe (by decide)) hexec
  | limit => exact invariant_exec_limit h hb (hframe (by decide)) hexec
  | outWrite => exact invariant_exec_outWrite h hb (hframe (by decide)) hexec
  | gainStep => exact invariant_exec_gainStep h hb (hframe (by decide)) hexec
  | next => exact invariant_exec_next h hb (hframe (by decide)) hseq.symm hexec

end Keeps

/-- Settles O45, by what the step has done. -/
theorem everyStepKeepsTheInvariant : Obligations.EveryStepKeepsTheInvariant := by
  intro s t h hstep
  obtain ⟨rest, -, hturned⟩ := turned_of_step hstep
  have hrest := invariant_host h rest
  cases hturned with
  | nothing => exact hrest
  | microOperation hf hd hexec => exact invariant_exec_microOperation hrest hf hd hexec
  | command hd hexec =>
    obtain ⟨hwf, hi, -, -⟩ := Decoding.carries_of_decode_cmd hd
    exact invariant_exec_command hrest hi hwf hexec
  | illegal cw => exact invariant_raiseFault hrest _ cw
  | bufferWrite r k v => exact { hrest with mem_wf := wf_storeWord _ _ _ _ _ h.mem_wf }
  | hardReset => exact invariant_hardReset hrest

end Sys2Proof.Machine
end

section
/-! What no step does: touch the host's list beside its first action, break the form of the memory, or stop where the
invariant holds (20_memory.md R61, 46_pipeline.md R211). -/

namespace Sys2Proof.Machine

/-- No instruction writes the host's list, and none but OUT_WRITE the buffer memory (R51). -/
theorem exec_host_and_mem {i : Instr} {s t : State} (h : exec i s = .next t) :
    t.host = s.host ∧ (i ≠ .outWrite → t.mem = s.mem) := by
  have kept : ∀ u, t = u → u.host = s.host → u.mem = s.mem → t.host = s.host ∧ (i ≠ .outWrite → t.mem = s.mem) :=
    fun u e hhost hmem => ⟨e ▸ hhost, fun _ => e ▸ hmem⟩
  rcases nothingWritesOutsideTheWriterTable.1 i s t h with rfl | e | e
  · exact ⟨rfl, fun _ => rfl⟩
  · exact kept _ e rfl rfl
  · cases i with
    | load | proc nfr | resume | inRead | lfoStep | shapePre | lookup | coef | limit | gainStep | next =>
      exact kept _ e rfl rfl
    | blkSetup | mix | stage => exact kept _ e.1 rfl rfl
    | setp idx value => rcases e with e | e <;> exact kept _ e rfl rfl
    | outWrite => exact ⟨(congrArg State.host e.1 :), fun hne => absurd rfl hne⟩

/-- No agent's turn writes the host's list. -/
theorem host_of_turned {u t : State} (h : Turned u t) : t.host = u.host := by
  cases h with
  | microOperation _ _ hexec | command _ hexec => exact (exec_host_and_mem hexec).1
  | nothing | illegal _ | bufferWrite _ _ _ | hardReset => rfl

/-- Every instruction keeps the canonical form of the memory. -/
theorem wf_exec {i : Instr} {s t : State} (hwf : Memory.wf s.mem = true) (h : exec i s = .next t) :
    Memory.wf t.mem = true := by
  by_cases hi : i = .outWrite
  · subst hi
    obtain ⟨m, hm, rfl⟩ := exec_outWrite_eq_next h
    show Memory.wf m = true
    rw [hm]
    exact wf_storeFrame _ _ _ _ hwf
  · rw [(exec_host_and_mem h).2 hi]
    exact hwf

/-- Settles O47, by what the step has done: an instruction, or a stored word, or nothing to the memory. -/
theorem memoryStaysCanonical : Obligations.MemoryStaysCanonical := by
  intro s t hwf hstep
  obtain ⟨rest, -, hturned⟩ := turned_of_step hstep
  cases hturned with
  | microOperation _ _ hexec | command _ hexec => exact wf_exec (s := { s with host := rest }) hwf hexec
  | bufferWrite r k v => exact wf_storeWord _ _ _ _ _ hwf
  | nothing | illegal _ | hardReset => exact hwf

/-! ## Progress -/

/-- A command always answers a next state. -/
theorem exec_command_answers {i : Instr} (hi : isCommand i = true) (s : State) : ∃ t, exec i s = .next t := by
  have haccept : ∀ cw needsIdle act, ∃ t, acceptCommand cw needsIdle s act = .next t := fun cw needsIdle act => by
    rcases acceptCommand_cases cw needsIdle s act with ⟨-, e⟩ | ⟨-, -, -, e⟩ | ⟨-, -, e⟩ <;> exact ⟨_, e⟩
  cases i with
  | proc nfr =>
    rw [exec_proc_eq_acceptCommand]
    exact haccept _ _ _
  | load | setp idx value | resume => exact haccept _ _ _
  | _ => exact absurd hi Bool.false_ne_true

theorem portTurn_answers (cw dw : Word) (s : State) : ∃ t, portTurn cw dw s = .next t := by
  rcases portTurn_cases cw dw s with ⟨i, hd, e⟩ | ⟨-, -, -, e⟩ | ⟨-, -, -, e⟩
  · rw [e]
    exact exec_command_answers (isCommand_of_decode_cmd hd) s
  · exact ⟨_, e⟩
  · exact ⟨_, e⟩

/-- What decodes to nothing, other than IDLE, is above the twelve codes (R99). -/
theorem toNat_of_reserved {code : BitVec 4} (hd : decode (.seq code) = .reject .reservedSeq) : 0xD ≤ code.toNat := by
  obtain ⟨x, hx⟩ := code
  by_contra hlt
  have hx' : x < 13 := not_le.1 hlt
  interval_cases x <;> cases hd

section Progress
variable {s : State} (h : BlockInvariant s)
include h

/-- A frame of the block exists in the regions (R68). -/
theorem frame_exists (hframe : 2 ≤ s.seq.toNat) : s.n.toNat < Config.impl.maxFrames :=
  (h.frame_lt hframe).trans_le h.frames_le

/-- The micro-operation of `seq` finds its words and cells (R211). -/
theorem exec_microOperation_answers {i : Instr} (hd : decode (.seq s.seq) = .instr i) : ∃ t, exec i s = .next t := by
  obtain ⟨hi, hseq⟩ := Decoding.seqCode_of_decode_seq hd
  cases i with
  | load | proc nfr | setp idx value | resume => exact absurd hi Bool.true_eq_false_eq_False
  | lfoStep | shapePre | lookup | coef | mix | limit | gainStep => exact ⟨_, rfl⟩
  | blkSetup =>
    rw [exec_blkSetup, execBlkSetup, blkSetupWith]
    split <;> exact ⟨_, rfl⟩
  | inRead => exact ⟨_, exec_inRead_of_frame (frame_exists h (hseq ▸ by decide))⟩
  | stage => exact (stageWith_next_iff Config.impl s).2 (h.stage_k hseq.symm)
  | outWrite =>
    obtain ⟨t, ht, -, -⟩ := exec_outWrite_of_frame (frame_exists h (hseq ▸ by decide))
    exact ⟨t, ht⟩
  | next =>
    rw [exec_next, execNext]
    split <;> exact ⟨_, rfl⟩

/-- The sequencer's turn is a step: `seq` holds no reserved code. -/
theorem sequencerTurn_answers : ∃ t, sequencerTurn s = .next t := by
  rcases sequencerTurn_cases s with ⟨-, e⟩ | ⟨-, i, hd, e⟩ | ⟨-, hd, -⟩
  · exact ⟨s, e⟩
  · rw [e]
    exact exec_microOperation_answers h hd
  · exact absurd h.seq_code (not_le.2 (toNat_of_reserved hd))

/-- Every action of a host that writes only words that exist is a step. -/
theorem actionTurn_answers {a : HostAction} {rest : List HostAction}
    (hwrite : ∀ r k v, a = .bufferWrite r k v → WordExists Config.impl k) : ∃ t, actionTurn a rest s = .next t := by
  have hrest := invariant_host h rest
  cases a with
  | sequencer => exact sequencerTurn_answers hrest
  | command cw dw => exact portTurn_answers cw dw _
  | bufferWrite r k v => exact ⟨_, if_pos (hwrite r k v rfl)⟩
  | windowWrite offset v | hardReset => exact ⟨_, rfl⟩
  | wait =>
    rw [actionTurn]
    split
    · exact sequencerTurn_answers h
    · exact ⟨_, rfl⟩

end Progress

/-- Settles O46: each turn answers a next state, and what is left of the list was in it. -/
theorem machineNeverStops : Obligations.MachineNeverStops := by
  intro s h hhost
  have hanswer : ∃ t, step s = .next t := by
    rcases step_cases s with ⟨-, e⟩ | ⟨a, rest, hlist, e⟩ <;> rw [e]
    · exact sequencerTurn_answers h
    · refine actionTurn_answers h fun r k v ha => hhost r k v ?_
      rw [hlist, ha]
      exact List.mem_cons_self
  obtain ⟨t, hstep⟩ := hanswer
  refine ⟨t, hstep, fun r k v hmem => hhost r k v ?_⟩
  obtain ⟨rest, hlist, hturned⟩ := turned_of_step hstep
  rw [host_of_turned hturned] at hmem
  rcases hlist with hlist | ⟨a, hlist⟩ <;> rw [hlist]
  · exact hmem
  · exact List.mem_cons_of_mem a hmem

end Sys2Proof.Machine
end

section
/-! A block from BLK_SETUP to its end: each step leaves one step less to do and takes the block on, and OUT_WRITE
alone writes, one frame at a time (30_encoding.md R101, 46_pipeline.md R202 to R210, 20_memory.md R63). -/

namespace Sys2Proof.Machine

/-! ## The steps left -/

/-- How many steps a block has left before it is idle: BLK_SETUP and 18 for each frame, the 18 in the order of R101's
table, with STAGE eight of them. -/
def stepsLeft (s : State) : Nat :=
  match s.seq.toNat with
  | 0x1 => 1 + 18 * s.nfr.toNat
  | 0x2 => 18 * (s.nfr.toNat - s.n.toNat)
  | 0x3 => 18 * (s.nfr.toNat - s.n.toNat) - 1
  | 0x4 => 18 * (s.nfr.toNat - s.n.toNat) - 2
  | 0x5 => 18 * (s.nfr.toNat - s.n.toNat) - 3
  | 0x6 => 18 * (s.nfr.toNat - s.n.toNat) - 4
  | 0x7 => 18 * (s.nfr.toNat - s.n.toNat) - 5
  | 0x8 => 18 * (s.nfr.toNat - s.n.toNat) - 14 + s.k.toNat
  | 0x9 => 18 * (s.nfr.toNat - s.n.toNat) - 14
  | 0xA => 18 * (s.nfr.toNat - s.n.toNat) - 15
  | 0xB => 18 * (s.nfr.toNat - s.n.toNat) - 16
  | 0xC => 18 * (s.nfr.toNat - s.n.toNat) - 17
  | _ => 0

/-- How many frames of the block are in the buffer memory: OUT_WRITE has written the current one when GAIN_STEP or NEXT
is next. -/
def framesWritten (s : State) : Nat :=
  s.n.toNat + if s.seq = seqCode .gainStep ∨ s.seq = seqCode .next then 1 else 0

theorem stepsLeft_of_idle {s : State} (hseq : s.seq = idleCode) : stepsLeft s = 0 := by
  rw [stepsLeft, hseq]
  rfl

/-- A running block has a step left. -/
theorem stepsLeft_pos {s : State} (h : BlockInvariant s) (hseq : s.seq ≠ idleCode) : 0 < stepsLeft s := by
  have hcode := h.seq_code
  have hframe := h.frame_lt
  have hidle : 0 < s.seq.toNat := Nat.pos_of_ne_zero fun e => hseq (BitVec.eq_of_toNat_eq e)
  unfold stepsLeft
  generalize s.seq.toNat = code at *
  interval_cases code <;> simp only <;> omega

/-- What a micro-operation does to a block that is not halted by it: one step less is left, the block has the same
frames, and one more is written if it is OUT_WRITE. -/
structure Advances (s t : State) : Prop where
  not_faulted : t.faulted = false
  nfr_eq : t.nfr = s.nfr
  ended : t.seq = idleCode → t.n = t.nfr
  left : stepsLeft t + 1 = stepsLeft s
  frames : framesWritten t = framesWritten s + if s.seq = seqCode .outWrite then 1 else 0

section Advance
variable {s t : State} (hf : s.faulted = false)
include hf

/-- BLK_SETUP goes on to the frames, or ends a block of none. -/
theorem advances_blkSetup (h : BlockInvariant s) (hseq : s.seq = seqCode .blkSetup)
    (hexec : exec .blkSetup s = .next t) : Advances s t := by
  have hn := h.setup_first hseq
  rcases exec_blkSetup_eq_next hexec with ⟨-, rfl⟩ | ⟨hnfr, rfl⟩
  · refine ⟨hf, rfl, nofun, ?_, ?_⟩
    · simp [stepsLeft, hseq, hn, seqCode, Nat.add_comm]
    · simp [framesWritten, hseq, seqCode]
  · refine ⟨hf, rfl, fun _ => hn.trans (BitVec.eq_of_toNat_eq hnfr.symm), ?_, ?_⟩
    · simp [stepsLeft, hseq, hnfr, seqCode, idleCode]
    · simp [framesWritten, hseq, seqCode, idleCode]

/-- NEXT goes on to the next frame, or ends the block after its last. -/
theorem advances_next (hframe : s.n.toNat < s.nfr.toNat) (hseq : s.seq = seqCode .next)
    (hexec : exec .next s = .next t) : Advances s t := by
  have hroom := s.nfr.isLt
  have hn := toNat_add_one_of_lt hframe
  rcases exec_next_eq_next hexec with ⟨-, rfl⟩ | ⟨hlast, rfl⟩
  · refine ⟨hf, rfl, nofun, ?_, ?_⟩
    · simp [stepsLeft, hseq, seqCode]
      omega
    · simp [framesWritten, hseq, seqCode]
      omega
  · have hend : s.n + 1 = s.nfr := BitVec.eq_of_toNat_eq (by omega)
    refine ⟨hf, rfl, fun _ => hend, ?_, ?_⟩
    · simp [stepsLeft, hseq, seqCode, idleCode]
      omega
    · simp [framesWritten, hseq, seqCode, idleCode]
      omega

/-- STAGE goes on to the stage below, or to LIMIT after the first. -/
theorem advances_stage (hseq : s.seq = seqCode .stage) (hexec : exec .stage s = .next t) : Advances s t := by
  obtain ⟨hk, rfl⟩ := exec_stage_eq_next hexec
  split_ifs with hmore
  · refine ⟨hf, rfl, nofun, ?_, ?_⟩
    · simp [stepsLeft, hseq, seqCode]
      omega
    · simp [framesWritten, hseq, seqCode]
  · refine ⟨hf, rfl, nofun, ?_, ?_⟩
    · simp [stepsLeft, hseq, seqCode]
      omega
    · simp [framesWritten, hseq, seqCode]

/-- Every micro-operation of a block whose input is finite takes it on. -/
theorem advances_exec {i : Instr} (h : BlockInvariant s) (hd : decode (.seq s.seq) = .instr i)
    (hinput : s.n.toNat < s.nfr.toNat → Binary32.isFinite (bufferWord Config.impl s .mainIn (2 * s.n.toNat)) = true)
    (hexec : exec i s = .next t) : Advances s t := by
  obtain ⟨hi, hseq⟩ := Decoding.seqCode_of_decode_seq hd
  have hframe : 2 ≤ (seqCode i).toNat → s.n.toNat < s.nfr.toNat := hseq ▸ h.frame_lt
  cases i with
  | load | proc nfr | setp idx value | resume => exact absurd hi Bool.true_eq_false_eq_False
  | blkSetup => exact advances_blkSetup hf h hseq.symm hexec
  | next => exact advances_next hf (hframe (by decide)) hseq.symm hexec
  | stage => exact advances_stage hf hseq.symm hexec
  | inRead =>
    have hlt := hframe (by decide)
    rcases exec_inRead_eq_next hexec with ⟨-, rfl⟩ | ⟨hinfinite, -⟩
    · refine ⟨hf, rfl, nofun, ?_, ?_⟩
      · simp [stepsLeft, ← hseq, seqCode]
        omega
      · simp [framesWritten, ← hseq, seqCode]
    · exact absurd ((hinput hlt).symm.trans hinfinite) Bool.true_eq_false_eq_False
  | outWrite =>
    have hlt := hframe (by decide)
    obtain ⟨m, -, rfl⟩ := exec_outWrite_eq_next hexec
    refine ⟨hf, rfl, nofun, ?_, ?_⟩
    · simp [stepsLeft, ← hseq, seqCode]
      omega
    · simp [framesWritten, ← hseq, seqCode]
  | lfoStep | shapePre | lookup | coef | mix | limit | gainStep =>
    have hlt := hframe (by decide)
    obtain rfl := Host.Outcome.next.inj hexec
    refine ⟨hf, rfl, nofun, ?_, ?_⟩
    · simp [stepsLeft, ← hseq, seqCode]
      omega
    · simp [framesWritten, ← hseq, seqCode]

end Advance
end Sys2Proof.Machine
end

section
/-! What a run of a block leaves in the buffer memory: one sample in the four words of each written frame, and every
other word as it was (20_memory.md R63, 46_pipeline.md R206). -/

namespace Sys2Proof.Machine

/-- What the host reads depends on the memory alone. -/
theorem hostRead_congr {s t : State} (h : t.mem = s.mem) (r : Region) (k : Nat) : hostRead t r k = hostRead s r k := by
  rw [hostRead, hostRead, hostReadWith, hostReadWith, bufferWord, bufferWord, h]

/-- A word that is none of a stored frame's four is what it was. -/
theorem readWord_storeFrame_other {c : Config} {m : Memory} {frame : Nat} {r : Region} {k : Nat} (v : F32)
    (hm : Memory.wfWith c m = true) (hframe : frame < c.maxFrames) (hk : WordExists c k)
    (hother : (r = .mainOut ∨ r = .subOut) → ¬(k = 2 * frame ∨ k = 2 * frame + 1)) :
    Memory.readWord c (storeFrame c m frame v) (wordAddr c r k) = Memory.readWord c m (wordAddr c r k) := by
  have left := wordExists_of_frame hframe (.inl rfl)
  have right := wordExists_of_frame hframe (.inr rfl)
  have hm₁ := wf_storeWord c m .mainOut (2 * frame) v hm
  have hm₂ := wf_storeWord c _ .mainOut (2 * frame + 1) v hm₁
  have hm₃ := wf_storeWord c _ .subOut (2 * frame) v hm₂
  rw [storeFrame, readWord_storeWord c _ _ _ _ _ v hm₃ right hk, readWord_storeWord c _ _ _ _ _ v hm₂ left hk,
    readWord_storeWord c _ _ _ _ _ v hm₁ right hk, readWord_storeWord c _ _ _ _ _ v hm left hk]
  rw [if_neg fun e => hother (.inr e.1) (.inr e.2), if_neg fun e => hother (.inr e.1) (.inl e.2),
    if_neg fun e => hother (.inl e.1) (.inr e.2), if_neg fun e => hother (.inl e.1) (.inl e.2)]

theorem hostRead_of_mem_eq_storeFrame_other {s t : State} {frame : Nat} {v : F32} {r : Region} {k : Nat}
    (hwf : Memory.wf s.mem = true) (hframe : frame < Config.impl.maxFrames)
    (hmem : t.mem = storeFrame Config.impl s.mem frame v)
    (hother : (r = .mainOut ∨ r = .subOut) → ¬(k = 2 * frame ∨ k = 2 * frame + 1)) :
    hostRead t r k = hostRead s r k := by
  by_cases hk : WordExists Config.impl k
  · rw [hostRead_of_wordExists hk, hostRead_of_wordExists hk, hmem, readWord_storeFrame_other v hwf hframe hk hother]
  · rw [hostRead_of_not_wordExists hk, hostRead_of_not_wordExists hk]

/-- The block of `start` under way: it meets the invariant, has met no fault, has one sample in the four words of each
frame written so far, and has changed no other word. -/
structure Underway (start s : State) : Prop where
  invariant : BlockInvariant s
  host_nil : s.host = []
  not_faulted : s.faulted = false
  nfr_eq : s.nfr = start.nfr
  ended : s.seq = idleCode → s.n = s.nfr
  written : ∀ j, j < framesWritten s → ∃ y : F32, ∀ r k, (r = .mainOut ∨ r = .subOut) →
    (k = 2 * j ∨ k = 2 * j + 1) → hostRead s r k = some y
  others : ∀ r k, (r = .mainIn ∨ r = .subIn ∨ 2 * start.nfr.toNat ≤ k) → hostRead s r k = hostRead start r k

/-- A block that PROC has started is under way. -/
theorem underway_start {s : State} (h : BlockInvariant s) (hhost : s.host = []) (hseq : s.seq = seqCode .blkSetup) :
    Underway s s where
  invariant := h
  host_nil := hhost
  not_faulted := by
    have hidle : s.seq ≠ idleCode := by rw [hseq]; decide
    exact Bool.eq_false_iff.2 fun hf => hidle (h.halted_idle hf)
  nfr_eq := rfl
  ended := fun e => absurd (hseq.symm.trans e) (by decide)
  written := fun j hj => by
    simp [framesWritten, h.setup_first hseq, hseq, seqCode] at hj
  others := fun _ _ _ => rfl

/-- A run goes on from the state its first step answers. -/
theorem run_succ {M : Host.Core} {x y : M.State} (hstep : M.step x = .next y) (m : Nat) :
    M.run (m + 1) x = M.run m y := by
  rw [Host.Core.run, hstep]

section Run
variable {start s : State} (h : Underway start s) (hinput : InputsFinite start)
include h

/-- OUT_WRITE adds its frame to those written. -/
theorem underway_outWrite {t : State} (hseq : s.seq = seqCode .outWrite) (hexec : exec .outWrite s = .next t) :
    (∀ j, j < s.n.toNat + 1 → ∃ y : F32, ∀ r k, (r = .mainOut ∨ r = .subOut) → (k = 2 * j ∨ k = 2 * j + 1) →
      hostRead t r k = some y) ∧
    ∀ r k, (r = .mainIn ∨ r = .subIn ∨ 2 * start.nfr.toNat ≤ k) → hostRead t r k = hostRead start r k := by
  have hinv := h.invariant
  have hn : s.n.toNat < s.nfr.toNat := hinv.frame_lt (hseq ▸ by decide)
  have hframe := hn.trans_le hinv.frames_le
  obtain ⟨m, hm, rfl⟩ := exec_outWrite_eq_next hexec
  refine ⟨fun j hj => ?_, fun r k hrk => ?_⟩
  · rcases Nat.lt_succ_iff_lt_or_eq.1 hj with hlt | rfl
    · obtain ⟨y, hy⟩ := h.written j (hlt.trans_le (Nat.le_add_right _ _))
      refine ⟨y, fun r k hr hk => ?_⟩
      rw [hostRead_of_mem_eq_storeFrame_other hinv.mem_wf hframe hm fun _ => by omega]
      exact hy r k hr hk
    · exact ⟨s.y, fun r k hr hk => hostRead_of_mem_eq_storeFrame hinv.mem_wf hframe hm hr hk⟩
  · rw [hostRead_of_mem_eq_storeFrame_other hinv.mem_wf hframe hm ?_, h.others r k hrk]
    rw [← h.nfr_eq] at hrk
    rintro (rfl | rfl) <;> simp only [reduceCtorEq, false_or] at hrk <;> omega

/-- What a micro-operation leaves in the memory of a block under way. -/
theorem underway_memory {i : Instr} {t : State} (hd : decode (.seq s.seq) = .instr i) (hexec : exec i s = .next t)
    (hframes : framesWritten t = framesWritten s + if s.seq = seqCode .outWrite then 1 else 0) :
    (∀ j, j < framesWritten t → ∃ y : F32, ∀ r k, (r = .mainOut ∨ r = .subOut) → (k = 2 * j ∨ k = 2 * j + 1) →
      hostRead t r k = some y) ∧
    ∀ r k, (r = .mainIn ∨ r = .subIn ∨ 2 * start.nfr.toNat ≤ k) → hostRead t r k = hostRead start r k := by
  by_cases hseq : s.seq = seqCode .outWrite
  · have hi : i = .outWrite := by
      rw [hseq] at hd
      cases hd
      rfl
    have hcount : framesWritten t = s.n.toNat + 1 := by
      rw [hframes, if_pos hseq]
      simp [framesWritten, hseq, seqCode]
    subst hi
    rw [hcount]
    exact underway_outWrite h hseq hexec
  · have hi : i ≠ .outWrite := by
      rintro rfl
      exact hseq (Decoding.seqCode_of_decode_seq hd).2.symm
    rw [hframes, if_neg hseq]
    simp only [hostRead_congr ((exec_host_and_mem hexec).2 hi)]
    exact ⟨h.written, h.others⟩

include hinput

/-- The input word of the current frame is the one it was at the start. -/
theorem underway_input_finite (hframe : s.n.toNat < s.nfr.toNat) :
    Binary32.isFinite (bufferWord Config.impl s .mainIn (2 * s.n.toNat)) = true := by
  have hexists : WordExists Config.impl (2 * s.n.toNat) :=
    wordExists_of_frame (hframe.trans_le h.invariant.frames_le) (.inl rfl)
  have hsame := h.others .mainIn (2 * s.n.toNat) (.inl rfl)
  rw [hostRead_of_wordExists hexists, hostRead_of_wordExists hexists, Option.some_inj] at hsame
  rw [bufferWord, hsame]
  exact hinput _ (h.nfr_eq ▸ hframe)

/-- While the block is not idle, a step takes it on. -/
theorem underway_step (hrun : s.seq ≠ idleCode) :
    ∃ t, step s = .next t ∧ Underway start t ∧ stepsLeft t + 1 = stepsLeft s := by
  have hturn := step_of_no_action h.host_nil
  obtain ⟨t, hstep⟩ := sequencerTurn_answers h.invariant
  rw [← hturn] at hstep
  have hinv := everyStepKeepsTheInvariant s t h.invariant hstep
  rcases sequencerTurn_cases s with ⟨hf | hidle, -⟩ | ⟨hf, i, hd, e⟩ | ⟨-, -, e⟩
  · exact absurd (h.not_faulted.symm.trans hf) Bool.false_ne_true
  · exact absurd hidle hrun
  · have hexec : exec i s = .next t := (hturn.trans e).symm.trans hstep
    obtain ⟨hf', hnfr, hended, hleft, hframes⟩ :=
      advances_exec hf h.invariant hd (underway_input_finite h hinput) hexec
    have hhost := (exec_host_and_mem hexec).1
    obtain ⟨hwritten, hothers⟩ := underway_memory h hd hexec hframes
    exact ⟨t, hstep, ⟨hinv, hhost.trans h.host_nil, hf', hnfr.trans h.nfr_eq, hended, hwritten, hothers⟩, hleft⟩
  · cases (hturn.trans e).symm.trans hstep

/-- After `m` steps, up to the last, the block is under way with `m` steps less left. -/
theorem underway_run (m : Nat) (hm : m ≤ stepsLeft s) :
    ∃ t, Sys2Proof.core.run m s = .next t ∧ Underway start t ∧ stepsLeft t + m = stepsLeft s := by
  induction m generalizing s with
  | zero => exact ⟨s, rfl, h, rfl⟩
  | succ m ih =>
    have hrun : s.seq ≠ idleCode := fun e => by rw [stepsLeft_of_idle e] at hm; omega
    obtain ⟨u, hstep, hu, hleft⟩ := underway_step h hinput hrun
    obtain ⟨t, hruns, ht, hleft'⟩ := ih hu (by omega)
    exact ⟨t, (run_succ (M := Sys2Proof.core) hstep m).trans hruns, ht, by omega⟩

end Run

theorem stepsLeft_of_blkSetup {s : State} (hseq : s.seq = seqCode .blkSetup) : stepsLeft s = 1 + 18 * s.nfr.toNat := by
  rw [stepsLeft, hseq]
  rfl

/-- A block with no step left is idle. -/
theorem idle_of_stepsLeft {s : State} (h : BlockInvariant s) (hleft : stepsLeft s = 0) : s.seq = idleCode :=
  Decidable.by_contra fun hrun => absurd hleft (stepsLeft_pos h hrun).ne'

/-- The whole block: after its `1 + 18 * nfr` steps it is idle and under way from its start. -/
theorem underway_block {s : State} (h : BlockInvariant s) (hhost : s.host = []) (hseq : s.seq = 0x1)
    (hinput : InputsFinite s) : ∃ t, Sys2Proof.core.run (1 + 18 * s.nfr.toNat) s = .next t ∧ Underway s t ∧
      t.seq = idleCode := by
  have hall := stepsLeft_of_blkSetup hseq
  obtain ⟨t, hrun, ht, hleft⟩ := underway_run (underway_start h hhost hseq) hinput _ hall.ge
  exact ⟨t, hrun, ht, idle_of_stepsLeft ht.invariant (by omega)⟩

/-- Settles O48: every earlier step leaves a step to do, so the block is not idle before the last. -/
theorem blockRunsToCompletion : Obligations.BlockRunsToCompletion := by
  intro s h hhost hseq hinput
  have hall := stepsLeft_of_blkSetup hseq
  refine ⟨fun m hm => ?_, ?_⟩
  · obtain ⟨t, hrun, ht, hleft⟩ := underway_run (underway_start h hhost hseq) hinput m (by omega)
    have hbusy : t.seq ≠ idleCode := fun e => by rw [stepsLeft_of_idle e] at hleft; omega
    exact ⟨t, hrun, ht.invariant.busy_iff.2 ⟨hbusy, ht.not_faulted⟩⟩
  · obtain ⟨t, hrun, ht, hidle⟩ := underway_block h hhost hseq hinput
    have hbusy : t.busy = false := Bool.eq_false_iff.2 fun hb => (ht.invariant.busy_iff.1 hb).1 hidle
    exact ⟨t, hrun, hbusy, hidle, ht.not_faulted, (ht.ended hidle).trans ht.nfr_eq, ht.nfr_eq⟩

/-- Settles O49: at the end `n` is `nfr`, so all frames of the block are written. -/
theorem blockWritesOneSampleToAllChannels : Obligations.BlockWritesOneSampleToAllChannels := by
  intro s h hhost hseq hinput
  obtain ⟨t, hrun, ht, hidle⟩ := underway_block h hhost hseq hinput
  have hn : t.n = s.nfr := (ht.ended hidle).trans ht.nfr_eq
  refine ⟨t, hrun, fun j hj => ?_, ht.others⟩
  have hj' : j < t.n.toNat := hn ▸ hj
  obtain ⟨y, hy⟩ := ht.written j (hj'.trans_le (Nat.le_add_right _ _))
  exact ⟨y, hy _ _ (.inl rfl) (.inl rfl), hy _ _ (.inl rfl) (.inr rfl), hy _ _ (.inr rfl) (.inl rfl),
    hy _ _ (.inr rfl) (.inr rfl)⟩

end Sys2Proof.Machine
end
